-- ==== Sys2Proof/Word.lean ====
section
/-!
DEFINITION. The bit patterns the block moves: register words, 16-bit samples, bytes, binary32 patterns
(spec/00_scope.md R12, R13, R14). Integers that the spec never shifts or masks are Nat or Int elsewhere.
-/

namespace Sys2Proof

/-- A 32-bit word: a CSR value, an operation word, a u32 or an i32 (R13). -/
abbrev Word := BitVec 32

/-- A 16-bit word read as an i16: a raw sample, a table entry, an output sample (R13, R34). -/
abbrev Sample := BitVec 16

/-- One byte of the byte-wide view of the waveform memory (R83). -/
abbrev Byte := BitVec 8

/-- A binary32 pattern: sign [31], exponent [30:23], fraction [22:0] (R14). -/
abbrev F32 := BitVec 32

end Sys2Proof
end

