-- ==== Sys2Proof/Config.lean ====
section
/-!
DEFINITION. What a build of the block fixes (spec/00_scope.md R6: every parameter is OPEN, so the model takes
the whole configuration as data, log entry 3), the test configuration TC1 (spec/92_eei_decisions.md D47), and
the free values: constants without a body for the results the spec does not state (log entries 8, 9, 10).
-/

namespace Sys2Proof

/-- A complex binary32 value, (re, im) of R163. -/
structure Cplx where
  re : F32
  im : F32
deriving DecidableEq, Repr

/-- The build-time parameters of R6, but for WAVE (a field of State, log entry 6) and for FFT_FN, which the spec
fixes to FFT_REF (R163). FFT_SIZE is held as its logarithm, the S of R165, so that it is a power of two. -/
structure Params where
  /-- S, with FFT_SIZE = 2^S. -/
  fftLog : Nat
  /-- HOP_SIZE. -/
  hopSize : Nat
  /-- INPUT_SAMPLE_RATE, Hz. -/
  inRate : Nat
  /-- OUTPUT_SAMPLE_RATE, Hz. -/
  outRate : Nat
  /-- M = O_BUFFER_SIZE, frames per block. -/
  blockLen : Nat
  /-- STABILITY_COUNT. -/
  stabilityCount : Word
  /-- MIN_FREQ_SEPARATION_HZ. -/
  minFreqSep : Word
  /-- ADC_BIAS, an i32. -/
  adcBias : Word
  /-- ADC_HALF_RANGE, a u32. -/
  adcHalfRange : Word
  /-- PEAK_THRESHOLD. -/
  peakThreshold : F32
  /-- ENV_THRESHOLD. -/
  envThreshold : F32
  /-- KP. -/
  kp : F32
  /-- OUTPUT_GAIN. -/
  outputGain : F32
  /-- BLEND_ALPHA. -/
  blendAlpha : F32
  /-- AUDIBLE_FLOOR. -/
  audibleFloor : F32
  /-- HEADROOM_SCALE. -/
  headroomScale : F32
  /-- HANN[0..FFT_SIZE-1]. -/
  hann : List F32
  /-- TW[0..FFT_SIZE/2-1]. -/
  tw : List Cplx
  /-- WAVE_CFG_RESET. -/
  waveCfgReset : Word
deriving DecidableEq, Repr

/-- FFT_SIZE (L in the rules). -/
abbrev Params.fftSize (p : Params) : Nat := 2 ^ p.fftLog

/-- N = FFT_SIZE / 2, the number of frequency bins (R6). -/
abbrev Params.nBins (p : Params) : Nat := p.fftSize / 2

/-- POOL_CAP, fixed to 3 by the source (R6). -/
abbrev poolCap : Nat := 3

/-! The constraints on the binary32 parameters, on their patterns. [DEDUCED, log entry 3: for patterns without a
sign the order of the values is the order of the patterns (R14, binary32).] -/

/-- "finite": the exponent field is not all ones. -/
abbrev F32Finite (a : F32) : Prop := a.extractLsb' 23 8 ≠ 0xFF#8

/-- "finite, ≥ 0" (both zeros are ≥ 0). -/
abbrev F32NonNeg (a : F32) : Prop := a.toNat < 0x7F800000 ∨ a = 0x80000000#32

/-- "finite, > 0". -/
abbrev F32Pos (a : F32) : Prop := 0 < a.toNat ∧ a.toNat < 0x7F800000

/-- "finite, in [0, 1]". -/
abbrev F32Unit (a : F32) : Prop := a.toNat ≤ 0x3F800000 ∨ a = 0x80000000#32

/-- The constraint column of R6, row by row, with the lengths of the two ROM tables. -/
structure Params.Valid (p : Params) : Prop where
  fftLog : 2 ≤ p.fftLog ∧ p.fftLog ≤ 16
  hopSize : 1 ≤ p.hopSize ∧ p.hopSize ≤ p.fftSize
  inRate : 1 ≤ p.inRate
  outRate : 1 ≤ p.outRate
  blockLen : 1 ≤ p.blockLen ∧ p.blockLen ≤ 2 ^ 16
  adcHalfRange : 1 ≤ p.adcHalfRange.toNat
  peakThreshold : F32Finite p.peakThreshold
  envThreshold : F32NonNeg p.envThreshold
  kp : 0 < p.kp.toNat ∧ p.kp.toNat ≤ 0x3F800000
  outputGain : F32NonNeg p.outputGain
  blendAlpha : F32Unit p.blendAlpha
  audibleFloor : F32Pos p.audibleFloor
  headroomScale : F32Pos p.headroomScale
  hannLength : p.hann.length = p.fftSize
  hannUnit : p.hann.all (fun h => decide (F32Unit h))
  twLength : p.tw.length = p.nBins
  twFinite : p.tw.all (fun t => decide (F32Finite t.re ∧ F32Finite t.im))
  waveCfgReset : (p.waveCfgReset.extractLsb' 0 5).toNat ≤ 27

/-- A configuration of the block: parameters that meet R6. "A configuration outside the constraints is not a
configuration of the block" (spec/93_implementation_defined.md I18), so none can be written down. -/
structure Config where
  params : Params
  valid : params.Valid
deriving DecidableEq, Repr

/-! ## Free values -/

/-- The operations of R14 that can produce a NaN. -/
inductive FloatOp
  | add
  | mul
  | div
  | sqrt
deriving DecidableEq, Repr

/-- FREE VALUE (log entry 8): the sign and payload of the NaN an operation produces; IEEE 754 leaves them open. -/
opaque Config.freeNaN : FloatOp → F32 → F32 → F32

/-- FREE VALUE (log entry 9): what `f32_to_i32_tz_sat` answers for a NaN; R15 gives no result there. -/
opaque Config.freeNaNToI32 : F32 → Word

/-- FREE VALUE (log entry 9): what `quantise` answers when `f32_mul(v, 32767.0)` is not finite; `round_half_away`
(R15) is defined on a real only. -/
opaque Config.freeQuantise : F32 → Sample

/-- FREE VALUE (log entry 10): GUARD_R for an exact guard radius that is no u32; R18 says there is none. -/
opaque Config.freeGuardRadius : Nat → Word

/-! ## The test configuration -/

/-- HANN of TC1 (spec/95_test_vectors.md §2). -/
def tc1Hann : List F32 :=
  [0x00000000#32, 0x3D310F14#32, 0x3E2967B7#32, 0x3EB0E443#32, 0x3F0D6130#32, 0x3F400000#32, 0x3F678DDE#32, 0x3F7D33F1#32,
   0x3F7D33F1#32, 0x3F678DDE#32, 0x3F400000#32, 0x3F0D6130#32, 0x3EB0E443#32, 0x3E2967B7#32, 0x3D310F14#32, 0x00000000#32]

/-- TW of TC1 (spec/95_test_vectors.md §2). -/
def tc1Tw : List Cplx :=
  [⟨0x3F800000#32, 0x80000000#32⟩, ⟨0x3F6C835E#32, 0xBEC3EF15#32⟩, ⟨0x3F3504F3#32, 0xBF3504F3#32⟩,
   ⟨0x3EC3EF15#32, 0xBF6C835E#32⟩, ⟨0x00000000#32, 0xBF800000#32⟩, ⟨0xBEC3EF15#32, 0xBF6C835E#32⟩,
   ⟨0xBF3504F3#32, 0xBF3504F3#32⟩, ⟨0xBF6C835E#32, 0xBEC3EF15#32⟩]

/-- The scalars of TC1 (R6's column TC1, D47). -/
def tc1Params : Params where
  fftLog := 4
  hopSize := 4
  inRate := 16000
  outRate := 32000
  blockLen := 4
  stabilityCount := 2#32
  minFreqSep := 1000#32
  adcBias := 0#32
  adcHalfRange := 32768#32
  peakThreshold := 0x3DCCCCCD#32
  envThreshold := 0x3C23D70A#32
  kp := 0x3F000000#32
  outputGain := 0x40000000#32
  blendAlpha := 0x3F000000#32
  audibleFloor := 0x3F800000#32
  headroomScale := 0x38000000#32
  hann := tc1Hann
  tw := tc1Tw
  waveCfgReset := 0x00000002#32

/-- TC1 meets the constraints of R6. -/
theorem tc1_valid : tc1Params.Valid := by
  constructor <;> decide +kernel

/-- The test configuration TC1 (D47). -/
def tc1 : Config := ⟨tc1Params, tc1_valid⟩

end Sys2Proof
end

