-- ==== Sys2Proof/Syntax.lean ====
section
/-!
DEFINITION. The operations of the block: one constructor for each row of spec/opcode_table.json
(spec/30_encoding.md R118), with its operands (R117).
-/

namespace Sys2Proof

/-- An operation of one agent with its operands. -/
inductive Instr
  /-- ACQ_SAMPLE (R141): `SAMPLE`, a raw 16-bit sample. -/
  | acqSample (sample : Sample)
  /-- ACQ_DONE (R142). -/
  | acqDone
  /-- SEQ_CHECK (R144). -/
  | seqCheck
  /-- AN_INGEST (R145). -/
  | anIngest
  /-- AN_COMPUTE (R160). -/
  | anCompute
  /-- POOL_ACQUIRE (R231). -/
  | poolAcquire
  /-- SYN_FILL (R201). -/
  | synFill
  /-- POOL_RELEASE (R232). -/
  | poolRelease
  /-- OUT_TAKE (R233). -/
  | outTake
  /-- OUT_DONE (R234). -/
  | outDone
  /-- CSR_READ (R255): `off`, the byte offset `word[7:0]`. -/
  | csrRead (off : BitVec 8)
  /-- CSR_WRITE (R256): `off`, the byte offset `word0[7:0]`, and `DATA`, the second word. -/
  | csrWrite (off : BitVec 8) (data : Word)
  /-- INIT (R251): `OK`. -/
  | init (ok : Bool)
  /-- RESET (R254). -/
  | reset
deriving DecidableEq, Repr

end Sys2Proof
end

