-- ==== Sys2Proof/WellFormed.lean ====
section
/-!
DEFINITION. Which terms of `Instr` are operations: the byte offset of a register access is a multiple of 4
(spec/20_memory.md R84, spec/30_encoding.md R115, R116); every other operand is free over its whole type.
-/

namespace Sys2Proof

/-- Bits [1:0] of a byte offset are 00 (R84). -/
def offsetAligned (off : BitVec 8) : Bool := off.extractLsb' 0 2 == 0#2

/-- The operation has an encoding. -/
def Instr.wf : Instr → Bool
  | .csrRead off => offsetAligned off
  | .csrWrite off _ => offsetAligned off
  | .acqSample _ | .acqDone | .seqCheck | .anIngest | .anCompute | .poolAcquire | .synFill | .poolRelease
  | .outTake | .outDone | .init _ | .reset => true

end Sys2Proof
end

