-- ==== Sys2Proof/Decode.lean ====
section
/-!
DEFINITION. Operation words (spec/30_encoding.md R110 to R121): the fields, the total decoder that rejects by
name, the encoder written from the same format tables, and the operation map of R118 as a table of rows.
-/

namespace Sys2Proof

/-- Why a word spells no operation (R119, R121). -/
inductive DecodeError
  /-- The word stream is empty. -/
  | noWord
  /-- `OP` is 0x0 or 0xF. -/
  | reservedOp
  /-- A must-be-zero field of the format is not zero. -/
  | nonZeroField
  /-- Formats C and W: bits [1:0] are not 00. -/
  | misalignedOffset
  /-- A CSR_WRITE word 0 with no data word after it. -/
  | missingData
deriving DecidableEq, Repr

/-- `OP = word[31:28]` (R110). -/
def opField (w : Word) : BitVec 4 := w.extractLsb' 28 4

/-- Words of the operation, told from `OP` alone: 0xC is two words, every other is one (R110). -/
def opLength (w : Word) : Nat := if opField w = 0xC#4 then 2 else 1

/-- Format Z (R112): bits [27:0] must be zero. -/
def decodeZ (i : Instr) (w : Word) (rest : List Word) : Except DecodeError (Instr × List Word) :=
  if w.extractLsb' 0 28 = 0#28 then .ok (i, rest) else .error .nonZeroField

/-- Format S (R113). -/
def decodeS (w : Word) (rest : List Word) : Except DecodeError (Instr × List Word) :=
  if w.extractLsb' 16 12 = 0#12 then .ok (.acqSample (w.extractLsb' 0 16), rest) else .error .nonZeroField

/-- Format I (R114). -/
def decodeI (w : Word) (rest : List Word) : Except DecodeError (Instr × List Word) :=
  if w.extractLsb' 1 27 = 0#27 then .ok (.init (w.getLsbD 0), rest) else .error .nonZeroField

/-- The register offset of formats C and W (R115, R116): `word[7:0]`, bits [27:8] zero, bits [1:0] 00. -/
def decodeOffset (w : Word) : Except DecodeError (BitVec 8) :=
  if w.extractLsb' 8 20 = 0#20 then
    if offsetAligned (w.extractLsb' 0 8) then .ok (w.extractLsb' 0 8) else .error .misalignedOffset
  else .error .nonZeroField

/-- Format C (R115). -/
def decodeC (w : Word) (rest : List Word) : Except DecodeError (Instr × List Word) :=
  match decodeOffset w with
  | .ok off => .ok (.csrRead off, rest)
  | .error e => .error e

/-- Format W (R116): the data word follows; none after it is invalid (R121). -/
def decodeW (w : Word) (rest : List Word) : Except DecodeError (Instr × List Word) :=
  match decodeOffset w with
  | .ok off =>
    match rest with
    | data :: rest' => .ok (.csrWrite off data, rest')
    | [] => .error .missingData
  | .error e => .error e

/-- The decoder of R121: the operation at the head of a word stream and the words after it, or why there is none. -/
def decode : List Word → Except DecodeError (Instr × List Word)
  | [] => .error .noWord
  | w :: rest =>
    match (opField w).toNat with
    | 0x1 => decodeS w rest
    | 0x2 => decodeZ .acqDone w rest
    | 0x3 => decodeZ .seqCheck w rest
    | 0x4 => decodeZ .anIngest w rest
    | 0x5 => decodeZ .anCompute w rest
    | 0x6 => decodeZ .poolAcquire w rest
    | 0x7 => decodeZ .synFill w rest
    | 0x8 => decodeZ .poolRelease w rest
    | 0x9 => decodeZ .outTake w rest
    | 0xA => decodeZ .outDone w rest
    | 0xB => decodeC w rest
    | 0xC => decodeW w rest
    | 0xD => decodeI w rest
    | 0xE => decodeZ .reset w rest
    | _ => .error .reservedOp

/-! ## Encoder -/

/-- Format Z (R112). -/
def encodeZ (op : BitVec 4) : List Word := [op ++ 0#28]

/-- The words of an operation, from the formats of R112 to R116 and the `OP` column of R118. -/
def encode : Instr → List Word
  | .acqSample sample => [0x1#4 ++ 0#12 ++ sample]
  | .acqDone => encodeZ 0x2#4
  | .seqCheck => encodeZ 0x3#4
  | .anIngest => encodeZ 0x4#4
  | .anCompute => encodeZ 0x5#4
  | .poolAcquire => encodeZ 0x6#4
  | .synFill => encodeZ 0x7#4
  | .poolRelease => encodeZ 0x8#4
  | .outTake => encodeZ 0x9#4
  | .outDone => encodeZ 0xA#4
  | .csrRead off => [0xB#4 ++ 0#20 ++ off]
  | .csrWrite off data => [0xC#4 ++ 0#20 ++ off, data]
  | .init ok => [0xD#4 ++ 0#27 ++ BitVec.ofBool ok]
  | .reset => encodeZ 0xE#4

/-! ## The operation map -/

/-- One row of the operation map: word 0 encodes the operation iff `w & mask = match` (R118). -/
structure OpRow where
  mnemonic : String
  pattern : Word
  mask : Word
deriving DecidableEq, Repr

/-- `(w & mask) = match`. -/
def OpRow.matches (r : OpRow) (w : Word) : Bool := w &&& r.mask == r.pattern

/-- The operation map of R118. -/
def opcodeTable : List OpRow :=
  [⟨"ACQ_SAMPLE", 0x10000000#32, 0xFFFF0000#32⟩, ⟨"ACQ_DONE", 0x20000000#32, 0xFFFFFFFF#32⟩,
   ⟨"SEQ_CHECK", 0x30000000#32, 0xFFFFFFFF#32⟩, ⟨"AN_INGEST", 0x40000000#32, 0xFFFFFFFF#32⟩,
   ⟨"AN_COMPUTE", 0x50000000#32, 0xFFFFFFFF#32⟩, ⟨"POOL_ACQUIRE", 0x60000000#32, 0xFFFFFFFF#32⟩,
   ⟨"SYN_FILL", 0x70000000#32, 0xFFFFFFFF#32⟩, ⟨"POOL_RELEASE", 0x80000000#32, 0xFFFFFFFF#32⟩,
   ⟨"OUT_TAKE", 0x90000000#32, 0xFFFFFFFF#32⟩, ⟨"OUT_DONE", 0xA0000000#32, 0xFFFFFFFF#32⟩,
   ⟨"CSR_READ", 0xB0000000#32, 0xFFFFFF03#32⟩, ⟨"CSR_WRITE", 0xC0000000#32, 0xFFFFFF03#32⟩,
   ⟨"INIT", 0xD0000000#32, 0xFFFFFFFE#32⟩, ⟨"RESET", 0xE0000000#32, 0xFFFFFFFF#32⟩]

/-- The mnemonic of an operation, as the table spells it. -/
def Instr.mnemonic : Instr → String
  | .acqSample _ => "ACQ_SAMPLE"
  | .acqDone => "ACQ_DONE"
  | .seqCheck => "SEQ_CHECK"
  | .anIngest => "AN_INGEST"
  | .anCompute => "AN_COMPUTE"
  | .poolAcquire => "POOL_ACQUIRE"
  | .synFill => "SYN_FILL"
  | .poolRelease => "POOL_RELEASE"
  | .outTake => "OUT_TAKE"
  | .outDone => "OUT_DONE"
  | .csrRead _ => "CSR_READ"
  | .csrWrite _ _ => "CSR_WRITE"
  | .init _ => "INIT"
  | .reset => "RESET"

/-- The four agents of R8. -/
inductive Agent
  | acq
  | seq
  | out
  | host
deriving DecidableEq, Repr

/-- The `agent` column of R118 (RESET is issued through the HOST port or by the reset signal, R254). -/
def Instr.agent : Instr → Agent
  | .acqSample _ | .acqDone => .acq
  | .seqCheck | .anIngest | .anCompute | .poolAcquire | .synFill | .poolRelease | .init _ => .seq
  | .outTake | .outDone => .out
  | .csrRead _ | .csrWrite _ _ | .reset => .host

/-! ## Words numbered as the opcode table numbers them -/

/-- The words of an instruction whose `nbits` bits are `w`, bit 0 the least significant bit of the first word; bits
above `nbits` are 0. The second word stands only where the operation has one, or where the bits spill into it.
[DESIGN CHOICE, log entry 18: a CSR_WRITE word 0 given with 32 bits gets a data word of 0 here; in a stream of words
`decode` calls it invalid, as R121 says.] -/
def tableWords (nbits w : Nat) : List Word :=
  let v := w % 2 ^ nbits
  let w0 : Word := BitVec.ofNat 32 v
  let w1 : Word := BitVec.ofNat 32 (v / 2 ^ 32)
  if opLength w0 = 2 ∨ 2 ^ 32 ≤ v then [w0, w1] else [w0]

/-- The operation the decoder reads from those words, if they spell exactly one. -/
def decodeTableWord (nbits w : Nat) : Option Instr :=
  match decode (tableWords nbits w) with
  | .ok (i, []) => some i
  | .ok (_, _ :: _) => none
  | .error _ => none

end Sys2Proof
end

