-- ==== Sys2Proof/Machine/State.lean ====
section
/-!
DEFINITION. Everything the block holds (spec/10_state.md), as plain data, with the codes of its small fields; the
reasons a step stops; and the state after power-on (spec/70_reset_and_hazards.md R310, R311).
-/

namespace Sys2Proof.Machine

/-! ## The types of the fields -/

/-- `SEQ_PC`, the position in the microprogram (R31). Code 7 is "unused, unreachable" and has no constructor (log
entry 12). -/
inductive SeqPc
  | init
  | check
  | ingest
  | compute
  | acquire
  | fill
  | release
deriving DecidableEq, Repr

/-- `MODE` (R32). Code 3 is "unused and unreachable" and has no constructor (log entry 12). -/
inductive Mode
  | init
  | run
  | halted
deriving DecidableEq, Repr

/-- `envelope_phase` (R45). -/
inductive Envelope
  | attack
  | sustain
  | decay
deriving DecidableEq, Repr

/-- `PSTATE[b]`, the life-cycle state of an output buffer (R50). -/
inductive BufState
  | free
  | filling
  | queued
  | playing
deriving DecidableEq, Repr

/-- The index of an output buffer, 0, 1 or 2 (R49). `CUR_BUF` and `PLAYING` are `Option BufId`: NONE is `none`. -/
abbrev BufId := Fin 3

/-- Two things indexed by 0 and 1: the acquisition buffers (R33). -/
structure Two (α : Type) where
  b0 : α
  b1 : α
deriving DecidableEq, Repr

/-- Three things indexed by 0, 1 and 2: the output buffers and their states (R49, R50). -/
structure Three (α : Type) where
  b0 : α
  b1 : α
  b2 : α
deriving DecidableEq, Repr

/-- One FrequencyBin record (R45). -/
structure Bin where
  gate : Bool
  phaseAccumulator : Word
  phaseIncrement : Word
  targetAmplitude : Sample
  smoothedAmplitude : F32
  lastMagnitude : F32
  isPeak : Bool
  envelopePhase : Envelope
  stabilityCount : Word
deriving DecidableEq, Repr

/-- The waveform memory WAVE (R80, R82) through its byte-wide view (R83): entry `a` is the bytes at `2a` (bits 7..0)
and `2a + 1` (bits 15..8). Cells in rising order of address, none equal to the unlisted byte. [Log entry 6] -/
abbrev Memory := List Host.Cell

/-- What an address not listed reads as. [DESIGN CHOICE, log entry 6] -/
abbrev Memory.unlisted : Byte := 0#8

/-- 2^27 entries of two bytes (R80). -/
abbrev Memory.size : Nat := 2 ^ 28

/-- The canonical form: addresses strictly rising and inside the space, no cell equal to the unlisted byte. -/
abbrev Memory.wf (m : Memory) : Prop :=
  m.Pairwise (fun c d => c.1 < d.1) ∧ m.all (fun c => decide (c.2 ≠ Memory.unlisted ∧ c.1 < Memory.size))

/-- Who presents the next words: one line of the program, an operation of the agent its `OP` names (R124); or the
host port, which takes the next words waiting there (R257). [DESIGN CHOICE, log entry 1] -/
inductive Turn
  | line (words : List Word)
  | port
deriving DecidableEq, Repr

/-! ## The state -/

/-- The state of the block. The fields down to `waveCfg` are 10_state.md's; `outLog` is its observation record; the
last three are the model's own (log entries 1, 11). -/
structure State where
  /-- The hardwired configuration (R55); no operation writes it. [Log entry 3] -/
  cfg : Config
  /-- `WAVE`, external and read-only (R82); no operation writes it. -/
  wave : Memory
  /-- `SEQ_PC` (R31). -/
  seqPc : SeqPc
  /-- `MODE` (R32). -/
  mode : Mode
  /-- `ACQ_BUF[b][j]` (R33). -/
  acqBuf : Two (List Sample)
  /-- `ACTIVE` (R35). -/
  active : Fin 2
  /-- `WPTR` (R36). -/
  wptr : Nat
  /-- `READY` (R37). -/
  ready : Bool
  /-- `OVR_READ` (R38). -/
  ovrRead : Bool
  /-- `OVR_DROP` (R38). -/
  ovrDrop : Bool
  /-- `INGEST_PTR` (R39). -/
  ingestPtr : Nat
  /-- `CONS_IDX` (R40). -/
  consIdx : Fin 2
  /-- `STAGE[j]` (R41). -/
  stage : List Sample
  /-- `CUR_BUF` (R42). -/
  curBuf : Option BufId
  /-- `WIN[n]` (R43). -/
  win : List F32
  /-- `GUARD_R` (R44). -/
  guardR : Word
  /-- `BIN[k]` (R45). -/
  bins : List Bin
  /-- `MIX[i]`, each an i32 (R48). -/
  mix : List Word
  /-- `PBUF[b][w]` (R49). -/
  pbuf : Three (List Sample)
  /-- `PSTATE[b]` (R50). -/
  pstate : Three BufState
  /-- `QUEUE` (R51). -/
  queue : List BufId
  /-- `PLAYING` (R52). -/
  playing : Option BufId
  /-- `WAVE_CFG` (R54). -/
  waveCfg : Word
  /-- `OUT_LOG`, the blocks handed to the output hardware (R56). -/
  outLog : List (List Sample)
  /-- The words `emit` returned to the host, in order (R16, R255). [Log entry 11] -/
  hostOut : List Word
  /-- The words waiting at the host port (R257). [Log entry 11] -/
  hostIn : List Word
  /-- The steps to come: which agent moves next (R8, R285). [Log entry 1] -/
  sched : List Turn
deriving DecidableEq, Repr

/-! ## How a step stops -/

/-- The block itself faults never (R9, R280). These two name states no run reaches; stopping there is safe. -/
inductive Fault
  /-- ACQ_SAMPLE or AN_INGEST: the index lies outside the array. R81: every index a rule computes is in range, so no
  run reaches it. Safe. [Log entry 13] -/
  | cellOutOfRange
  /-- SYN_FILL or POOL_RELEASE with `CUR_BUF` = NONE. R53 (d): no run reaches it. Safe. [Log entry 13] -/
  | noCurrentBuffer
deriving DecidableEq, Repr

/-- What the model refuses. All are safe: the model stops where the spec has no step to take. -/
inductive Refusal
  /-- An operation without a meaning yet (the dispatcher's arms only); none is left. Safe. -/
  | notModelled (mnemonic : String)
  /-- Raised by a meaning whose enabling condition fails: "An operation that is not enabled is not a faulting
  operation: it is not a step, and a model refuses it" (R280). Safe. -/
  | notEnabled (i : Instr)
  /-- Raised by CSR_READ and CSR_WRITE of an ill-formed term: an offset with bits [1:0] other than 00 "spells no
  operation … and a model refuses it" (R84). The decoder never gives one. Safe. -/
  | misalignedOffset (off : BitVec 8)
  /-- Raised by `step` on a program line that spells no operation (R119: "In a trace or program given to a model, it
  is refused"). Safe. -/
  | badWord (e : DecodeError)
  /-- Raised by `step` on a program line with words left after its one operation (R124: "each line one operation").
  Safe. -/
  | trailingWords
  /-- Raised by `step`: no step is scheduled. The model chooses none (log entries 1, 2). Safe. -/
  | scheduleEmpty
  /-- Raised by `step`: the host port's turn, and no word waits there (log entry 11). Safe. -/
  | hostPortEmpty
deriving DecidableEq, Repr

/-! ## Reset values -/

/-- A bin after RESET (R45, R310). -/
def Bin.reset : Bin where
  gate := false
  phaseAccumulator := 0#32
  phaseIncrement := 0#32
  targetAmplitude := 0#16
  smoothedAmplitude := 0#32
  lastMagnitude := 0#32
  isPeak := false
  envelopePhase := .sustain
  stabilityCount := 0#32

/-- Power-on (R311): RESET with OUT_LOG empty, for a configuration and a waveform memory. The contents the spec
leaves unspecified (ACQ_BUF, STAGE, MIX, PBUF: R310, I10) are zeros. [DESIGN CHOICE, log entry 4] -/
def State.powerOn (cfg : Config) (wave : Memory) : State where
  cfg := cfg
  wave := wave
  seqPc := .init
  mode := .init
  acqBuf := ⟨List.replicate cfg.params.hopSize 0#16, List.replicate cfg.params.hopSize 0#16⟩
  active := 0
  wptr := 0
  ready := false
  ovrRead := false
  ovrDrop := false
  ingestPtr := 0
  consIdx := 0
  stage := List.replicate cfg.params.hopSize 0#16
  curBuf := none
  win := List.replicate cfg.params.fftSize 0#32
  guardR := 0#32
  bins := List.replicate cfg.params.nBins Bin.reset
  mix := List.replicate cfg.params.blockLen 0#32
  pbuf :=
    let block := List.replicate (2 * cfg.params.blockLen) 0#16
    ⟨block, block, block⟩
  pstate := ⟨.free, .free, .free⟩
  queue := []
  playing := none
  waveCfg := cfg.params.waveCfgReset
  outLog := []
  hostOut := []
  hostIn := []
  sched := []

/-- WAVE of TC1 (D47): entries 0..3 = 0, 30000, 0, −30000, every other entry 0. -/
def tc1Wave : Memory := [(2, 0x30#8), (3, 0x75#8), (6, 0xD0#8), (7, 0x8A#8)]

/-- The machine right after reset: power-on of the test configuration TC1, nothing scheduled. [DESIGN CHOICE: the
spec leaves every parameter open, log entry 3] -/
def State.reset : State := State.powerOn tc1 tc1Wave

end Sys2Proof.Machine
end

