-- ==== Sys2Proof/Machine/Ops.lean ====
section
/-!
DEFINITION. The named operations the meanings share: cells of an array, the two and three buffers, the waveform
memory, the enabling conditions and what happens where one fails. TAKING AN EXCEPTION is no operation of this block:
"no trap exists, so no state is saved, no mode changes and there is no vector table" (spec/60_exceptions.md R286),
and there is no return from one (R287); its one interrupt-like event is the operation ACQ_DONE itself (R283).
-/

namespace Sys2Proof.Machine

/-! ## Arrays (R81: one element, named by its index) -/

/-- `A[i] <- v`; nothing outside the array. -/
def writeCell {α : Type} (xs : List α) (i : Nat) (v : α) : Option (List α) :=
  if i < xs.length then some (xs.set i v) else none

def Two.get {α : Type} (t : Two α) : Fin 2 → α
  | 0 => t.b0
  | 1 => t.b1

def Two.set {α : Type} (t : Two α) (i : Fin 2) (v : α) : Two α :=
  match i with
  | 0 => { t with b0 := v }
  | 1 => { t with b1 := v }

def Three.get {α : Type} (t : Three α) : BufId → α
  | 0 => t.b0
  | 1 => t.b1
  | 2 => t.b2

def Three.set {α : Type} (t : Three α) (i : BufId) (v : α) : Three α :=
  match i with
  | 0 => { t with b0 := v }
  | 1 => { t with b1 := v }
  | 2 => { t with b2 := v }

/-- `1 − i` of an acquisition buffer index: "the other" buffer (R35). -/
def other (i : Fin 2) : Fin 2 := 1 - i

/-! ## The waveform memory (R82, R83; log entry 6) -/

/-- The byte at an address. -/
def Memory.read : Memory → Nat → Byte
  | [], _ => Memory.unlisted
  | (k, v) :: rest, a => if k = a then v else Memory.read rest a

/-- The memory with one byte changed, in canonical form. No operation of the block writes the waveform memory; this
is the platform's loading of a table before it is bound (R314 (a), R319). -/
def Memory.write : Memory → Nat → Byte → Memory
  | [], a, v => if v = Memory.unlisted then [] else [(a, v)]
  | (k, w) :: rest, a, v =>
    if a < k then if v = Memory.unlisted then (k, w) :: rest else (a, v) :: (k, w) :: rest
    else if a = k then if v = Memory.unlisted then rest else (a, v) :: rest
    else (k, w) :: Memory.write rest a v

/-- `WaveRead(a)` (R82): the i16 entry at a 27-bit entry address, little-endian in the byte view (R83). -/
def waveRead (m : Memory) (a : BitVec 27) : Sample := m.read (2 * a.toNat + 1) ++ m.read (2 * a.toNat)

/-- The platform's write of one entry before the table is bound (R314 (a)). -/
def waveLoad (m : Memory) (a : BitVec 27) (v : Sample) : Memory :=
  (m.write (2 * a.toNat) (v.extractLsb' 0 8)).write (2 * a.toNat + 1) (v.extractLsb' 8 8)

/-! ## Enabling (R9, R16 `require`) -/

/-- The line "Enabled" of each operation's rule (files 40 to 44). -/
def enabled (i : Instr) (s : State) : Bool :=
  match i with
  | .acqSample _ => decide (s.mode = .run ∧ s.wptr < s.cfg.params.hopSize)
  | .acqDone => decide (s.mode = .run ∧ s.wptr = s.cfg.params.hopSize)
  | .seqCheck => decide (s.mode = .run ∧ s.seqPc = .check)
  | .anIngest => decide (s.mode = .run ∧ s.seqPc = .ingest)
  | .anCompute => decide (s.mode = .run ∧ s.seqPc = .compute)
  | .poolAcquire => decide (s.mode = .run ∧ s.seqPc = .acquire)
  | .synFill => decide (s.mode = .run ∧ s.seqPc = .fill)
  | .poolRelease => decide (s.mode = .run ∧ s.seqPc = .release)
  | .outTake => decide (s.mode = .run ∧ s.playing = none ∧ s.queue ≠ [])
  | .outDone => decide (s.mode = .run ∧ s.playing ≠ none)
  | .csrRead _ | .csrWrite _ _ => true
  | .init _ => decide (s.mode = .init ∧ s.seqPc = .init)
  | .reset => true

/-- An operation that is not enabled "is not a step, and a model refuses it" (R280). -/
def whenEnabled (i : Instr) (s : State) (effect : Host.Outcome State Fault Refusal) :
    Host.Outcome State Fault Refusal :=
  if enabled i s then effect else .refused (.notEnabled i)

/-- The pending completion event: the block's only interrupt-like state (R60, R283). -/
def completionPending (s : State) : Bool := decide (s.mode = .run ∧ s.wptr = s.cfg.params.hopSize)

end Sys2Proof.Machine
end

