-- ==== Sys2Proof/Machine/Operands.lean ====
section
/-!
DEFINITION. What operand fields and register fields stand for (spec/30_encoding.md R117, spec/10_state.md R54): the
sample of format S, the byte offset of formats C and W, the two fields of WAVE_CFG.
-/

namespace Sys2Proof.Machine

/-- `sext_16` of a raw sample (R117, R13). -/
def sampleValue (raw : Sample) : Int := raw.toInt

/-- The byte offset of a register access, `zext_32(word0[7:0])` (R117). -/
def csrOffset (off : BitVec 8) : Nat := off.toNat

/-- `TBITS = WAVE_CFG[4:0]` (R54). -/
def tbits (waveCfg : Word) : Nat := (waveCfg.extractLsb' 0 5).toNat

/-- `BASE = WAVE_CFG[31:5]` (R54). -/
def base (waveCfg : Word) : BitVec 27 := waveCfg.extractLsb' 5 27

/-- A WAVE_CFG word whose TBITS field is legal, 0..27 (R58). -/
def waveCfgLegal (w : Word) : Bool := decide (tbits w ≤ 27)

end Sys2Proof.Machine
end

