-- ==== Sys2Proof/Machine/Flags.lean ====
section
/-!
DEFINITION. The codes of the small fields (spec/10_state.md R31, R32, R42, R50, R52), the two status views
STATUS and POOL_STATE (R57), and the sticky overrun records (spec/40_acquisition.md R143).
-/

namespace Sys2Proof.Machine

/-- The 3-bit code of `SEQ_PC` (R31). -/
def SeqPc.code : SeqPc → BitVec 3
  | .init => 0#3
  | .check => 1#3
  | .ingest => 2#3
  | .compute => 3#3
  | .acquire => 4#3
  | .fill => 5#3
  | .release => 6#3

/-- The 2-bit code of `MODE` (R32). -/
def Mode.code : Mode → BitVec 2
  | .init => 0#2
  | .run => 1#2
  | .halted => 2#2

/-- The 2-bit code of `PSTATE[b]` (R50). -/
def BufState.code : BufState → BitVec 2
  | .free => 0#2
  | .filling => 1#2
  | .queued => 2#2
  | .playing => 3#2

/-- The 2-bit code of `CUR_BUF` and `PLAYING`: the buffer, or 3 = NONE (R42, R52). -/
def bufCode : Option BufId → BitVec 2
  | some b => BitVec.ofNat 2 b.val
  | none => 3#2

/-- STATUS (R57): [0] READY; [1] ACTIVE; [2] OVR_READ; [3] OVR_DROP; [5:4] MODE; [8:6] SEQ_PC; [31:9] zero. -/
def statusWord (s : State) : Word :=
  0#23 ++ s.seqPc.code ++ s.mode.code ++ BitVec.ofBool s.ovrDrop ++ BitVec.ofBool s.ovrRead
    ++ BitVec.ofNat 1 s.active.val ++ BitVec.ofBool s.ready

/-- POOL_STATE (R57): [1:0] PSTATE[0]; [3:2] PSTATE[1]; [5:4] PSTATE[2]; [7:6] PLAYING; [9:8] length of QUEUE; [11:10]
CUR_BUF; [31:12] zero. -/
def poolStateWord (s : State) : Word :=
  0#20 ++ bufCode s.curBuf ++ BitVec.ofNat 2 s.queue.length ++ bufCode s.playing
    ++ s.pstate.b2.code ++ s.pstate.b1.code ++ s.pstate.b0.code

/-- `OVR_READ` after a completion event (R143 (a)): sticky, set while `SEQ_PC = INGEST`. -/
def ovrReadAfterDone (s : State) : Bool := s.ovrRead || decide (s.seqPc = .ingest)

/-- `OVR_DROP` after a completion event (R143 (b)): sticky, set while `READY = 1`. -/
def ovrDropAfterDone (s : State) : Bool := s.ovrDrop || s.ready

end Sys2Proof.Machine
end

