-- ==== Sys2Proof/Machine/Acquisition.lean ====
section
/-!
DEFINITION. The acquisition double-buffer and hand-off (spec/40_acquisition.md): ACQ_SAMPLE, ACQ_DONE, SEQ_CHECK,
AN_INGEST.
-/

namespace Sys2Proof.Machine

/-- ACQ_SAMPLE (R141): the acquisition hardware writes one raw sample into the active buffer. -/
def execAcqSample (sample : Sample) (s : State) : Host.Outcome State Fault Refusal :=
  whenEnabled (.acqSample sample) s <|
    match writeCell (s.acqBuf.get s.active) s.wptr sample with
    | some buf => .next { s with acqBuf := s.acqBuf.set s.active buf, wptr := s.wptr + 1 }
    | none => .fault .cellOutOfRange

/-- ACQ_DONE (R142, R143): the completion event; swap, re-arm, signal, and record an overrun. -/
def execAcqDone (s : State) : Host.Outcome State Fault Refusal :=
  whenEnabled .acqDone s <|
    .next { s with
      ovrDrop := ovrDropAfterDone s
      ovrRead := ovrReadAfterDone s
      active := other s.active
      wptr := 0
      ready := true }

/-- SEQ_CHECK (R144): take the latest complete block if one is ready, else go straight to synthesis. -/
def execSeqCheck (s : State) : Host.Outcome State Fault Refusal :=
  whenEnabled .seqCheck s <|
    if s.ready then .next { s with ready := false, consIdx := other s.active, ingestPtr := 0, seqPc := .ingest }
    else .next { s with seqPc := .acquire }

/-- AN_INGEST (R145): copy one sample of the taken block into STAGE. -/
def execAnIngest (s : State) : Host.Outcome State Fault Refusal :=
  whenEnabled .anIngest s <|
    match (s.acqBuf.get s.consIdx)[s.ingestPtr]? with
    | none => .fault .cellOutOfRange
    | some v =>
      match writeCell s.stage s.ingestPtr v with
      | none => .fault .cellOutOfRange
      | some stage =>
        .next { s with
          stage := stage
          ingestPtr := s.ingestPtr + 1
          seqPc := if s.ingestPtr + 1 = s.cfg.params.hopSize then .compute else s.seqPc }

end Sys2Proof.Machine
end

