-- ==== Sys2Proof/Machine/Float.lean ====
section
/-!
DEFINITION. binary32 arithmetic (spec/00_scope.md R14, R15): each operation computes the exact result on integers
and rounds it once, to nearest with ties to even, subnormals kept. A finite value is counted in UNITS of 2^-149,
the least subnormal, of which every finite binary32 is a whole number.
-/

namespace Sys2Proof.Machine

/-! ## Fields and exact values -/

/-- The sign bit. -/
def f32Sign (a : F32) : Bool := a.getLsbD 31

/-- The exponent field [30:23]. -/
def f32Exp (a : F32) : Nat := (a.extractLsb' 23 8).toNat

/-- The fraction field [22:0]. -/
def f32Frac (a : F32) : Nat := (a.extractLsb' 0 23).toNat

def f32IsNaN (a : F32) : Bool := decide (f32Exp a = 255 ∧ f32Frac a ≠ 0)

def f32IsInf (a : F32) : Bool := decide (f32Exp a = 255 ∧ f32Frac a = 0)

def f32IsFinite (a : F32) : Bool := decide (f32Exp a ≠ 255)

/-- The magnitude in units of 2^-149. Of an infinity it is 2^277, above every finite magnitude. -/
def f32Mag (a : F32) : Nat :=
  if f32Exp a = 0 then f32Frac a else (2 ^ 23 + f32Frac a) * 2 ^ (f32Exp a - 1)

/-- The signed value in units of 2^-149. -/
def f32Val (a : F32) : Int := if f32Sign a then -(f32Mag a : Int) else (f32Mag a : Int)

/-! ## Rounding -/

/-- The quotient `num / den` to the nearest integer, ties to even. -/
def roundHalfEven (num den : Nat) : Nat :=
  let q := num / den
  let r := num % den
  if den < 2 * r ∨ (2 * r = den ∧ q % 2 = 1) then q + 1 else q

/-- The exponent of the last place of a value of `u` units: 24 significant bits, or the units themselves. -/
def ulpExp (u : Nat) : Nat := Nat.log2 u - 23

/-- The sign-free pattern of `num / den` units rounded once to binary32: the significand in units of its last place,
over the exponent that place has. A significand of 2^24 carries into the exponent; past the largest finite value
stands the infinity. -/
def roundUnits (num den : Nat) : Nat :=
  let e := ulpExp (num / den)
  min (e * 2 ^ 23 + roundHalfEven num (den * 2 ^ e)) 0x7F800000

/-- A sign and a sign-free pattern. -/
def f32Pack (neg : Bool) (pattern : Nat) : F32 := BitVec.ofNat 32 (if neg then 2 ^ 31 + pattern else pattern)

/-- `± num / den` units, rounded once. -/
def f32OfUnits (neg : Bool) (num den : Nat) : F32 := f32Pack neg (roundUnits num den)

def f32Inf (neg : Bool) : F32 := f32Pack neg 0x7F800000

def f32Zero (neg : Bool) : F32 := f32Pack neg 0

/-- A quiet NaN whose sign and payload are free. [DESIGN CHOICE, log entry 8] -/
def f32NaN (op : FloatOp) (a b : F32) : F32 := 0x7FC00000#32 ||| (Config.freeNaN op a b &&& 0x803FFFFF#32)

/-- One unit of 2^-149 over 1.0. -/
abbrev unitScale : Nat := 2 ^ 149

/-! ## The primitives of R14 -/

/-- `f32_neg`: sign flip, exact. -/
def f32Neg (a : F32) : F32 := a ^^^ 0x80000000#32

/-- `f32_add`. A zero sum of finite operands is −0 only when both operands are negative zeros. -/
def f32Add (a b : F32) : F32 :=
  if f32IsNaN a || f32IsNaN b then f32NaN .add a b
  else if f32IsInf a then if f32IsInf b && f32Sign a != f32Sign b then f32NaN .add a b else a
  else if f32IsInf b then b
  else if f32Val a + f32Val b = 0 then f32Zero (f32Sign a && f32Sign b)
  else f32OfUnits (decide (f32Val a + f32Val b < 0)) (f32Val a + f32Val b).natAbs 1

/-- `f32_sub`. -/
def f32Sub (a b : F32) : F32 := f32Add a (f32Neg b)

/-- `f32_mul`. -/
def f32Mul (a b : F32) : F32 :=
  let neg := f32Sign a != f32Sign b
  if f32IsNaN a || f32IsNaN b then f32NaN .mul a b
  else if f32IsInf a then if f32Mag b = 0 then f32NaN .mul a b else f32Inf neg
  else if f32IsInf b then if f32Mag a = 0 then f32NaN .mul a b else f32Inf neg
  else f32OfUnits neg (f32Mag a * f32Mag b) unitScale

/-- `f32_div`. -/
def f32Div (a b : F32) : F32 :=
  let neg := f32Sign a != f32Sign b
  if f32IsNaN a || f32IsNaN b then f32NaN .div a b
  else if f32IsInf a then if f32IsInf b then f32NaN .div a b else f32Inf neg
  else if f32IsInf b then f32Zero neg
  else if f32Mag b = 0 then if f32Mag a = 0 then f32NaN .div a b else f32Inf neg
  else f32OfUnits neg (f32Mag a * unitScale) (f32Mag b)

/-- The integer square root, one bit a time: `r` holds the bits of the root decided so far, those below 2^k are to
come. -/
def isqrtFrom (n : Nat) : Nat → Nat → Nat
  | 0, r => r
  | k + 1, r => isqrtFrom n k (if (r + 2 ^ k) * (r + 2 ^ k) ≤ n then r + 2 ^ k else r)

/-- The largest `r` with `r * r ≤ n`, for n < 2^428. -/
def isqrt (n : Nat) : Nat := isqrtFrom n 214 0

/-- `f32_sqrt`. The root of `n = mag · 2^149` in units has at least 75 bits, so rounding it needs its integer part and
whether anything is left: the half unit added when `n` is no square. -/
def f32Sqrt (a : F32) : F32 :=
  if f32IsNaN a then f32NaN .sqrt a a
  else if f32Mag a = 0 then a
  else if f32Sign a then f32NaN .sqrt a a
  else if f32IsInf a then a
  else
    let n := f32Mag a * unitScale
    let r := isqrt n
    f32OfUnits false (2 * r + if r * r = n then 0 else 1) 2

/-- `f32_lt` and its kin: IEEE ordered comparisons, false when either operand is a NaN. -/
def f32Lt (a b : F32) : Bool := !f32IsNaN a && !f32IsNaN b && decide (f32Val a < f32Val b)

def f32Le (a b : F32) : Bool := !f32IsNaN a && !f32IsNaN b && decide (f32Val a ≤ f32Val b)

def f32Gt (a b : F32) : Bool := f32Lt b a

def f32Ge (a b : F32) : Bool := f32Le b a

/-- `to_f32(i)`: an integer rounded to the nearest binary32. -/
def toF32 (i : Int) : F32 := f32OfUnits (decide (i < 0)) (i.natAbs * unitScale) 1

/-- The binary32 of 1.0. -/
abbrev f32One : F32 := 0x3F800000#32

/-- The binary32 of −1.0. -/
abbrev f32NegOne : F32 := 0xBF800000#32

/-- `f32_min1`. -/
def f32Min1 (a : F32) : F32 := if f32Gt a f32One then f32One else a

/-! ## Integers (R13, R15) -/

/-- `clamp(v, lo, hi)` of R13. -/
def clamp (v lo hi : Int) : Int := if v < lo then lo else if hi < v then hi else v

/-- `wrap_i32(v)` of R13, as a 32-bit pattern. -/
def wrapI32 (v : Int) : Word := BitVec.ofInt 32 v

/-- A magnitude with a sign. -/
def signed (neg : Bool) (m : Nat) : Int := if neg then -(m : Int) else (m : Int)

/-- `f32_to_i32_tz_sat(x)` of R15: truncate toward zero, then saturate to i32. The infinities saturate [DEDUCED, log
entry 9]; the answer for a NaN is free. -/
def f32ToI32TzSat (x : F32) : Int :=
  if f32IsNaN x then (Config.freeNaNToI32 x).toInt
  else clamp (signed (f32Sign x) (f32Mag x / unitScale)) (-(2 ^ 31)) (2 ^ 31 - 1)

/-- `round_half_away` of a non-negative rational `num / den` (R15). -/
def roundHalfAway (num den : Nat) : Nat := (2 * num + den) / (2 * den)

/-- `round_half_away` of a finite binary32 (R15). -/
def f32RoundHalfAway (x : F32) : Int := signed (f32Sign x) (roundHalfAway (f32Mag x) unitScale)

end Sys2Proof.Machine
end

