-- ==== Sys2Proof/Machine/Fft.lean ====
section
/-!
DEFINITION. The FFT engine (spec/41_analysis.md R163 to R169): FFT_FN = FFT_REF, iterative radix-2
decimation-in-time over the twiddle ROM, in place, every butterfly in the order of R165. [Log entry 7]
-/

namespace Sys2Proof.Machine

/-- (+0.0, +0.0). -/
abbrev Cplx.zero : Cplx := ⟨0#32, 0#32⟩

/-- `bitrev_S(n)` (R166): the S low bits of n in reverse. -/
def bitrev : Nat → Nat → Nat
  | 0, _ => 0
  | S + 1, n => n % 2 * 2 ^ S + bitrev S (n / 2)

/-- `butterfly(u, v, w)` (R167), no fused operation. -/
def butterfly (u v w : Cplx) : Cplx × Cplx :=
  let tr := f32Sub (f32Mul w.re v.re) (f32Mul w.im v.im)
  let ti := f32Add (f32Mul w.re v.im) (f32Mul w.im v.re)
  (⟨f32Add u.re tr, f32Add u.im ti⟩, ⟨f32Sub u.re tr, f32Sub u.im ti⟩)

/-- `(A[p], A[q]) <- butterfly(A[p], A[q], w)`. -/
def butterflyAt (A : List Cplx) (p q : Nat) (w : Cplx) : List Cplx :=
  let r := butterfly (A.getD p Cplx.zero) (A.getD q Cplx.zero) w
  (A.set p r.1).set q r.2

/-- One group of stage s (R165): the inner loop `for j in 0..h-1`, with m = 2^s, h = m / 2, g the group's start. -/
def fftGroup (tw : List Cplx) (L m g : Nat) (A : List Cplx) : List Cplx :=
  (List.range (m / 2)).foldl
    (fun A j => butterflyAt A (g + j) (g + j + m / 2) (tw.getD (j * (L / m)) Cplx.zero)) A

/-- One stage (R165): `for g in 0, m, 2m, ..., L-m`. -/
def fftStage (tw : List Cplx) (L m : Nat) (A : List Cplx) : List Cplx :=
  (List.range (L / m)).foldl (fun A i => fftGroup tw L m (i * m) A) A

/-- The bit-reversed load (R165): `for n in 0..L-1: A[bitrev_S(n)] <- (y[n], +0.0)`. -/
def fftLoad (S : Nat) (y : List F32) : List Cplx :=
  (List.range (2 ^ S)).foldl (fun A n => A.set (bitrev S n) ⟨y.getD n 0#32, 0#32⟩)
    (List.replicate (2 ^ S) Cplx.zero)

/-- `FFT_REF(y)` (R165), L = 2^S. -/
def fftRef (tw : List Cplx) (S : Nat) (y : List F32) : List Cplx :=
  (List.range S).foldl (fun A s => fftStage tw (2 ^ S) (2 ^ (s + 1)) A) (fftLoad S y)

end Sys2Proof.Machine
end

