-- ==== Sys2Proof/Machine/Analysis.lean ====
section
/-!
DEFINITION. The spectral analysis engine (spec/41_analysis.md): the stage functions of AN_COMPUTE and AN_COMPUTE.
-/

namespace Sys2Proof.Machine

/-! ## Steps 1 to 4: window, FFT, magnitude -/

/-- `normalise(raw)` (R161). -/
def normalise (p : Params) (raw : Sample) : F32 :=
  let v := f32Div (toF32 (sampleValue raw - p.adcBias.toInt)) (toF32 p.adcHalfRange.toNat)
  if f32Gt v f32One then f32One else if f32Lt v f32NegOne then f32NegOne else v

/-- `slide_append(WIN, STAGE)` (R162): the oldest HOP_SIZE samples leave, the normalised block is appended. -/
def slideAppend (p : Params) (win : List F32) (stage : List Sample) : List F32 :=
  win.drop p.hopSize ++ stage.map (normalise p)

/-- `y[n] = f32_mul(W[n], HANN[n])` (R164). -/
def windowed (p : Params) (w : List F32) : List F32 := List.zipWith f32Mul w p.hann

/-- `magnitude((re, im))` (R170). -/
def magnitude (p : Params) (x : Cplx) : F32 :=
  f32Div (f32Sqrt (f32Add (f32Mul x.re x.re) (f32Mul x.im x.im))) (toF32 p.nBins)

/-- `mag[0..N-1]` of a window: the N first outputs of the engine (R160 steps 2 to 4, R169). -/
def magnitudes (p : Params) (w : List F32) : List F32 :=
  ((fftRef p.tw p.fftLog (windowed p w)).take p.nBins).map (magnitude p)

/-! ## Step 5: the peak detector -/

/-- Bin k can be a peak only when `k − R > 0` and `k + R < N − 1` (R172). -/
def eligible (p : Params) (k R : Nat) : Bool := decide (R < k ∧ k + R < p.nBins - 1)

/-- `peak_test(mag, k, R)` (R173). -/
def peakTest (p : Params) (mag : List F32) (k R : Nat) : Bool :=
  eligible p k R && f32Ge (mag.getD k 0#32) p.peakThreshold
    && (List.range (2 * R + 1)).all fun d =>
      let j := k - R + d
      decide (j = k) || f32Gt (mag.getD k 0#32) (mag.getD j 0#32)

/-! ## Step 6: the per-bin update -/

/-- `classify(d)` (R179). -/
def classify (p : Params) (d : F32) : Envelope :=
  if f32Gt d p.envThreshold then .attack else if f32Lt d (f32Neg p.envThreshold) then .decay else .sustain

/-- `blend(m, last)` (R180). -/
def blend (p : Params) (m last : F32) : F32 :=
  f32Add (f32Mul p.blendAlpha m) (f32Mul (f32Sub f32One p.blendAlpha) last)

/-- The binary32 of 32767.0. -/
abbrev f32FullScale : F32 := 0x46FFFE00#32

/-- `quantise(v)` (R181). [log entry 9: free where the product is not finite] -/
def quantise (v : F32) : Sample :=
  let q := f32Mul v f32FullScale
  if f32IsFinite q then BitVec.ofInt 16 (clamp (f32RoundHalfAway q) (-32768) 32767) else Config.freeQuantise q

/-- `stable_update(b, m)` (R177). -/
def stableUpdate (p : Params) (b : Bin) (m : F32) : Bin :=
  let sm := blend p m b.lastMagnitude
  { b with
    gate := true
    targetAmplitude := quantise (f32Min1 (f32Mul sm p.outputGain))
    lastMagnitude := sm }

/-- The peak branch (R176). -/
def peakBranch (p : Params) (b : Bin) (m : F32) : Bin :=
  let b' := { b with
    isPeak := true
    envelopePhase := classify p (f32Sub m b.lastMagnitude)
    stabilityCount := b.stabilityCount + 1#32 }
  if p.stabilityCount.toNat < b'.stabilityCount.toNat then stableUpdate p b' m else b'

/-- The non-peak branch (R178). -/
def nonPeakBranch (b : Bin) (m : F32) : Bin :=
  { b with
    isPeak := false
    envelopePhase := .sustain
    stabilityCount := 0#32
    gate := false
    targetAmplitude := 0#16
    lastMagnitude := m }

/-- `bin_update(k, m, p)` (R175). -/
def binUpdate (p : Params) (b : Bin) (m : F32) (peak : Bool) : Bin :=
  if peak then peakBranch p b m else nonPeakBranch b m

/-- Every bin updated from this cycle's magnitudes (R160 steps 5 and 6, R184). -/
def updateBins (p : Params) (R : Nat) (mag : List F32) (bins : List Bin) : List Bin :=
  bins.mapIdx fun k b => binUpdate p b (mag.getD k 0#32) (peakTest p mag k R)

/-! ## AN_COMPUTE -/

/-- AN_COMPUTE (R160): one analysis cycle over the staged block. -/
def execAnCompute (s : State) : Host.Outcome State Fault Refusal :=
  whenEnabled .anCompute s <|
    let w := slideAppend s.cfg.params s.win s.stage
    .next { s with
      win := w
      bins := updateBins s.cfg.params s.guardR.toNat (magnitudes s.cfg.params w) s.bins
      seqPc := .acquire }

end Sys2Proof.Machine
end

