-- ==== Sys2Proof/Machine/Control.lean ====
section
/-!
DEFINITION. Control (spec/44_control.md): INIT, RESET, CSR_READ, CSR_WRITE and the register map of
spec/10_state.md R57.
-/

namespace Sys2Proof.Machine

/-! ## INIT -/

/-- `phase_increment(k)` (R252): exact, rounded half away from zero, mod 2^32. -/
def phaseIncrement (p : Params) (k : Nat) : Word :=
  BitVec.ofNat 32 (roundHalfAway (k * p.inRate * 2 ^ 32) (p.fftSize * p.outRate))

/-- The exact guard radius (R171). -/
def exactGuardRadius (p : Params) : Nat := max 1 (roundHalfAway (p.minFreqSep.toNat * p.fftSize) p.inRate)

/-- `guard_radius()` (R171) as the u32 of GUARD_R; free where the exact value is no u32 [log entry 10]. -/
def guardRadius (p : Params) : Word :=
  if exactGuardRadius p < 2 ^ 32 then BitVec.ofNat 32 (exactGuardRadius p)
  else Config.freeGuardRadius (exactGuardRadius p)

/-- INIT (R251, R253): with the resources, fix the increments and the guard radius and run; without, halt. -/
def execInit (ok : Bool) (s : State) : Host.Outcome State Fault Refusal :=
  whenEnabled (.init ok) s <|
    if ok then
      .next { s with
        bins := s.bins.mapIdx fun k b => { b with phaseIncrement := phaseIncrement s.cfg.params k }
        guardR := guardRadius s.cfg.params
        mode := .run
        seqPc := .check }
    else .next { s with mode := .halted }

/-! ## RESET -/

/-- RESET's effect (R254, R310): every element at its reset value but OUT_LOG. The four whose reset value is
unspecified keep their contents, as R254 allows [DESIGN CHOICE, log entry 5]; the configuration and WAVE are not
reset (R55, R82); the model's own fields are no state of the block (log entries 1, 11). -/
def resetState (s : State) : State :=
  { State.powerOn s.cfg s.wave with
    acqBuf := s.acqBuf
    stage := s.stage
    mix := s.mix
    pbuf := s.pbuf
    outLog := s.outLog
    hostOut := s.hostOut
    hostIn := s.hostIn
    sched := s.sched }

/-- RESET (R254). -/
def execReset (s : State) : Host.Outcome State Fault Refusal := whenEnabled .reset s (.next (resetState s))

/-! ## The register map -/

/-- `csr_value(S, off)` (R57, R255): 0 if unmapped. A count wider than its register shows its low 32 bits [DEDUCED,
log entry 14]. -/
def csrValue (s : State) (off : Nat) : Word :=
  let p := s.cfg.params
  match off with
  | 0x00 => statusWord s
  | 0x04 => s.waveCfg
  | 0x08 => s.guardR
  | 0x0C => poolStateWord s
  | 0x10 => BitVec.ofNat 32 p.fftSize
  | 0x14 => BitVec.ofNat 32 p.hopSize
  | 0x18 => BitVec.ofNat 32 p.nBins
  | 0x1C => BitVec.ofNat 32 p.blockLen
  | 0x20 => BitVec.ofNat 32 poolCap
  | 0x24 => p.stabilityCount
  | 0x28 => BitVec.ofNat 32 p.inRate
  | 0x2C => BitVec.ofNat 32 p.outRate
  | 0x30 => p.minFreqSep
  | 0x34 => p.adcBias
  | 0x38 => p.adcHalfRange
  | 0x3C => p.peakThreshold
  | 0x40 => p.envThreshold
  | 0x44 => p.kp
  | 0x48 => p.outputGain
  | 0x4C => p.blendAlpha
  | 0x50 => p.audibleFloor
  | 0x54 => p.headroomScale
  | _ => 0#32

/-- `emit(v)` (R16): return a value to the host. [log entry 11: recorded in order] -/
def emit (v : Word) (s : State) : State := { s with hostOut := s.hostOut ++ [v] }

/-- CSR_READ (R255). -/
def execCsrRead (off : BitVec 8) (s : State) : Host.Outcome State Fault Refusal :=
  whenEnabled (.csrRead off) s <|
    if offsetAligned off then .next (emit (csrValue s (csrOffset off)) s) else .refused (.misalignedOffset off)

/-- CSR_WRITE (R256, R58, R59): only WAVE_CFG takes a write, and only with a legal TBITS. -/
def execCsrWrite (off : BitVec 8) (data : Word) (s : State) : Host.Outcome State Fault Refusal :=
  whenEnabled (.csrWrite off data) s <|
    if offsetAligned off then
      if csrOffset off = 0x04 ∧ waveCfgLegal data then .next { s with waveCfg := data } else .next s
    else .refused (.misalignedOffset off)

end Sys2Proof.Machine
end

