-- ==== Sys2Proof/Machine/Pool.lean ====
section
/-!
DEFINITION. The output buffer pool and output hand-off (spec/43_pool_output.md): POOL_ACQUIRE, POOL_RELEASE,
OUT_TAKE, OUT_DONE.
-/

namespace Sys2Proof.Machine

/-- The least b in 0, 1, 2 with `PSTATE[b] = FREE` (R231). -/
def firstFree (t : Three BufState) : Option BufId :=
  if t.b0 = .free then some 0 else if t.b1 = .free then some 1 else if t.b2 = .free then some 2 else none

/-- POOL_ACQUIRE (R231): a FREE buffer for this cycle's block, or skip the cycle's production (R235). -/
def execPoolAcquire (s : State) : Host.Outcome State Fault Refusal :=
  whenEnabled .poolAcquire s <|
    match firstFree s.pstate with
    | some b => .next { s with pstate := s.pstate.set b .filling, curBuf := some b, seqPc := .fill }
    | none => .next { s with curBuf := none, seqPc := .check }

/-- POOL_RELEASE (R232): the filled buffer joins the queue. -/
def execPoolRelease (s : State) : Host.Outcome State Fault Refusal :=
  whenEnabled .poolRelease s <|
    match s.curBuf with
    | none => .fault .noCurrentBuffer
    | some b =>
      .next { s with
        pstate := s.pstate.set b .queued
        queue := s.queue ++ [b]
        curBuf := none
        seqPc := .check }

/-- OUT_TAKE (R233): the output hardware starts consuming the oldest queued buffer. -/
def execOutTake (s : State) : Host.Outcome State Fault Refusal :=
  whenEnabled .outTake s <|
    match s.queue with
    | [] => .refused (.notEnabled .outTake)
    | b :: rest => .next { s with queue := rest, pstate := s.pstate.set b .playing, playing := some b }

/-- OUT_DONE (R234): the playing buffer is consumed, observed, and returns to the pool. -/
def execOutDone (s : State) : Host.Outcome State Fault Refusal :=
  whenEnabled .outDone s <|
    match s.playing with
    | none => .refused (.notEnabled .outDone)
    | some b =>
      .next { s with outLog := s.outLog ++ [s.pbuf.get b], pstate := s.pstate.set b .free, playing := none }

end Sys2Proof.Machine
end

