-- ==== Sys2Proof/Machine/Synthesis.lean ====
section
/-!
DEFINITION. The additive synthesis engine (spec/42_synthesis.md): the functions of one oscillator lane and SYN_FILL.
-/

namespace Sys2Proof.Machine

/-- `active(b)` (R202). -/
def binActive (p : Params) (b : Bin) : Bool := b.gate || f32Ge b.smoothedAmplitude p.audibleFloor

/-- `follow(s, target)` (R203). -/
def follow (p : Params) (s : F32) (target : Sample) : F32 :=
  f32Add s (f32Mul (f32Sub (toF32 target.toInt) s) p.kp)

/-- `index(ph, tb)` (R204): the top `tb` bits of the phase. -/
def tableIndex (ph : Word) (tb : Nat) : Nat := if tb = 0 then 0 else ph.toNat / 2 ^ (32 - tb) % 2 ^ tb

/-- `(BASE + index) mod 2^27` (R204). -/
def waveAddress (base : BitVec 27) (idx : Nat) : BitVec 27 := BitVec.ofNat 27 (base.toNat + idx)

/-- `contribution(t, s)` (R205, R206). -/
def contribution (p : Params) (t : Sample) (s : F32) : Int :=
  f32ToI32TzSat (f32Mul (f32Mul (toF32 t.toInt) s) p.headroomScale)

/-- `limit(v)` (R210): the hard limiter. -/
def limit (v : Word) : Sample := BitVec.ofInt 16 (clamp v.toInt (-32768) 32767)

/-- The inner loop of one active bin (R201, R203 to R208), sample by sample over the mix: the follower, then the
lookup, the contribution, the accumulation and the phase advance. Answers the mix, the follower state and the phase
after the block. -/
def synLane (p : Params) (wave : Memory) (base : BitVec 27) (tb : Nat) (target : Sample) (inc : Word) :
    List Word → F32 → Word → List Word × F32 × Word
  | [], s, ph => ([], s, ph)
  | m :: mix, s, ph =>
    let s' := follow p s target
    let t := waveRead wave (waveAddress base (tableIndex ph tb))
    let r := synLane p wave base tb target inc mix s' (ph + inc)
    (wrapI32 (m.toInt + contribution p t s') :: r.1, r.2)

/-- The bin loop (R201): an active bin adds its lane and is written back (R209); an inactive one is not touched
(R213). -/
def synBins (p : Params) (wave : Memory) (base : BitVec 27) (tb : Nat) :
    List Bin → List Word → List Bin × List Word
  | [], mix => ([], mix)
  | b :: bins, mix =>
    if binActive p b then
      let lane := synLane p wave base tb b.targetAmplitude b.phaseIncrement mix b.smoothedAmplitude b.phaseAccumulator
      let r := synBins p wave base tb bins lane.1
      ({ b with smoothedAmplitude := lane.2.1, phaseAccumulator := lane.2.2 } :: r.1, r.2)
    else
      let r := synBins p wave base tb bins mix
      (b :: r.1, r.2)

/-- The output block of a mix (R210, R211): each sample limited and written to both channels, left then right. -/
def stereoBlock (mix : List Word) : List Sample := mix.flatMap fun v => [limit v, limit v]

/-- SYN_FILL (R201): synthesise one block into CUR_BUF with the table WAVE_CFG binds now. -/
def execSynFill (s : State) : Host.Outcome State Fault Refusal :=
  whenEnabled .synFill s <|
    match s.curBuf with
    | none => .fault .noCurrentBuffer
    | some b =>
      let r := synBins s.cfg.params s.wave (base s.waveCfg) (tbits s.waveCfg) s.bins
        (List.replicate s.cfg.params.blockLen 0#32)
      .next { s with
        bins := r.1
        mix := r.2
        pbuf := s.pbuf.set b (stereoBlock r.2)
        seqPc := .release }

end Sys2Proof.Machine
end

