-- ==== Sys2Proof/Machine/Dispatch.lean ====
section
/-!
DEFINITION. One operation applied to a state: one arm per constructor of Instr.
-/

namespace Sys2Proof.Machine

def exec (i : Instr) (s : State) : Host.Outcome State Fault Refusal :=
  match i with
  | .acqSample sample => Sys2Proof.Machine.execAcqSample sample s
  | .acqDone => Sys2Proof.Machine.execAcqDone s
  | .seqCheck => Sys2Proof.Machine.execSeqCheck s
  | .anIngest => Sys2Proof.Machine.execAnIngest s
  | .anCompute => Sys2Proof.Machine.execAnCompute s
  | .poolAcquire => Sys2Proof.Machine.execPoolAcquire s
  | .synFill => Sys2Proof.Machine.execSynFill s
  | .poolRelease => Sys2Proof.Machine.execPoolRelease s
  | .outTake => Sys2Proof.Machine.execOutTake s
  | .outDone => Sys2Proof.Machine.execOutDone s
  | .csrRead off => Sys2Proof.Machine.execCsrRead off s
  | .csrWrite off data => Sys2Proof.Machine.execCsrWrite off data s
  | .init ok => Sys2Proof.Machine.execInit ok s
  | .reset => Sys2Proof.Machine.execReset s

end Sys2Proof.Machine
end

