-- ==== Sys2Proof/Machine/HostPort.lean ====
section
/-!
DEFINITION. The two ways words reach a step: a line of the program (spec/30_encoding.md R119, R124) and the host
port (spec/44_control.md R257).
-/

namespace Sys2Proof.Machine

/-- The operation a program line spells: exactly one, else the line is refused (R119, R124). -/
def fetchLine (words : List Word) : Except Refusal Instr :=
  match decode words with
  | .error e => .error (.badWord e)
  | .ok (i, []) => .ok i
  | .ok (_, _ :: _) => .error .trailingWords

/-- The host port takes the next words of its stream (R257): a HOST operation is performed as one step, every other
word is ignored and changes nothing else (R119, EV6). [DEDUCED, log entry 11: a CSR_WRITE word 0 that ends the stream
is invalid, R121, and so ignored] -/
def execHostPort (s : State) : Host.Outcome State Fault Refusal :=
  match s.hostIn with
  | [] => .refused .hostPortEmpty
  | w :: rest =>
    match decode (w :: rest) with
    | .error _ => .next { s with hostIn := rest }
    | .ok (i, rest') =>
      match i with
      | .csrRead off => execCsrRead off { s with hostIn := rest' }
      | .csrWrite off data => execCsrWrite off data { s with hostIn := rest' }
      | .reset => execReset { s with hostIn := rest' }
      | .acqSample _ | .acqDone | .seqCheck | .anIngest | .anCompute | .poolAcquire | .synFill | .poolRelease
      | .outTake | .outDone | .init _ => .next { s with hostIn := rest' }

end Sys2Proof.Machine
end

