-- ==== Sys2Proof/Machine/Step.lean ====
section
/-!
DEFINITION. One step of the block: the next turn of the schedule is taken from it and performed as one atomic step
(spec/00_scope.md R8, R9, spec/20_memory.md R86). The block has no instruction fetch (R94): a step's words come from
the schedule (log entries 1, 2).
-/

namespace Sys2Proof.Machine

def step (s : State) : Host.Outcome State Fault Refusal :=
  match s.sched with
  | [] => .refused .scheduleEmpty
  | .line words :: rest =>
    match fetchLine words with
    | .ok i => exec i { s with sched := rest }
    | .error r => .refused r
  | .port :: rest => execHostPort { s with sched := rest }

/-- `s` with the instruction whose `nbits` bits are `w` as its next turn: the program line the host of the model
loads (log entry 2; the words, and the data word a short CSR_WRITE gets: log entry 18). -/
def State.withFetchWord (s : State) (nbits w : Nat) : State :=
  { s with sched := .line (tableWords nbits w) :: s.sched }

end Sys2Proof.Machine
end

