-- ==== Sys2Proof/Safety.lean ====
section
/-!
DEFINITION. What claims about the block are said in terms of: the invariants of spec/10_state.md, reachable states,
runs of operations, the premise of the timing invariant (spec/70_reset_and_hazards.md R320), fairness (R323).
-/

namespace Sys2Proof.Machine

/-! ## Invariants -/

/-- Every array has the length its rule gives (R33, R41, R43, R45, R48, R49). -/
structure Shape (s : State) : Prop where
  acq0 : s.acqBuf.b0.length = s.cfg.params.hopSize
  acq1 : s.acqBuf.b1.length = s.cfg.params.hopSize
  stage : s.stage.length = s.cfg.params.hopSize
  win : s.win.length = s.cfg.params.fftSize
  bins : s.bins.length = s.cfg.params.nBins
  mix : s.mix.length = s.cfg.params.blockLen
  pbuf0 : s.pbuf.b0.length = 2 * s.cfg.params.blockLen
  pbuf1 : s.pbuf.b1.length = 2 * s.cfg.params.blockLen
  pbuf2 : s.pbuf.b2.length = 2 * s.cfg.params.blockLen

/-- The ranges of `WPTR` and `INGEST_PTR` (R36, R39), and `INGEST_PTR < HOP_SIZE` whenever `SEQ_PC = INGEST` (R145). -/
structure PointersOk (s : State) : Prop where
  wptr : s.wptr ≤ s.cfg.params.hopSize
  ingestPtr : s.ingestPtr ≤ s.cfg.params.hopSize
  ingest : s.seqPc = .ingest → s.ingestPtr < s.cfg.params.hopSize

/-- The sequencer stands at INIT exactly while the block does not run (R31, R32, R250). -/
structure ModeOk (s : State) : Prop where
  running : s.mode = .run → s.seqPc ≠ .init
  stopped : s.mode ≠ .run → s.seqPc = .init

/-- The pool invariants of R53; (a), each buffer in exactly one state, holds by the type of `PSTATE`. -/
structure PoolOk (s : State) : Prop where
  /-- (b) `QUEUE` holds each buffer at most once … -/
  queueNodup : s.queue.Nodup
  /-- … and exactly the QUEUED ones. -/
  queued : ∀ b, b ∈ s.queue ↔ s.pstate.get b = .queued
  /-- (c) `PLAYING` = b iff `PSTATE[b]` = PLAYING. -/
  playing : ∀ b, s.playing = some b ↔ s.pstate.get b = .playing
  /-- (d) the FILLING buffer is `CUR_BUF` … -/
  filling : ∀ b, s.curBuf = some b ↔ s.pstate.get b = .filling
  /-- … and there is one exactly when `SEQ_PC` is FILL or RELEASE. -/
  current : s.curBuf ≠ none ↔ s.seqPc = .fill ∨ s.seqPc = .release

/-- A closed gate has target 0 (R47). -/
def GateOk (s : State) : Prop := ∀ b ∈ s.bins, b.gate = false → b.targetAmplitude = 0#16

/-- `WAVE_CFG` never holds TBITS > 27 (R204), and the waveform memory is in canonical form. -/
structure WaveOk (s : State) : Prop where
  legal : waveCfgLegal s.waveCfg = true
  canonical : s.wave.wf

/-- In RUN the values fixed at initialisation stand: `GUARD_R` and every `phase_increment` (R44, R45, R313). -/
structure FixedOk (s : State) : Prop where
  guardR : s.mode = .run → s.guardR = guardRadius s.cfg.params
  increments : s.mode = .run → ∀ k b, s.bins[k]? = some b → b.phaseIncrement = phaseIncrement s.cfg.params k

/-- The invariant of the block. -/
structure Inv (s : State) : Prop where
  shape : Shape s
  pointers : PointersOk s
  modePc : ModeOk s
  pool : PoolOk s
  gate : GateOk s
  wave : WaveOk s
  fixed : FixedOk s

/-- The hand-off while the consumer copies (R91, R147): with no read overrun recorded, the hardware writes the other
buffer, and the cells copied so far are those of the block taken. -/
def HandoffOk (s : State) : Prop :=
  s.ovrRead = false → s.seqPc = .ingest →
    s.consIdx = other s.active ∧
      ∀ j, j < s.ingestPtr → s.stage[j]? = (s.acqBuf.get s.consIdx)[j]?

/-! ## Runs -/

/-- A state of some run from power-on (R8, R311): any configuration, any waveform memory, any schedule, any host words. -/
inductive Reachable : State → Prop
  | powerOn (cfg : Config) (wave : Memory) (hw : wave.wf) (sched : List Turn) (hostIn : List Word) :
      Reachable { State.powerOn cfg wave with sched := sched, hostIn := hostIn }
  | step {s t : State} (hs : Reachable s) (h : Sys2Proof.Machine.step s = .next t) : Reachable t

/-- A list of operations taken one after another (R124). -/
def runOps : List Instr → State → Host.Outcome State Fault Refusal
  | [], s => .next s
  | i :: ops, s =>
    match exec i s with
    | .next t => runOps ops t
    | .fault f => .fault f
    | .refused r => .refused r

/-- A program is admissible from a state iff every operation is enabled in the state its predecessors leave (R124). -/
def Admissible : List Instr → State → Prop
  | [], _ => True
  | i :: ops, s => enabled i s = true ∧ ∀ t, exec i s = .next t → Admissible ops t

/-- The samples a list of operations delivers, in order. -/
def deliveredSamples (ops : List Instr) : List Sample :=
  ops.filterMap fun i =>
    match i with
    | .acqSample v => some v
    | .acqDone | .seqCheck | .anIngest | .anCompute | .poolAcquire | .synFill | .poolRelease | .outTake | .outDone
    | .csrRead _ | .csrWrite _ _ | .init _ | .reset => none

/-- How many POOL_ACQUIRE operations of the run obtain a buffer (R236). -/
def grantedAcquires : List Instr → State → Nat
  | [], _ => 0
  | i :: ops, s =>
    match exec i s with
    | .next t => (if i = .poolAcquire ∧ t.curBuf ≠ none then 1 else 0) + grantedAcquires ops t
    | .fault _ => 0
    | .refused _ => 0

/-- The premise a claim about the analysed data takes (R143, R320): no overrun is recorded. -/
def NoOverrun (s : State) : Prop := s.ovrRead = false ∧ s.ovrDrop = false

/-! ## Infinite runs (R11, R323) -/

/-- `op 0, op 1, …` is a run through `st 0, st 1, …`. -/
def IsRun (op : Nat → Instr) (st : Nat → State) : Prop :=
  ∀ n, (op n).wf = true ∧ exec (op n) (st n) = .next (st (n + 1))

/-- Some operation of the agent is enabled. -/
def agentEnabled (a : Agent) (s : State) : Prop := ∃ i : Instr, i.agent = a ∧ i.wf = true ∧ enabled i s = true

/-- "A run is fair iff every agent that is enabled at infinitely many points of the run takes infinitely many steps"
(R323). -/
def FairRun (op : Nat → Instr) (st : Nat → State) : Prop :=
  ∀ a, (∀ n, ∃ m, n ≤ m ∧ agentEnabled a (st m)) → ∀ n, ∃ m, n ≤ m ∧ (op m).agent = a

/-! ## The recommended configuration constraint -/

/-- `N × 32768 × 32767 × HEADROOM_SCALE < 2^31` in real arithmetic (R7), both sides in units of 2^-149. The rules do
not assume it. -/
def NoMixWrap (p : Params) : Prop := p.nBins * 32768 * 32767 * f32Mag p.headroomScale < 2 ^ 31 * unitScale

end Sys2Proof.Machine
end

