-- ==== Sys2Proof/Certificates/Slice0/Obligations.lean ====
section
/-!
DEFINITION. The statements for the provers, one `def Obligations.<Name> : Prop` each; OBLIGATIONS.json lists them.
A frame is written `{ t with f := s.f, … } = s`: every field but those named is unchanged; the waveform memory's bytes
are stated beside it, address by address.
-/

open Sys2Proof Sys2Proof.Machine

/-! ## Encoding (spec/30_encoding.md) -/

/-- R110 to R118, R121: decoding an encoded well-formed operation gives it back, with every operand at every value, and
consumes exactly its words. -/
def Obligations.DecodeOfEncodeGivesTheOperationBack : Prop :=
  ∀ (i : Instr) (rest : List Word), i.wf = true → decode (encode i ++ rest) = .ok (i, rest)

/-- R117, R121: no bit of a word the decoder accepts is dropped: the operation it answers is well-formed and encodes to
the very words consumed. -/
def Obligations.DecodedWordsEncodeBack : Prop :=
  ∀ (words : List Word) (i : Instr) (rest : List Word),
    decode words = .ok (i, rest) → i.wf = true ∧ encode i ++ rest = words

/-- R118: a word encodes the operation of a row iff `(w & mask) = match` (a data word follows, so that the two-word
operation is whole). -/
def Obligations.DecoderFollowsTheOperationMap : Prop :=
  ∀ row ∈ opcodeTable, ∀ (w data : Word) (rest : List Word),
    row.matches w = true ↔ ∃ i rest', decode (w :: data :: rest) = .ok (i, rest') ∧ i.mnemonic = row.mnemonic

/-- R119: which words spell no operation: `OP` 0x0 or 0xF, a must-be-zero field that is not zero, or, in formats C and W,
bits [1:0] other than 00. -/
def Obligations.WordsThatSpellNoOperation : Prop :=
  ∀ (w data : Word) (rest : List Word),
    (∃ e, decode (w :: data :: rest) = .error e) ↔
      (opField w = 0x0#4 ∨ opField w = 0xF#4)
      ∨ (opField w = 0x1#4 ∧ w.extractLsb' 16 12 ≠ 0#12)
      ∨ (((0x2 ≤ (opField w).toNat ∧ (opField w).toNat ≤ 0xA) ∨ opField w = 0xE#4) ∧ w.extractLsb' 0 28 ≠ 0#28)
      ∨ (opField w = 0xD#4 ∧ w.extractLsb' 1 27 ≠ 0#27)
      ∨ ((opField w = 0xB#4 ∨ opField w = 0xC#4) ∧ (w.extractLsb' 8 20 ≠ 0#20 ∨ w.extractLsb' 0 2 ≠ 0#2))

/-- R119, R257: a program line that spells no operation is refused; at the host port such a word, and every word of a
non-HOST operation, is ignored; a HOST operation there is performed. (Program lines, the port's stream and its turns are the
model's form of R124 and R257, log entries 1 and 11.) -/
def Obligations.WordsInAProgramAndAtTheHostPort : Prop :=
  ∀ (s : State) (sched : List Turn),
    (∀ words e, s.sched = .line words :: sched → decode words = .error e → step s = .refused (.badWord e)) ∧
    (∀ w words e, s.sched = .port :: sched → s.hostIn = w :: words → decode (w :: words) = .error e →
      step s = .next { s with sched := sched, hostIn := words }) ∧
    (∀ words i rest, s.sched = .port :: sched → s.hostIn = words → decode words = .ok (i, rest) →
      (i.agent ≠ .host → step s = .next { s with sched := sched, hostIn := rest }) ∧
      (i.agent = .host → step s = exec i { s with sched := sched, hostIn := rest }))

/-- A step runs the decoded operation: the next program line's operation on the state with that line taken, and nothing
else around it; a fetched word is such a line. (Log entries 1, 2.) -/
def Obligations.StepRunsTheNextProgramLine : Prop :=
  (∀ (s : State) (words : List Word) (sched : List Turn) (i : Instr),
    s.sched = .line words :: sched → decode words = .ok (i, []) → step s = exec i { s with sched := sched }) ∧
  (∀ (s : State) (nbits w : Nat) (i : Instr),
    decodeTableWord nbits w = some i → step (s.withFetchWord nbits w) = exec i s)

/-- Words written out from R112 to R116 decode to the operation they stand for (spec/95_test_vectors.md §3). -/
def Obligations.WrittenOutWordsDecode : Prop :=
  decode [0x10004000#32] = .ok (.acqSample 0x4000#16, []) ∧
  decode [0x20000000#32] = .ok (.acqDone, []) ∧
  decode [0x50000000#32] = .ok (.anCompute, []) ∧
  decode [0x70000000#32] = .ok (.synFill, []) ∧
  decode [0xB000000C#32] = .ok (.csrRead 0x0C#8, []) ∧
  decode [0xC0000004#32, 0x00000103#32] = .ok (.csrWrite 0x04#8 0x103#32, []) ∧
  decode [0xD0000001#32] = .ok (.init true, []) ∧
  decode [0xB0000005#32] = .error .misalignedOffset

/-! ## Acquisition (spec/40_acquisition.md) -/

/-- R141: ACQ_SAMPLE stores the sample, unmodified, at `ACQ_BUF[ACTIVE][WPTR]` and advances `WPTR`; it is enabled exactly
when `MODE = RUN` and `WPTR < HOP_SIZE`. -/
def Obligations.AcqSampleStoresAtTheWritePointer : Prop :=
  ∀ (s : State) (v : Sample), Shape s →
    (s.mode = .run → s.wptr < s.cfg.params.hopSize →
      ∃ t, exec (.acqSample v) s = .next t ∧ t.wptr = s.wptr + 1 ∧
        (∀ b j, (t.acqBuf.get b)[j]? = if b = s.active ∧ j = s.wptr then some v else (s.acqBuf.get b)[j]?) ∧
        { t with acqBuf := s.acqBuf, wptr := s.wptr } = s ∧
        ∀ a, t.wave.read a = s.wave.read a) ∧
    (¬(s.mode = .run ∧ s.wptr < s.cfg.params.hopSize) →
      exec (.acqSample v) s = .refused (.notEnabled (.acqSample v)))

/-- R142, R143: ACQ_DONE swaps, re-arms and signals in one step, and records a read overrun while `SEQ_PC = INGEST` and a
dropped block while `READY = 1` (both where both hold, R282); enabled exactly when `MODE = RUN` and `WPTR = HOP_SIZE`. -/
def Obligations.AcqDoneSwapsSignalsAndRecordsOverruns : Prop :=
  ∀ s : State,
    (s.mode = .run → s.wptr = s.cfg.params.hopSize →
      ∃ t, exec .acqDone s = .next t ∧ t.active = 1 - s.active ∧ t.wptr = 0 ∧ t.ready = true ∧
        (t.ovrRead = true ↔ s.ovrRead = true ∨ s.seqPc = .ingest) ∧
        (t.ovrDrop = true ↔ s.ovrDrop = true ∨ s.ready = true) ∧
        { t with active := s.active, wptr := s.wptr, ready := s.ready, ovrRead := s.ovrRead, ovrDrop := s.ovrDrop } = s ∧
        ∀ a, t.wave.read a = s.wave.read a) ∧
    (¬(s.mode = .run ∧ s.wptr = s.cfg.params.hopSize) → exec .acqDone s = .refused (.notEnabled .acqDone))

/-- R144: SEQ_CHECK clears the ready flag and latches the other index when a block is ready, and otherwise goes to
ACQUIRE, changing nothing else; enabled exactly when `MODE = RUN` and `SEQ_PC = CHECK`. -/
def Obligations.SeqCheckTakesTheLatestBlock : Prop :=
  ∀ s : State,
    (s.mode = .run → s.seqPc = .check →
      (s.ready = true →
        exec .seqCheck s =
          .next { s with ready := false, consIdx := 1 - s.active, ingestPtr := 0, seqPc := .ingest }) ∧
      (s.ready = false → exec .seqCheck s = .next { s with seqPc := .acquire })) ∧
    (¬(s.mode = .run ∧ s.seqPc = .check) → exec .seqCheck s = .refused (.notEnabled .seqCheck))

/-- R145: AN_INGEST copies `ACQ_BUF[CONS_IDX][INGEST_PTR]`, whatever it holds at this step, into `STAGE[INGEST_PTR]`; after
the last sample `SEQ_PC` is COMPUTE. `INGEST_PTR < HOP_SIZE` is an invariant at INGEST (R145; StepKeepsTheInvariant). -/
def Obligations.AnIngestCopiesOneSample : Prop :=
  ∀ s : State, Shape s →
    (s.mode = .run → s.seqPc = .ingest → s.ingestPtr < s.cfg.params.hopSize →
      ∃ t, exec .anIngest s = .next t ∧
        (∀ j, t.stage[j]? = if j = s.ingestPtr then (s.acqBuf.get s.consIdx)[s.ingestPtr]? else s.stage[j]?) ∧
        t.ingestPtr = s.ingestPtr + 1 ∧
        t.seqPc = (if s.ingestPtr + 1 = s.cfg.params.hopSize then .compute else .ingest) ∧
        { t with stage := s.stage, ingestPtr := s.ingestPtr, seqPc := s.seqPc } = s ∧
        ∀ a, t.wave.read a = s.wave.read a) ∧
    (¬(s.mode = .run ∧ s.seqPc = .ingest) → exec .anIngest s = .refused (.notEnabled .anIngest))

/-- R91, R147 (the step form): while `OVR_READ = 0` and the consumer copies, the hardware writes the other buffer and the
cells copied so far are those of the block taken. Kept by every step. -/
def Obligations.StepKeepsTheHandoff : Prop :=
  ∀ s t : State, HandoffOk s → step s = .next t → HandoffOk t

/-- R147: in every run from power-on without RESET in which no overrun is recorded, an AN_COMPUTE after c − 1 earlier ones
analyses exactly the samples of the c-th completed block, in delivery order. -/
def Obligations.AnalysisCyclesTakeTheBlocksInOrder : Prop :=
  ∀ (cfg : Config) (wave : Memory) (ops : List Instr) (s : State),
    wave.wf → Instr.reset ∉ ops → runOps ops (State.powerOn cfg wave) = .next s →
    enabled .anCompute s = true → NoOverrun s →
    s.stage = ((deliveredSamples ops).drop (ops.count .anCompute * cfg.params.hopSize)).take cfg.params.hopSize

/-! ## Analysis (spec/41_analysis.md) -/

/-- R160, R162: AN_COMPUTE slides the window left by HOP_SIZE, appends the normalised block, and updates every bin from the
magnitudes of the new window; enabled exactly when `MODE = RUN` and `SEQ_PC = COMPUTE`. -/
def Obligations.AnComputeRunsOneAnalysisCycle : Prop :=
  ∀ s : State, Shape s →
    (s.mode = .run → s.seqPc = .compute →
      ∃ t, exec .anCompute s = .next t ∧ t.seqPc = .acquire ∧
        t.win.length = s.cfg.params.fftSize ∧
        (∀ n, n < s.cfg.params.fftSize - s.cfg.params.hopSize → t.win[n]? = s.win[n + s.cfg.params.hopSize]?) ∧
        (∀ j, j < s.cfg.params.hopSize →
          t.win[s.cfg.params.fftSize - s.cfg.params.hopSize + j]? = (s.stage[j]?).map (normalise s.cfg.params)) ∧
        (magnitudes s.cfg.params t.win).length = s.cfg.params.nBins ∧
        (∀ k : Nat, t.bins[k]? = (s.bins[k]?).map fun b =>
          binUpdate s.cfg.params b ((magnitudes s.cfg.params t.win).getD k 0#32)
            (peakTest s.cfg.params (magnitudes s.cfg.params t.win) k s.guardR.toNat)) ∧
        { t with win := s.win, bins := s.bins, seqPc := s.seqPc } = s ∧
        ∀ a, t.wave.read a = s.wave.read a) ∧
    (¬(s.mode = .run ∧ s.seqPc = .compute) → exec .anCompute s = .refused (.notEnabled .anCompute))

/-- R161: the three branches of `normalise` on `v = to_f32(raw − ADC_BIAS) / to_f32(ADC_HALF_RANGE)`, and the invariant they
make hold: a normalised sample is a number in [−1, 1], for every raw value and every configuration. -/
def Obligations.NormalisedSamplesLieInTheUnitRange : Prop :=
  ∀ (cfg : Config) (raw : Sample) (v : F32),
    v = f32Div (toF32 (raw.toInt - cfg.params.adcBias.toInt)) (toF32 cfg.params.adcHalfRange.toNat) →
    (f32Gt v f32One = true → normalise cfg.params raw = f32One) ∧
    (f32Lt v f32NegOne = true → normalise cfg.params raw = f32NegOne) ∧
    (f32Gt v f32One = false → f32Lt v f32NegOne = false → normalise cfg.params raw = v) ∧
    f32Le f32NegOne (normalise cfg.params raw) = true ∧ f32Le (normalise cfg.params raw) f32One = true

/-- R166: bit i of `bitrev_S(n)` is bit S − 1 − i of n, and the result has S bits. -/
def Obligations.BitReversalReversesTheBits : Prop :=
  ∀ S n : Nat, bitrev S n < 2 ^ S ∧ ∀ i, i < S → (bitrev S n).testBit i = n.testBit (S - 1 - i)

/-- R165 to R169, what FFT_REF computes. (P1) an all-zero input gives an all-zero output and (P2) the impulse gives (1.0, 0)
in every output, whatever the finite twiddle ROM. The transform of one sample is the sample; that of 2^(S+1) samples is, at
k and k + 2^S, the butterfly (R167) with `TW[k]` of the transforms of the even and of the odd samples, which use every
second twiddle factor. -/
def Obligations.FftOfSilenceIsSilence : Prop :=
  (∀ (tw : List Cplx) (S : Nat), (∀ t ∈ tw, f32IsFinite t.re = true ∧ f32IsFinite t.im = true) →
    fftRef tw S (List.replicate (2 ^ S) 0#32) = List.replicate (2 ^ S) Cplx.zero ∧
    fftRef tw S (f32One :: List.replicate (2 ^ S - 1) 0#32) = List.replicate (2 ^ S) ⟨f32One, 0#32⟩) ∧
  (∀ (tw : List Cplx) (y : F32), fftRef tw 0 [y] = [⟨y, 0#32⟩]) ∧
  ∀ (tw : List Cplx) (S : Nat) (y : List F32) (k : Nat) (tw' even odd : List Cplx) (e o w : Cplx) (tr ti : F32),
    y.length = 2 ^ (S + 1) → k < 2 ^ S →
    tw' = ((List.range (2 ^ S)).map fun j => tw.getD (2 * j) Cplx.zero) →
    even = fftRef tw' S ((List.range (2 ^ S)).map fun n => y.getD (2 * n) 0#32) →
    odd = fftRef tw' S ((List.range (2 ^ S)).map fun n => y.getD (2 * n + 1) 0#32) →
    even[k]? = some e → odd[k]? = some o → tw[k]? = some w →
    tr = f32Sub (f32Mul w.re o.re) (f32Mul w.im o.im) → ti = f32Add (f32Mul w.re o.im) (f32Mul w.im o.re) →
    (fftRef tw (S + 1) y)[k]? = some ⟨f32Add e.re tr, f32Add e.im ti⟩ ∧
    (fftRef tw (S + 1) y)[k + 2 ^ S]? = some ⟨f32Sub e.re tr, f32Sub e.im ti⟩

/-- R164, R169, R170: the magnitude of bin k is `f32_div(f32_sqrt(re² + im²), to_f32(N))` of output k of the engine, run on
the window multiplied by HANN element by element; "The result is ≥ +0.0 for every finite input". -/
def Obligations.MagnitudesAreNotNegative : Prop :=
  ∀ cfg : Config,
    (∀ (win : List F32) (k : Nat) (x : Cplx), k < cfg.params.nBins →
      (fftRef cfg.params.tw cfg.params.fftLog (List.zipWith f32Mul win cfg.params.hann))[k]? = some x →
      (magnitudes cfg.params win)[k]? =
        some (f32Div (f32Sqrt (f32Add (f32Mul x.re x.re) (f32Mul x.im x.im))) (toF32 cfg.params.nBins))) ∧
    ∀ x : Cplx, f32IsFinite x.re = true → f32IsFinite x.im = true →
      f32Ge (magnitude cfg.params x) 0#32 = true ∧ f32Sign (magnitude cfg.params x) = false

/-- R172: only bins with R < k < N − 1 − R can be peaks; bin 0 and bin N − 1 are never inside an eligible bin's
neighbourhood; if N − 1 − R ≤ R + 1 no bin is eligible. -/
def Obligations.EdgeBinsAreNeverInAPeaksNeighbourhood : Prop :=
  ∀ (p : Params) (mag : List F32) (k R : Nat),
    (peakTest p mag k R = true → (R : Int) < k ∧ (k : Int) < p.nBins - 1 - R ∧
      ∀ j : Int, k - R ≤ j → j ≤ k + R → j ≠ 0 ∧ j ≠ p.nBins - 1) ∧
    ((p.nBins : Int) - 1 - R ≤ R + 1 → peakTest p mag k R = false)

/-- R173: the peak test, spelled out: eligible, at least the threshold, and above every other magnitude within R. -/
def Obligations.PeakTestIsAStrictLocalMaximum : Prop :=
  ∀ (p : Params) (mag : List F32) (k R : Nat),
    peakTest p mag k R = true ↔
      0 < (k : Int) - R ∧ (k : Int) + R < p.nBins - 1 ∧ f32Ge (mag.getD k 0#32) p.peakThreshold = true ∧
        ∀ j, k - R ≤ j → j ≤ k + R → j ≠ k → f32Gt (mag.getD k 0#32) (mag.getD j 0#32) = true

/-- R174: two peaks are never closer than R + 1 bins. -/
def Obligations.PeaksAreMoreThanTheGuardRadiusApart : Prop :=
  ∀ (p : Params) (mag : List F32) (j k R : Nat),
    peakTest p mag j R = true → peakTest p mag k R = true → j < k → R + 1 ≤ k - j

/-- R175 to R178, R180, R182: the per-bin update, branch by branch; `sm` is the blend of the magnitude with the field as it
stands (R180), `v` the product with the gain clipped to 1.0; the Synthesis fields and the increment are never written. -/
def Obligations.BinUpdateFollowsTheDebounceBranches : Prop :=
  ∀ (p : Params) (b : Bin) (m sm v : F32),
    sm = f32Add (f32Mul p.blendAlpha m) (f32Mul (f32Sub f32One p.blendAlpha) b.lastMagnitude) →
    v = (if f32Gt (f32Mul sm p.outputGain) f32One then f32One else f32Mul sm p.outputGain) →
    binUpdate p b m false =
      { b with isPeak := false, envelopePhase := .sustain, stabilityCount := 0#32, gate := false,
               targetAmplitude := 0#16, lastMagnitude := m } ∧
    (binUpdate p b m true).isPeak = true ∧
    (binUpdate p b m true).envelopePhase = classify p (f32Sub m b.lastMagnitude) ∧
    (binUpdate p b m true).stabilityCount.toNat = (b.stabilityCount.toNat + 1) % 2 ^ 32 ∧
    ((b.stabilityCount.toNat + 1) % 2 ^ 32 ≤ p.stabilityCount.toNat →
      (binUpdate p b m true).gate = b.gate ∧ (binUpdate p b m true).targetAmplitude = b.targetAmplitude ∧
        (binUpdate p b m true).lastMagnitude = b.lastMagnitude) ∧
    (p.stabilityCount.toNat < (b.stabilityCount.toNat + 1) % 2 ^ 32 →
      (binUpdate p b m true).gate = true ∧
        (binUpdate p b m true).lastMagnitude = sm ∧ (binUpdate p b m true).targetAmplitude = quantise v) ∧
    (∀ peak, (binUpdate p b m peak).phaseAccumulator = b.phaseAccumulator ∧
      (binUpdate p b m peak).phaseIncrement = b.phaseIncrement ∧
      (binUpdate p b m peak).smoothedAmplitude = b.smoothedAmplitude)

/-- R185: a bin whose count is 0 and whose gate is closed before cycle 1, and that peaks on cycles 1..c, has count i after
cycle i, and its gate is open exactly from cycle STABILITY_COUNT + 1 on; a cycle without the peak clears both. -/
def Obligations.GateOpensAfterStabilityCountCycles : Prop :=
  ∀ (p : Params) (b : Bin) (mags : List F32), b.stabilityCount = 0#32 → b.gate = false → mags.length < 2 ^ 32 →
    (mags.foldl (fun b m => binUpdate p b m true) b).stabilityCount.toNat = mags.length ∧
    ((mags.foldl (fun b m => binUpdate p b m true) b).gate = true ↔ p.stabilityCount.toNat + 1 ≤ mags.length) ∧
    ∀ m, (binUpdate p (mags.foldl (fun b m => binUpdate p b m true) b) m false).stabilityCount = 0#32 ∧
      (binUpdate p (mags.foldl (fun b m => binUpdate p b m true) b) m false).gate = false

/-- R179: Attack above the threshold, Decay below its negative, Sustain otherwise, equality included. -/
def Obligations.EnvelopeFollowsTheSignOfTheDelta : Prop :=
  ∀ (cfg : Config) (d : F32),
    (classify cfg.params d = .attack ↔ f32Gt d cfg.params.envThreshold = true) ∧
    (classify cfg.params d = .decay ↔ f32Lt d (f32Neg cfg.params.envThreshold) = true) ∧
    (d = cfg.params.envThreshold ∨ d = f32Neg cfg.params.envThreshold → classify cfg.params d = .sustain)

/-- R181: the quantised target is `q = f32_mul(v, 32767.0)` rounded to the nearest integer, ties away from zero, and clamped
to i16, for every v whose q is finite (it is free beyond, log entry 9); for v in [0, 1], q is finite, the target is in
[0, 32767] and is the rounded q itself: the clamp never acts. -/
def Obligations.QuantisedTargetsOfTheUnitRange : Prop :=
  ∀ v q : F32, q = f32Mul v 0x46FFFE00#32 →
    (f32IsFinite q = true → ∃ r : Int,
      (0 ≤ f32Val q → 2 * r * unitScale ≤ 2 * f32Val q + unitScale ∧ 2 * f32Val q < 2 * r * unitScale + unitScale) ∧
      (f32Val q < 0 → 2 * f32Val q - unitScale ≤ 2 * r * unitScale ∧ 2 * r * unitScale - unitScale < 2 * f32Val q) ∧
      (quantise v).toInt = max (-32768) (min r 32767)) ∧
    (f32Le 0#32 v = true → f32Le v f32One = true →
      f32IsFinite q = true ∧ 0 ≤ (quantise v).toInt ∧ (quantise v).toInt ≤ 32767 ∧
        2 * (quantise v).toInt * unitScale ≤ 2 * f32Val q + unitScale ∧
        2 * f32Val q < 2 * (quantise v).toInt * unitScale + unitScale)

/-! ## Synthesis (spec/42_synthesis.md) -/

/-- R201 to R211: a bin is active iff its gate is open or its follower is at the audible floor or above (R202); the follower
moves by KP times its distance to the target, once a sample (R203); sample i reads the phase `ph0 + i × increment` (R208) and
the entry `(BASE + index) mod 2^27` of the bound table, index the top TBITS bits of the phase (R204; the entry's two bytes
stand low byte first, the model's byte view of R82, log entry 6); its contribution is the entry times the follower after
i + 1 steps times HEADROOM_SCALE, truncated (R205, R206). SYN_FILL writes to every mix cell the wrapped sum over the active
bins (R207); an active bin ends with the phase advanced M times and the follower after M steps (R209), an inactive one is
untouched; both channels of frame i are the limited mix (R210, R211). -/
def Obligations.SynFillMixesTheActiveBins : Prop :=
  ∀ s : State,
    let active (x : Bin) : Bool := x.gate || f32Ge x.smoothedAmplitude s.cfg.params.audibleFloor
    let follower (x : Bin) (n : Nat) : F32 :=
      (fun a => f32Add a (f32Mul (f32Sub (toF32 x.targetAmplitude.toInt) a) s.cfg.params.kp))^[n] x.smoothedAmplitude
    let phase (x : Bin) (i : Nat) : Word := x.phaseAccumulator + BitVec.ofNat 32 i * x.phaseIncrement
    let address (ph : Word) : Nat :=
      ((s.waveCfg.extractLsb' 5 27).toNat + ph.toNat / 2 ^ (32 - (s.waveCfg.extractLsb' 0 5).toNat)) % 2 ^ 27
    let entry (a : Nat) : BitVec 16 := s.wave.read (2 * a + 1) ++ s.wave.read (2 * a)
    let contributed (i : Nat) (x : Bin) : Int :=
      f32ToI32TzSat (f32Mul (f32Mul (toF32 (entry (address (phase x i))).toInt) (follower x (i + 1)))
        s.cfg.params.headroomScale)
    (∀ b, s.curBuf = some b → s.mode = .run → s.seqPc = .fill →
      ∃ t, exec .synFill s = .next t ∧ t.seqPc = .release ∧ t.mix.length = s.cfg.params.blockLen ∧
        (∀ i, i < s.cfg.params.blockLen →
          t.mix[i]? = some (BitVec.ofInt 32 ((s.bins.filter active).map (contributed i)).sum)) ∧
        (∀ k : Nat, t.bins[k]? = (s.bins[k]?).map fun x =>
          if active x then
            { x with
              phaseAccumulator := phase x s.cfg.params.blockLen
              smoothedAmplitude := follower x s.cfg.params.blockLen }
          else x) ∧
        (t.pbuf.get b).length = 2 * s.cfg.params.blockLen ∧
        (∀ i, i < s.cfg.params.blockLen →
          (t.pbuf.get b)[2 * i]? = (t.mix[i]?).map limit ∧ (t.pbuf.get b)[2 * i + 1]? = (t.mix[i]?).map limit) ∧
        (∀ c, c ≠ b → t.pbuf.get c = s.pbuf.get c) ∧
        { t with mix := s.mix, bins := s.bins, pbuf := s.pbuf, seqPc := s.seqPc } = s ∧
        ∀ a, t.wave.read a = s.wave.read a) ∧
    (¬(s.mode = .run ∧ s.seqPc = .fill) → exec .synFill s = .refused (.notEnabled .synFill))

/-- R201: "The order of the bin loop is unobservable": any order of the bins gives the same mix. -/
def Obligations.BinOrderDoesNotChangeTheMix : Prop :=
  ∀ (p : Params) (wave : Memory) (base : BitVec 27) (tb : Nat) (bins bins' : List Bin) (mix : List Word),
    bins.Perm bins' → (synBins p wave base tb bins mix).2 = (synBins p wave base tb bins' mix).2

/-- R204, R214: the table index is the top TBITS bits of the phase, and always inside the table. -/
def Obligations.TableIndexStaysInsideTheTable : Prop :=
  ∀ (ph : Word) (tb : Nat), tb ≤ 27 →
    tableIndex ph tb < 2 ^ tb ∧
    ∀ i, i < tb → (tableIndex ph tb).testBit i = ph.getLsbD (32 - tb + i)

/-- R210: the limiter is the hard clamp to [−32768, 32767], and monotonic. -/
def Obligations.LimiterClampsAndIsMonotonic : Prop :=
  (∀ v : Word, (limit v).toInt = max (-32768) (min v.toInt 32767)) ∧
  ∀ u v : Word, u.toInt ≤ v.toInt → (limit u).toInt ≤ (limit v).toInt

/-- R215: with all gates closed and every follower below the audible floor, one synthesis cycle produces an all-zero block
and changes no bin. -/
def Obligations.SilenceGivesAnAllZeroBlock : Prop :=
  ∀ (s : State) (b : BufId), s.mode = .run → s.seqPc = .fill → s.curBuf = some b →
    (∀ x ∈ s.bins, x.gate = false ∧ f32Lt x.smoothedAmplitude s.cfg.params.audibleFloor = true) →
    ∃ t, exec .synFill s = .next t ∧ t.bins = s.bins ∧
      t.mix = List.replicate s.cfg.params.blockLen 0#32 ∧
      t.pbuf.get b = List.replicate (2 * s.cfg.params.blockLen) 0#16

/-! ## Pool (spec/43_pool_output.md) -/

/-- R231: POOL_ACQUIRE takes the FREE buffer of least index, or, when none is FREE, skips the cycle's production (R235),
changing only `SEQ_PC` and `CUR_BUF`. -/
def Obligations.PoolAcquireTakesTheLeastFreeBuffer : Prop :=
  ∀ s : State,
    (s.mode = .run → s.seqPc = .acquire →
      (∀ b, s.pstate.get b = .free → (∀ c, c < b → s.pstate.get c ≠ .free) →
        ∃ t, exec .poolAcquire s = .next t ∧ t.curBuf = some b ∧ t.seqPc = .fill ∧
          (∀ c, t.pstate.get c = if c = b then .filling else s.pstate.get c) ∧
          { t with pstate := s.pstate, curBuf := s.curBuf, seqPc := s.seqPc } = s ∧
          ∀ a, t.wave.read a = s.wave.read a) ∧
      ((∀ b, s.pstate.get b ≠ .free) →
        exec .poolAcquire s = .next { s with curBuf := none, seqPc := .check })) ∧
    (¬(s.mode = .run ∧ s.seqPc = .acquire) → exec .poolAcquire s = .refused (.notEnabled .poolAcquire))

/-- R232: POOL_RELEASE appends the filled buffer to the queue; enabled exactly when `MODE = RUN` and `SEQ_PC = RELEASE`. -/
def Obligations.PoolReleaseQueuesTheFilledBuffer : Prop :=
  ∀ (s : State) (b : BufId), s.curBuf = some b →
    (s.mode = .run → s.seqPc = .release →
      ∃ t, exec .poolRelease s = .next t ∧ t.queue = s.queue ++ [b] ∧ t.curBuf = none ∧ t.seqPc = .check ∧
        (∀ c, t.pstate.get c = if c = b then .queued else s.pstate.get c) ∧
        { t with pstate := s.pstate, queue := s.queue, curBuf := s.curBuf, seqPc := s.seqPc } = s ∧
        ∀ a, t.wave.read a = s.wave.read a) ∧
    (¬(s.mode = .run ∧ s.seqPc = .release) → exec .poolRelease s = .refused (.notEnabled .poolRelease))

/-- R233: OUT_TAKE starts playing the head of the queue; enabled exactly when `MODE = RUN`, nothing plays and the queue is
not empty. -/
def Obligations.OutTakePlaysTheOldestQueuedBuffer : Prop :=
  ∀ s : State,
    (∀ b rest, s.mode = .run → s.playing = none → s.queue = b :: rest →
      ∃ t, exec .outTake s = .next t ∧ t.queue = rest ∧ t.playing = some b ∧
        (∀ c, t.pstate.get c = if c = b then .playing else s.pstate.get c) ∧
        { t with pstate := s.pstate, queue := s.queue, playing := s.playing } = s ∧
        ∀ a, t.wave.read a = s.wave.read a) ∧
    (¬(s.mode = .run ∧ s.playing = none ∧ s.queue ≠ []) → exec .outTake s = .refused (.notEnabled .outTake))

/-- R234: OUT_DONE appends the playing buffer's words to OUT_LOG and frees it; enabled exactly when `MODE = RUN` and a
buffer is playing. -/
def Obligations.OutDoneLogsAndFreesThePlayingBuffer : Prop :=
  ∀ s : State,
    (∀ b, s.mode = .run → s.playing = some b →
      ∃ t, exec .outDone s = .next t ∧ t.outLog = s.outLog ++ [s.pbuf.get b] ∧ t.playing = none ∧
        (∀ c, t.pstate.get c = if c = b then .free else s.pstate.get c) ∧
        { t with pstate := s.pstate, outLog := s.outLog, playing := s.playing } = s ∧
        ∀ a, t.wave.read a = s.wave.read a) ∧
    (¬(s.mode = .run ∧ s.playing ≠ none) → exec .outDone s = .refused (.notEnabled .outDone))

/-- R53: the pool invariants, in every reachable state. -/
def Obligations.PoolInvariantsHoldInEveryReachableState : Prop :=
  ∀ s : State, Reachable s →
    s.queue.Nodup ∧ (∀ b, b ∈ s.queue ↔ s.pstate.get b = .queued) ∧
    (∀ b, s.playing = some b ↔ s.pstate.get b = .playing) ∧
    (∀ b c, s.pstate.get b = .playing → s.pstate.get c = .playing → b = c) ∧
    (∀ b c, s.pstate.get b = .filling → s.pstate.get c = .filling → b = c) ∧
    ((s.seqPc = .fill ∨ s.seqPc = .release) → ∃ b, s.curBuf = some b ∧ s.pstate.get b = .filling) ∧
    (¬(s.seqPc = .fill ∨ s.seqPc = .release) → s.curBuf = none ∧ ∀ b, s.pstate.get b ≠ .filling)

/-- R236 (first half): from a reachable state with all three buffers FREE, and without an OUT_DONE or a RESET, the first
three POOL_ACQUIRE operations obtain buffers 0, 1 and 2 and every later one obtains none. -/
def Obligations.ThreeAcquiresSucceedAndTheFourthFails : Prop :=
  ∀ (s : State) (ops : List Instr) (t u : State), Reachable s → (∀ b, s.pstate.get b = .free) →
    Instr.outDone ∉ ops → Instr.reset ∉ ops → runOps ops s = .next t → exec .poolAcquire t = .next u →
    u.curBuf = [some 0, some 1, some 2].getD (ops.count .poolAcquire) none

/-- R236 (second half): in every run from power-on without RESET, with s acquires granted and d OUT_DONE steps,
d ≤ s ≤ d + 3. -/
def Obligations.ProductionRunsAtMostThreeBlocksAhead : Prop :=
  ∀ (cfg : Config) (wave : Memory) (ops : List Instr) (t : State), wave.wf → Instr.reset ∉ ops →
    runOps ops (State.powerOn cfg wave) = .next t →
    ops.count .outDone ≤ grantedAcquires ops (State.powerOn cfg wave) ∧
      grantedAcquires ops (State.powerOn cfg wave) ≤ ops.count .outDone + 3

/-! ## Control (spec/44_control.md) -/

/-- R251, R252, R171: INIT with `OK = 1` fixes every increment and the guard radius and starts the loop; with `OK = 0` it
only halts the block. The guard radius is stated where it is a u32 (it is free beyond, log entry 10). -/
def Obligations.InitFixesTheIncrementsAndTheGuardRadius : Prop :=
  ∀ s : State,
    (s.mode = .init → s.seqPc = .init →
      (∃ t, exec (.init true) s = .next t ∧ t.mode = .run ∧ t.seqPc = .check ∧
        (∀ k : Nat, t.bins[k]? = (s.bins[k]?).map fun b =>
          { b with
            phaseIncrement := (BitVec.ofNat 32
              (roundHalfAway (k * s.cfg.params.inRate * 2 ^ 32) (s.cfg.params.fftSize * s.cfg.params.outRate))) }) ∧
        (max 1 (roundHalfAway (s.cfg.params.minFreqSep.toNat * s.cfg.params.fftSize) s.cfg.params.inRate) < 2 ^ 32 →
          t.guardR.toNat =
            max 1 (roundHalfAway (s.cfg.params.minFreqSep.toNat * s.cfg.params.fftSize) s.cfg.params.inRate)) ∧
        { t with bins := s.bins, guardR := s.guardR, mode := s.mode, seqPc := s.seqPc } = s ∧
        ∀ a, t.wave.read a = s.wave.read a) ∧
      exec (.init false) s = .next { s with mode := .halted }) ∧
    (¬(s.mode = .init ∧ s.seqPc = .init) → ∀ ok, exec (.init ok) s = .refused (.notEnabled (.init ok)))

/-- R254, R310: RESET, in every state, gives every element with a specified reset value that value, and keeps OUT_LOG, the
configuration and the waveform memory. -/
def Obligations.ResetRestoresTheResetValues : Prop :=
  ∀ s : State, ∃ t, exec .reset s = .next t ∧
    t.seqPc = .init ∧ t.mode = .init ∧ t.active = 0 ∧ t.wptr = 0 ∧ t.ready = false ∧ t.ovrRead = false ∧
    t.ovrDrop = false ∧ t.ingestPtr = 0 ∧ t.consIdx = 0 ∧ t.curBuf = none ∧
    t.win = List.replicate s.cfg.params.fftSize 0#32 ∧ t.guardR = 0#32 ∧ t.bins.length = s.cfg.params.nBins ∧
    (∀ b ∈ t.bins, b = { gate := false, phaseAccumulator := 0#32, phaseIncrement := 0#32, targetAmplitude := 0#16,
                         smoothedAmplitude := 0#32, lastMagnitude := 0#32, isPeak := false,
                         envelopePhase := .sustain, stabilityCount := 0#32 }) ∧
    (∀ b, t.pstate.get b = .free) ∧ t.queue = [] ∧ t.playing = none ∧ t.waveCfg = s.cfg.params.waveCfgReset ∧
    t.outLog = s.outLog ∧ t.cfg = s.cfg ∧ (∀ a, t.wave.read a = s.wave.read a) ∧
    statusWord t = 0x00000000#32 ∧ poolStateWord t = 0x00000CC0#32

/-- R57, R255: a CSR_READ of each register but the two views returns its value to the host, unmapped offsets return 0, and
nothing else changes. (Rates and lengths show their low 32 bits, log entry 14; the value returned is appended to the
model's own `hostOut`, log entry 11.) -/
def Obligations.CsrReadReturnsTheRegister : Prop :=
  ∀ s : State,
    (∀ row ∈ ([(0x04#8, s.waveCfg), (0x08#8, s.guardR),
        (0x10#8, BitVec.ofNat 32 s.cfg.params.fftSize), (0x14#8, BitVec.ofNat 32 s.cfg.params.hopSize),
        (0x18#8, BitVec.ofNat 32 s.cfg.params.nBins), (0x1C#8, BitVec.ofNat 32 s.cfg.params.blockLen),
        (0x20#8, 3#32), (0x24#8, s.cfg.params.stabilityCount), (0x28#8, BitVec.ofNat 32 s.cfg.params.inRate),
        (0x2C#8, BitVec.ofNat 32 s.cfg.params.outRate), (0x30#8, s.cfg.params.minFreqSep),
        (0x34#8, s.cfg.params.adcBias), (0x38#8, s.cfg.params.adcHalfRange), (0x3C#8, s.cfg.params.peakThreshold),
        (0x40#8, s.cfg.params.envThreshold), (0x44#8, s.cfg.params.kp), (0x48#8, s.cfg.params.outputGain),
        (0x4C#8, s.cfg.params.blendAlpha), (0x50#8, s.cfg.params.audibleFloor),
        (0x54#8, s.cfg.params.headroomScale)] : List (BitVec 8 × Word)),
      exec (.csrRead row.1) s = .next { s with hostOut := s.hostOut ++ [row.2] }) ∧
    (∀ off : BitVec 8, offsetAligned off = true → 0x58 ≤ off.toNat →
      exec (.csrRead off) s = .next { s with hostOut := s.hostOut ++ [0#32] })

/-- R31, R32, R42, R50, R52, R57: the fields of the two views, STATUS at 0x00 and POOL_STATE at 0x0C, as CSR_READ returns
them, with the number of every code. (The value returned is appended to the model's own `hostOut`, log entry 11.) -/
def Obligations.StatusAndPoolStateShowTheirFields : Prop :=
  ∀ s : State,
    (∃ v : Word, exec (.csrRead 0x00#8) s = .next { s with hostOut := s.hostOut ++ [v] } ∧
      v.getLsbD 0 = s.ready ∧ (v.extractLsb' 1 1).toNat = s.active.val ∧ v.getLsbD 2 = s.ovrRead ∧
      v.getLsbD 3 = s.ovrDrop ∧
      (v.extractLsb' 4 2).toNat = (match s.mode with | .init => 0 | .run => 1 | .halted => 2) ∧
      (v.extractLsb' 6 3).toNat = (match s.seqPc with
        | .init => 0 | .check => 1 | .ingest => 2 | .compute => 3 | .acquire => 4 | .fill => 5 | .release => 6) ∧
      v.extractLsb' 9 23 = 0#23) ∧
    (s.queue.length < 4 →
      ∃ v : Word, exec (.csrRead 0x0C#8) s = .next { s with hostOut := s.hostOut ++ [v] } ∧
      (∀ b : BufId, (v.extractLsb' (2 * b.val) 2).toNat =
        (match s.pstate.get b with | .free => 0 | .filling => 1 | .queued => 2 | .playing => 3)) ∧
      (v.extractLsb' 6 2).toNat = (match s.playing with | some b => b.val | none => 3) ∧
      (v.extractLsb' 8 2).toNat = s.queue.length ∧
      (v.extractLsb' 10 2).toNat = (match s.curBuf with | some b => b.val | none => 3) ∧
      v.extractLsb' 12 20 = 0#20)

/-- R58, R59, R256: CSR_WRITE writes WAVE_CFG when the offset is 0x04 and TBITS is 0..27, and otherwise changes nothing; at
an offset that is no multiple of 4 an access spells no operation and is refused (R84). -/
def Obligations.CsrWriteBindsOnlyALegalWaveform : Prop :=
  ∀ (s : State) (off : BitVec 8) (data : Word),
    (off = 0x04#8 → (data.extractLsb' 0 5).toNat ≤ 27 → exec (.csrWrite off data) s = .next { s with waveCfg := data }) ∧
    (off.toNat % 4 = 0 → ¬(off = 0x04#8 ∧ (data.extractLsb' 0 5).toNat ≤ 27) → exec (.csrWrite off data) s = .next s) ∧
    (off.toNat % 4 ≠ 0 →
      exec (.csrRead off) s = .refused (.misalignedOffset off) ∧
        exec (.csrWrite off data) s = .refused (.misalignedOffset off))

/-- R260: the successors of each SEQ operation in the microprogram. -/
def Obligations.MicroprogramSuccessors : Prop :=
  ∀ s t : State,
    (exec .seqCheck s = .next t → t.seqPc = if s.ready then .ingest else .acquire) ∧
    (exec .anIngest s = .next t →
      t.seqPc = if s.ingestPtr + 1 = s.cfg.params.hopSize then .compute else .ingest) ∧
    (exec .anCompute s = .next t → t.seqPc = .acquire) ∧
    (exec .poolAcquire s = .next t → t.seqPc = if ∃ b, s.pstate.get b = .free then .fill else .check) ∧
    (exec .synFill s = .next t → t.seqPc = .release) ∧
    (exec .poolRelease s = .next t → t.seqPc = .check) ∧
    (exec (.init true) s = .next t → t.seqPc = .check ∧ t.mode = .run) ∧
    (exec (.init false) s = .next t → t.seqPc = .init ∧ t.mode = .halted) ∧
    ∀ i, i.agent ≠ .seq → i ≠ .reset → exec i s = .next t → t.seqPc = s.seqPc

/-- R250, R311, R312: after power-on only INIT and the HOST operations are enabled; STATUS, POOL_STATE, GUARD_R and WAVE_CFG
have their reset values and OUT_LOG is empty. -/
def Obligations.PowerOnEnablesOnlyInitAndTheHost : Prop :=
  ∀ (cfg : Config) (wave : Memory),
    statusWord (State.powerOn cfg wave) = 0x00000000#32 ∧ poolStateWord (State.powerOn cfg wave) = 0x00000CC0#32 ∧
    (State.powerOn cfg wave).guardR = 0#32 ∧ (State.powerOn cfg wave).waveCfg = cfg.params.waveCfgReset ∧
    (State.powerOn cfg wave).outLog = [] ∧
    ∀ i : Instr, enabled i (State.powerOn cfg wave) = true ↔ i.agent = .host ∨ ∃ ok, i = .init ok

/-- R253: in HALTED exactly the HOST operations are enabled, and none but RESET leaves it. -/
def Obligations.HaltedIsLeftOnlyByReset : Prop :=
  ∀ (s : State) (i : Instr), s.mode = .halted →
    (i.agent ≠ .host → exec i s = .refused (.notEnabled i)) ∧
    (i.agent = .host → i.wf = true → ∃ t, exec i s = .next t ∧ (i ≠ .reset → t.mode = .halted))

/-! ## The whole machine -/

/-- R9, R280: an operation that is not enabled is refused, and, in a reachable state, one that is enabled produces a next
state, and no step faults. -/
def Obligations.EnabledOperationsProduceANextState : Prop :=
  ∀ s : State, Reachable s →
    (∀ i : Instr, i.wf = true →
      (enabled i s = true → ∃ t, exec i s = .next t) ∧
      (enabled i s = false → exec i s = .refused (.notEnabled i))) ∧
    ∀ f, step s ≠ .fault f

/-- R31, R261 (a), R285: in RUN exactly one SEQ operation is enabled, and at most one kind of operation of ACQ and of OUT. -/
def Obligations.OneOperationOfEachAgentIsEnabled : Prop :=
  ∀ s : State, ModeOk s → s.mode = .run →
    (∃ i : Instr, i.agent = .seq ∧ enabled i s = true ∧
      ∀ j : Instr, j.agent = .seq → enabled j s = true → j = i) ∧
    (∀ v, ¬(enabled (.acqSample v) s = true ∧ enabled .acqDone s = true)) ∧
    ¬(enabled .outTake s = true ∧ enabled .outDone s = true)

/-- R31 to R44, R48 to R52, R54, R56, R317: who may change each state element but the bins (those: EachBinFieldHasOneWriter)
and, of the sticky bits and READY, who sets and who clears it. -/
def Obligations.EveryControlElementHasItsWriters : Prop :=
  ∀ (i : Instr) (s t : State), exec i s = .next t →
    (t.mode ≠ s.mode → i = .reset ∨ ∃ ok, i = .init ok) ∧
    (t.seqPc ≠ s.seqPc → i = .reset ∨ i.agent = .seq) ∧
    (s.ready = false → t.ready = true → i = .acqDone) ∧
    (s.ready = true → t.ready = false → i = .seqCheck ∨ i = .reset) ∧
    (s.ovrRead = false → t.ovrRead = true → i = .acqDone) ∧
    (s.ovrRead = true → t.ovrRead = false → i = .reset) ∧
    (s.ovrDrop = false → t.ovrDrop = true → i = .acqDone) ∧
    (s.ovrDrop = true → t.ovrDrop = false → i = .reset) ∧
    (t.acqBuf ≠ s.acqBuf → i = .reset ∨ ∃ v, i = .acqSample v) ∧
    (t.active ≠ s.active → i = .reset ∨ i = .acqDone) ∧
    (t.wptr ≠ s.wptr → i = .reset ∨ i = .acqDone ∨ ∃ v, i = .acqSample v) ∧
    (t.ingestPtr ≠ s.ingestPtr → i = .reset ∨ i = .seqCheck ∨ i = .anIngest) ∧
    (t.consIdx ≠ s.consIdx → i = .reset ∨ i = .seqCheck) ∧
    (t.stage ≠ s.stage → i = .reset ∨ i = .anIngest) ∧
    (t.curBuf ≠ s.curBuf → i = .reset ∨ i = .poolAcquire ∨ i = .poolRelease) ∧
    (t.win ≠ s.win → i = .reset ∨ i = .anCompute) ∧
    (t.guardR ≠ s.guardR → i = .reset ∨ ∃ ok, i = .init ok) ∧
    (t.mix ≠ s.mix → i = .reset ∨ i = .synFill) ∧
    (t.pbuf ≠ s.pbuf → i = .reset ∨ i = .synFill) ∧
    (t.pstate ≠ s.pstate → i = .reset ∨ i = .poolAcquire ∨ i = .poolRelease ∨ i = .outTake ∨ i = .outDone) ∧
    (t.queue ≠ s.queue → i = .reset ∨ i = .poolRelease ∨ i = .outTake) ∧
    (t.playing ≠ s.playing → i = .reset ∨ i = .outTake ∨ i = .outDone) ∧
    (t.waveCfg ≠ s.waveCfg → i = .reset ∨ ∃ data, i = .csrWrite 0x04#8 data) ∧
    (t.outLog ≠ s.outLog → i = .outDone)

/-- R46: in RUN each field of a bin but `phase_increment` is written by one engine only: AN_COMPUTE writes the Analysis
fields, SYN_FILL the Synthesis fields, no other operation but RESET any. -/
def Obligations.EachBinFieldHasOneWriter : Prop :=
  ∀ s t : State,
    (exec .anCompute s = .next t → ∀ (k : Nat) (b c : Bin), s.bins[k]? = some b → t.bins[k]? = some c →
      c.phaseAccumulator = b.phaseAccumulator ∧ c.phaseIncrement = b.phaseIncrement ∧
        c.smoothedAmplitude = b.smoothedAmplitude) ∧
    (exec .synFill s = .next t → ∀ (k : Nat) (b c : Bin), s.bins[k]? = some b → t.bins[k]? = some c →
      c.gate = b.gate ∧ c.phaseIncrement = b.phaseIncrement ∧ c.targetAmplitude = b.targetAmplitude ∧
        c.lastMagnitude = b.lastMagnitude ∧ c.isPeak = b.isPeak ∧ c.envelopePhase = b.envelopePhase ∧
        c.stabilityCount = b.stabilityCount) ∧
    (s.mode = .run → ∀ i, i ≠ .anCompute → i ≠ .synFill → i ≠ .reset → exec i s = .next t → t.bins = s.bins)

/-- R55, R82, R96: no step writes the configuration or a byte of the waveform memory. -/
def Obligations.NoStepWritesTheConfigurationOrTheWaveforms : Prop :=
  ∀ s t : State, step s = .next t → t.cfg = s.cfg ∧ ∀ a, t.wave.read a = s.wave.read a

/-- R311: power-on, for every configuration and every waveform memory in canonical form, meets the invariant; so does the
model's reset state (its configuration is the model's choice, log entry 3). -/
def Obligations.PowerOnMeetsTheInvariant : Prop :=
  (∀ (cfg : Config) (wave : Memory), wave.wf → Inv (State.powerOn cfg wave)) ∧ Inv State.reset

/-- R47, R53, R145, R204 and the lengths of every array: the invariant of the block is kept by every step. -/
def Obligations.StepKeepsTheInvariant : Prop :=
  ∀ s t : State, Inv s → step s = .next t → Inv t

/-- R47: in every reachable state a closed gate has target amplitude 0. -/
def Obligations.ClosedGatesHaveTargetZero : Prop :=
  ∀ s : State, Reachable s → ∀ b ∈ s.bins, b.gate = false → b.targetAmplitude = 0#16

/-- R261 (d), R260: the loop comes back to SEQ_CHECK: in RUN, without RESET, any HOP_SIZE + 5 operations of SEQ contain a
SEQ_CHECK, whatever the other agents do in between. (Under fairness SEQ takes infinitely many steps, R323, and so infinitely
many SEQ_CHECK steps: this is the finite form of R261 (d), log entry 17.) -/
def Obligations.SeqCheckIsTakenInEveryLoop : Prop :=
  ∀ (s t : State) (ops : List Instr), Inv s → s.mode = .run → Instr.reset ∉ ops → runOps ops s = .next t →
    s.cfg.params.hopSize + 5 ≤ ops.countP (fun i => decide (i.agent = .seq)) → Instr.seqCheck ∈ ops

/-! ## binary32 (spec/00_scope.md R14, R15) -/

/-- R14: the sum of finite operands is rounded once, to nearest with ties to even: no finite binary32 is closer, and where
another is as close the result's last bit is 0; it is infinite exactly from the rounding boundary past the largest finite.
It has the sign of the exact sum, and an exact zero is −0.0 only for two negative zeros. A difference is the sum with the
second operand's sign flipped (`f32_neg`). -/
def Obligations.AdditionIsCorrectlyRounded : Prop :=
  (∀ a b : F32, f32Neg b = b ^^^ 0x80000000#32 ∧ f32Sub a b = f32Add a (b ^^^ 0x80000000#32)) ∧
  ∀ a b : F32, f32IsFinite a = true → f32IsFinite b = true →
    f32IsNaN (f32Add a b) = false ∧
    f32Sign (f32Add a b) =
      (if f32Val a + f32Val b = 0 then f32Sign a && f32Sign b else decide (f32Val a + f32Val b < 0)) ∧
    (f32IsInf (f32Add a b) = true ↔ (2 ^ 25 - 1) * 2 ^ 252 ≤ (f32Val a + f32Val b).natAbs) ∧
    (f32IsFinite (f32Add a b) = true → ∀ y : F32, f32IsFinite y = true →
      |f32Val (f32Add a b) - (f32Val a + f32Val b)| ≤ |f32Val y - (f32Val a + f32Val b)| ∧
      (|f32Val (f32Add a b) - (f32Val a + f32Val b)| = |f32Val y - (f32Val a + f32Val b)| →
        f32Val y ≠ f32Val (f32Add a b) → (f32Add a b).getLsbD 0 = false))

/-- R14: the product of finite operands is rounded once, to nearest with ties to even (in units of 2^-149 × 2^-149), and is
infinite exactly from the rounding boundary; its sign, a zero's and an infinity's too, is that of the operands' signs. -/
def Obligations.MultiplicationIsCorrectlyRounded : Prop :=
  ∀ a b : F32, f32IsFinite a = true → f32IsFinite b = true →
    f32IsNaN (f32Mul a b) = false ∧ f32Sign (f32Mul a b) = (f32Sign a != f32Sign b) ∧
    (f32IsInf (f32Mul a b) = true ↔ (2 ^ 25 - 1) * 2 ^ 252 * unitScale ≤ (f32Val a * f32Val b).natAbs) ∧
    (f32IsFinite (f32Mul a b) = true → ∀ y : F32, f32IsFinite y = true →
      |f32Val (f32Mul a b) * unitScale - f32Val a * f32Val b| ≤ |f32Val y * unitScale - f32Val a * f32Val b| ∧
      (|f32Val (f32Mul a b) * unitScale - f32Val a * f32Val b| = |f32Val y * unitScale - f32Val a * f32Val b| →
        f32Val y ≠ f32Val (f32Mul a b) → (f32Mul a b).getLsbD 0 = false))

/-- R14: the quotient of finite operands, the divisor not zero, is rounded once, to nearest with ties to even: no finite
binary32 is closer to the exact quotient, and where another is as close the result's last bit is 0; it is infinite exactly
from the rounding boundary past the largest finite. (Distances are compared multiplied by the divisor.) -/
def Obligations.DivisionIsCorrectlyRounded : Prop :=
  ∀ a b : F32, f32IsFinite a = true → f32IsFinite b = true → f32Val b ≠ 0 →
    f32IsNaN (f32Div a b) = false ∧ f32Sign (f32Div a b) = (f32Sign a != f32Sign b) ∧
    (f32IsInf (f32Div a b) = true ↔
      (2 ^ 25 - 1) * 2 ^ 252 * (f32Val b).natAbs ≤ (f32Val a).natAbs * unitScale) ∧
    (f32IsFinite (f32Div a b) = true → ∀ y : F32, f32IsFinite y = true →
      |f32Val (f32Div a b) * f32Val b - f32Val a * unitScale| ≤ |f32Val y * f32Val b - f32Val a * unitScale| ∧
      (|f32Val (f32Div a b) * f32Val b - f32Val a * unitScale| = |f32Val y * f32Val b - f32Val a * unitScale| →
        f32Val y ≠ f32Val (f32Div a b) → (f32Div a b).getLsbD 0 = false))

/-- R14: the root of a finite operand that is not negative is the nearest binary32: no finite binary32 below or above it is
closer to the exact root (compared through the squares of the midpoints). -/
def Obligations.SquareRootIsCorrectlyRounded : Prop :=
  ∀ a : F32, f32IsFinite a = true → f32Sign a = false →
    f32IsFinite (f32Sqrt a) = true ∧ f32Sign (f32Sqrt a) = false ∧
    ∀ y : F32, f32IsFinite y = true →
      (f32Mag y < f32Mag (f32Sqrt a) →
        (f32Mag y + f32Mag (f32Sqrt a)) ^ 2 ≤ 4 * (f32Mag a * unitScale)) ∧
      (f32Mag (f32Sqrt a) < f32Mag y →
        4 * (f32Mag a * unitScale) ≤ (f32Mag y + f32Mag (f32Sqrt a)) ^ 2)

/-- R14: an integer converts to a nearest binary32, ties to even, and one up to 2^24 in magnitude exactly; the ordered comparisons of two numbers are those of their
values, the infinities beyond every finite value, and they are false with a NaN. -/
def Obligations.SmallIntegersConvertExactlyAndNaNsCompareFalse : Prop :=
  (∀ i : Int, |i| ≤ 2 ^ 24 → f32IsFinite (toF32 i) = true ∧ f32Val (toF32 i) = i * unitScale) ∧
  (∀ (i : Int) (y : F32), |i| ≤ 2 ^ 127 → f32IsFinite y = true →
    f32IsFinite (toF32 i) = true ∧ |f32Val (toF32 i) - i * unitScale| ≤ |f32Val y - i * unitScale| ∧
      (|f32Val (toF32 i) - i * unitScale| = |f32Val y - i * unitScale| → f32Val y ≠ f32Val (toF32 i) →
        (toF32 i).getLsbD 0 = false)) ∧
  (∀ a b : F32, f32IsNaN a = true ∨ f32IsNaN b = true →
    f32Lt a b = false ∧ f32Le a b = false ∧ f32Gt a b = false ∧ f32Ge a b = false) ∧
  (∀ a b : F32, f32IsNaN a = false → f32IsNaN b = false →
    (f32Lt a b = true ↔ f32Val a < f32Val b) ∧ (f32Le a b = true ↔ f32Val a ≤ f32Val b) ∧
    (f32Gt a b = true ↔ f32Val b < f32Val a) ∧ (f32Ge a b = true ↔ f32Val b ≤ f32Val a)) ∧
  ∀ a b : F32, f32IsFinite a = true → f32IsInf b = true →
    f32Lt a b = !f32Sign b ∧ f32Gt a b = f32Sign b

/-- R15: `f32_to_i32_tz_sat` of a number truncates toward zero and saturates to i32; `round_half_away` of a non-negative
rational is the nearest integer, ties away from zero. (The infinities saturate: log entry 9.) -/
def Obligations.ConversionsTruncateSaturateAndRound : Prop :=
  (∀ x : F32, f32IsNaN x = false →
    (f32Val x ≤ -(2 ^ 31) * unitScale → f32ToI32TzSat x = -(2 ^ 31)) ∧
    (2 ^ 31 * unitScale ≤ f32Val x → f32ToI32TzSat x = 2 ^ 31 - 1) ∧
    (-(2 ^ 31) * unitScale < f32Val x → f32Val x < 2 ^ 31 * unitScale →
      f32ToI32TzSat x = (f32Val x).tdiv unitScale)) ∧
  ∀ num den : Nat, 0 < den →
    2 * (roundHalfAway num den * den) ≤ 2 * num + den ∧ 2 * num < 2 * (roundHalfAway num den * den) + den
end

