-- ==== Sys2Proof/Laws/State.lean ====
section
/-!
SUPPORT. One lemma per field for each named update of the state (power-on, reset, emit, a fetched line), true by rfl,
so that no later proof unfolds a record update.
-/

namespace Sys2Proof.Machine

variable (cfg : Config) (wave : Memory) (s : State) (v : Word) (nbits w : Nat)

/-! ## Power-on (R310, R311) -/

@[simp] theorem State.powerOn_cfg : (State.powerOn cfg wave).cfg = cfg := rfl

@[simp] theorem State.powerOn_wave : (State.powerOn cfg wave).wave = wave := rfl

@[simp] theorem State.powerOn_seqPc : (State.powerOn cfg wave).seqPc = .init := rfl

@[simp] theorem State.powerOn_mode : (State.powerOn cfg wave).mode = .init := rfl

@[simp] theorem State.powerOn_acqBuf : (State.powerOn cfg wave).acqBuf = ⟨List.replicate cfg.params.hopSize 0#16, List.replicate cfg.params.hopSize 0#16⟩ := rfl

@[simp] theorem State.powerOn_active : (State.powerOn cfg wave).active = 0 := rfl

@[simp] theorem State.powerOn_wptr : (State.powerOn cfg wave).wptr = 0 := rfl

@[simp] theorem State.powerOn_ready : (State.powerOn cfg wave).ready = false := rfl

@[simp] theorem State.powerOn_ovrRead : (State.powerOn cfg wave).ovrRead = false := rfl

@[simp] theorem State.powerOn_ovrDrop : (State.powerOn cfg wave).ovrDrop = false := rfl

@[simp] theorem State.powerOn_ingestPtr : (State.powerOn cfg wave).ingestPtr = 0 := rfl

@[simp] theorem State.powerOn_consIdx : (State.powerOn cfg wave).consIdx = 0 := rfl

@[simp] theorem State.powerOn_stage : (State.powerOn cfg wave).stage = List.replicate cfg.params.hopSize 0#16 := rfl

@[simp] theorem State.powerOn_curBuf : (State.powerOn cfg wave).curBuf = none := rfl

@[simp] theorem State.powerOn_win : (State.powerOn cfg wave).win = List.replicate cfg.params.fftSize 0#32 := rfl

@[simp] theorem State.powerOn_guardR : (State.powerOn cfg wave).guardR = 0#32 := rfl

@[simp] theorem State.powerOn_bins : (State.powerOn cfg wave).bins = List.replicate cfg.params.nBins Bin.reset := rfl

@[simp] theorem State.powerOn_mix : (State.powerOn cfg wave).mix = List.replicate cfg.params.blockLen 0#32 := rfl

@[simp] theorem State.powerOn_pbuf_get (b : BufId) :
    (State.powerOn cfg wave).pbuf.get b = List.replicate (2 * cfg.params.blockLen) 0#16 := by
  match b with
  | 0 => rfl
  | 1 => rfl
  | 2 => rfl

@[simp] theorem State.powerOn_pstate : (State.powerOn cfg wave).pstate = ⟨.free, .free, .free⟩ := rfl

@[simp] theorem State.powerOn_queue : (State.powerOn cfg wave).queue = [] := rfl

@[simp] theorem State.powerOn_playing : (State.powerOn cfg wave).playing = none := rfl

@[simp] theorem State.powerOn_waveCfg : (State.powerOn cfg wave).waveCfg = cfg.params.waveCfgReset := rfl

@[simp] theorem State.powerOn_outLog : (State.powerOn cfg wave).outLog = [] := rfl

@[simp] theorem State.powerOn_hostOut : (State.powerOn cfg wave).hostOut = [] := rfl

@[simp] theorem State.powerOn_hostIn : (State.powerOn cfg wave).hostIn = [] := rfl

@[simp] theorem State.powerOn_sched : (State.powerOn cfg wave).sched = [] := rfl

/-! ## RESET (R254, R310) -/

@[simp] theorem resetState_cfg : (resetState s).cfg = s.cfg := rfl

@[simp] theorem resetState_wave : (resetState s).wave = s.wave := rfl

@[simp] theorem resetState_seqPc : (resetState s).seqPc = .init := rfl

@[simp] theorem resetState_mode : (resetState s).mode = .init := rfl

@[simp] theorem resetState_acqBuf : (resetState s).acqBuf = s.acqBuf := rfl

@[simp] theorem resetState_active : (resetState s).active = 0 := rfl

@[simp] theorem resetState_wptr : (resetState s).wptr = 0 := rfl

@[simp] theorem resetState_ready : (resetState s).ready = false := rfl

@[simp] theorem resetState_ovrRead : (resetState s).ovrRead = false := rfl

@[simp] theorem resetState_ovrDrop : (resetState s).ovrDrop = false := rfl

@[simp] theorem resetState_ingestPtr : (resetState s).ingestPtr = 0 := rfl

@[simp] theorem resetState_consIdx : (resetState s).consIdx = 0 := rfl

@[simp] theorem resetState_stage : (resetState s).stage = s.stage := rfl

@[simp] theorem resetState_curBuf : (resetState s).curBuf = none := rfl

@[simp] theorem resetState_win : (resetState s).win = List.replicate s.cfg.params.fftSize 0#32 := rfl

@[simp] theorem resetState_guardR : (resetState s).guardR = 0#32 := rfl

@[simp] theorem resetState_bins : (resetState s).bins = List.replicate s.cfg.params.nBins Bin.reset := rfl

@[simp] theorem resetState_mix : (resetState s).mix = s.mix := rfl

@[simp] theorem resetState_pbuf : (resetState s).pbuf = s.pbuf := rfl

@[simp] theorem resetState_pstate : (resetState s).pstate = ⟨.free, .free, .free⟩ := rfl

@[simp] theorem resetState_queue : (resetState s).queue = [] := rfl

@[simp] theorem resetState_playing : (resetState s).playing = none := rfl

@[simp] theorem resetState_waveCfg : (resetState s).waveCfg = s.cfg.params.waveCfgReset := rfl

@[simp] theorem resetState_outLog : (resetState s).outLog = s.outLog := rfl

@[simp] theorem resetState_hostOut : (resetState s).hostOut = s.hostOut := rfl

@[simp] theorem resetState_hostIn : (resetState s).hostIn = s.hostIn := rfl

@[simp] theorem resetState_sched : (resetState s).sched = s.sched := rfl

/-! ## emit (R16) -/

@[simp] theorem emit_cfg : (emit v s).cfg = s.cfg := rfl

@[simp] theorem emit_wave : (emit v s).wave = s.wave := rfl

@[simp] theorem emit_seqPc : (emit v s).seqPc = s.seqPc := rfl

@[simp] theorem emit_mode : (emit v s).mode = s.mode := rfl

@[simp] theorem emit_acqBuf : (emit v s).acqBuf = s.acqBuf := rfl

@[simp] theorem emit_active : (emit v s).active = s.active := rfl

@[simp] theorem emit_wptr : (emit v s).wptr = s.wptr := rfl

@[simp] theorem emit_ready : (emit v s).ready = s.ready := rfl

@[simp] theorem emit_ovrRead : (emit v s).ovrRead = s.ovrRead := rfl

@[simp] theorem emit_ovrDrop : (emit v s).ovrDrop = s.ovrDrop := rfl

@[simp] theorem emit_ingestPtr : (emit v s).ingestPtr = s.ingestPtr := rfl

@[simp] theorem emit_consIdx : (emit v s).consIdx = s.consIdx := rfl

@[simp] theorem emit_stage : (emit v s).stage = s.stage := rfl

@[simp] theorem emit_curBuf : (emit v s).curBuf = s.curBuf := rfl

@[simp] theorem emit_win : (emit v s).win = s.win := rfl

@[simp] theorem emit_guardR : (emit v s).guardR = s.guardR := rfl

@[simp] theorem emit_bins : (emit v s).bins = s.bins := rfl

@[simp] theorem emit_mix : (emit v s).mix = s.mix := rfl

@[simp] theorem emit_pbuf : (emit v s).pbuf = s.pbuf := rfl

@[simp] theorem emit_pstate : (emit v s).pstate = s.pstate := rfl

@[simp] theorem emit_queue : (emit v s).queue = s.queue := rfl

@[simp] theorem emit_playing : (emit v s).playing = s.playing := rfl

@[simp] theorem emit_waveCfg : (emit v s).waveCfg = s.waveCfg := rfl

@[simp] theorem emit_outLog : (emit v s).outLog = s.outLog := rfl

@[simp] theorem emit_hostOut : (emit v s).hostOut = s.hostOut ++ [v] := rfl

@[simp] theorem emit_hostIn : (emit v s).hostIn = s.hostIn := rfl

@[simp] theorem emit_sched : (emit v s).sched = s.sched := rfl

/-! ## A line placed as the next turn (log entry 2) -/

@[simp] theorem State.withFetchWord_cfg :
    (s.withFetchWord nbits w).cfg = s.cfg := rfl

@[simp] theorem State.withFetchWord_wave :
    (s.withFetchWord nbits w).wave = s.wave := rfl

@[simp] theorem State.withFetchWord_seqPc :
    (s.withFetchWord nbits w).seqPc = s.seqPc := rfl

@[simp] theorem State.withFetchWord_mode :
    (s.withFetchWord nbits w).mode = s.mode := rfl

@[simp] theorem State.withFetchWord_acqBuf :
    (s.withFetchWord nbits w).acqBuf = s.acqBuf := rfl

@[simp] theorem State.withFetchWord_active :
    (s.withFetchWord nbits w).active = s.active := rfl

@[simp] theorem State.withFetchWord_wptr :
    (s.withFetchWord nbits w).wptr = s.wptr := rfl

@[simp] theorem State.withFetchWord_ready :
    (s.withFetchWord nbits w).ready = s.ready := rfl

@[simp] theorem State.withFetchWord_ovrRead :
    (s.withFetchWord nbits w).ovrRead = s.ovrRead := rfl

@[simp] theorem State.withFetchWord_ovrDrop :
    (s.withFetchWord nbits w).ovrDrop = s.ovrDrop := rfl

@[simp] theorem State.withFetchWord_ingestPtr :
    (s.withFetchWord nbits w).ingestPtr = s.ingestPtr := rfl

@[simp] theorem State.withFetchWord_consIdx :
    (s.withFetchWord nbits w).consIdx = s.consIdx := rfl

@[simp] theorem State.withFetchWord_stage :
    (s.withFetchWord nbits w).stage = s.stage := rfl

@[simp] theorem State.withFetchWord_curBuf :
    (s.withFetchWord nbits w).curBuf = s.curBuf := rfl

@[simp] theorem State.withFetchWord_win :
    (s.withFetchWord nbits w).win = s.win := rfl

@[simp] theorem State.withFetchWord_guardR :
    (s.withFetchWord nbits w).guardR = s.guardR := rfl

@[simp] theorem State.withFetchWord_bins :
    (s.withFetchWord nbits w).bins = s.bins := rfl

@[simp] theorem State.withFetchWord_mix :
    (s.withFetchWord nbits w).mix = s.mix := rfl

@[simp] theorem State.withFetchWord_pbuf :
    (s.withFetchWord nbits w).pbuf = s.pbuf := rfl

@[simp] theorem State.withFetchWord_pstate :
    (s.withFetchWord nbits w).pstate = s.pstate := rfl

@[simp] theorem State.withFetchWord_queue :
    (s.withFetchWord nbits w).queue = s.queue := rfl

@[simp] theorem State.withFetchWord_playing :
    (s.withFetchWord nbits w).playing = s.playing := rfl

@[simp] theorem State.withFetchWord_waveCfg :
    (s.withFetchWord nbits w).waveCfg = s.waveCfg := rfl

@[simp] theorem State.withFetchWord_outLog :
    (s.withFetchWord nbits w).outLog = s.outLog := rfl

@[simp] theorem State.withFetchWord_hostOut :
    (s.withFetchWord nbits w).hostOut = s.hostOut := rfl

@[simp] theorem State.withFetchWord_hostIn :
    (s.withFetchWord nbits w).hostIn = s.hostIn := rfl

@[simp] theorem State.withFetchWord_sched :
    (s.withFetchWord nbits w).sched = .line (tableWords nbits w) :: s.sched := rfl

/-! ## The reset bin (R45) -/

@[simp] theorem Bin.reset_gate : Bin.reset.gate = false := rfl

@[simp] theorem Bin.reset_phaseAccumulator : Bin.reset.phaseAccumulator = 0#32 := rfl

@[simp] theorem Bin.reset_phaseIncrement : Bin.reset.phaseIncrement = 0#32 := rfl

@[simp] theorem Bin.reset_targetAmplitude : Bin.reset.targetAmplitude = 0#16 := rfl

@[simp] theorem Bin.reset_smoothedAmplitude : Bin.reset.smoothedAmplitude = 0#32 := rfl

@[simp] theorem Bin.reset_lastMagnitude : Bin.reset.lastMagnitude = 0#32 := rfl

@[simp] theorem Bin.reset_isPeak : Bin.reset.isPeak = false := rfl

@[simp] theorem Bin.reset_envelopePhase : Bin.reset.envelopePhase = .sustain := rfl

@[simp] theorem Bin.reset_stabilityCount : Bin.reset.stabilityCount = 0#32 := rfl

end Sys2Proof.Machine
end

