-- ==== Sys2Proof/Laws/Ops.lean ====
section
/-!
SUPPORT. What the shared operations can do, once each: array cells, the two and three buffers, enabling, and the
waveform memory with its canonical form.
-/

namespace Sys2Proof.Machine

/-! ## Array cells (R81) -/

theorem writeCell_eq_some {α : Type} {xs ys : List α} {i : Nat} {v : α} :
    writeCell xs i v = some ys ↔ i < xs.length ∧ ys = xs.set i v := by
  unfold writeCell
  split <;> simp_all [eq_comm]

theorem writeCell_eq_none {α : Type} {xs : List α} {i : Nat} {v : α} :
    writeCell xs i v = none ↔ xs.length ≤ i := by
  unfold writeCell
  split <;> simp_all

@[simp] theorem Two.get_set {α : Type} (t : Two α) (i j : Fin 2) (v : α) :
    (t.set i v).get j = if j = i then v else t.get j := by
  match i, j with
  | 0, 0 => rfl
  | 0, 1 => rfl
  | 1, 0 => rfl
  | 1, 1 => rfl

@[simp] theorem Three.get_set {α : Type} (t : Three α) (i j : BufId) (v : α) :
    (t.set i v).get j = if j = i then v else t.get j := by
  match i, j with
  | 0, 0 => rfl
  | 0, 1 => rfl
  | 0, 2 => rfl
  | 1, 0 => rfl
  | 1, 1 => rfl
  | 1, 2 => rfl
  | 2, 0 => rfl
  | 2, 1 => rfl
  | 2, 2 => rfl

theorem other_ne (i : Fin 2) : other i ≠ i := by
  match i with
  | 0 => decide
  | 1 => decide

@[simp] theorem other_other (i : Fin 2) : other (other i) = i := by
  match i with
  | 0 => rfl
  | 1 => rfl

theorem eq_other_of_ne {i j : Fin 2} (h : i ≠ j) : i = other j := by
  match i, j with
  | 0, 0 => exact absurd rfl h
  | 0, 1 => rfl
  | 1, 0 => rfl
  | 1, 1 => exact absurd rfl h

/-! ## Enabling (R9, R280) -/

theorem whenEnabled_next {i : Instr} {s t : State} {o : Host.Outcome State Fault Refusal} :
    whenEnabled i s o = .next t ↔ enabled i s = true ∧ o = .next t := by
  unfold whenEnabled
  split <;> simp_all

theorem whenEnabled_true {i : Instr} {s : State} {o : Host.Outcome State Fault Refusal}
    (h : enabled i s = true) : whenEnabled i s o = o := by
  simp [whenEnabled, h]

theorem whenEnabled_false {i : Instr} {s : State} {o : Host.Outcome State Fault Refusal}
    (h : enabled i s = false) : whenEnabled i s o = .refused (.notEnabled i) := by
  simp [whenEnabled, h]

/-! ## The waveform memory (log entry 6) -/

/-- Reading an address below every listed one. -/
theorem Memory.read_of_lt {m : Memory} {a : Nat} (h : ∀ c ∈ m, a < c.1) : m.read a = Memory.unlisted := by
  induction m with
  | nil => rfl
  | cons c rest ih =>
    have hc := h c (by simp)
    rw [Memory.read, if_neg (by omega)]
    exact ih fun d hd => h d (by simp [hd])

/-- Every cell left by a write stands at the address written or was there before. -/
theorem Memory.mem_write {m : Memory} {a : Nat} {v : Byte} {c : Host.Cell} (h : c ∈ m.write a v) :
    (c = (a, v) ∧ v ≠ Memory.unlisted) ∨ c ∈ m := by
  induction m with
  | nil =>
    unfold Memory.write at h
    split at h <;> simp_all
  | cons d rest ih =>
    unfold Memory.write at h
    split at h
    · split at h
      · exact .inr h
      · rcases List.mem_cons.mp h with h | h
        · exact .inl ⟨h, ‹_›⟩
        · exact .inr h
    · split at h
      · split at h
        · exact .inr (by simp [h])
        · rcases List.mem_cons.mp h with h | h
          · exact .inl ⟨h, ‹_›⟩
          · exact .inr (by simp [h])
      · rcases List.mem_cons.mp h with h | h
        · exact .inr (by simp [h])
        · rcases ih h with h | h
          · exact .inl h
          · exact .inr (by simp [h])

/-- A write inside the address space keeps the canonical form. -/
theorem Memory.write_wf {m : Memory} {a : Nat} {v : Byte} (hm : m.wf) (ha : a < Memory.size) : (m.write a v).wf := by
  obtain ⟨hp, hall⟩ := hm
  rw [List.all_eq_true] at hall
  constructor
  · clear hall
    induction m with
    | nil =>
      unfold Memory.write
      split <;> simp
    | cons d rest ih =>
      have hd := List.pairwise_cons.mp hp
      unfold Memory.write
      split
      · split
        · exact hp
        · refine List.pairwise_cons.mpr ⟨fun e he => ?_, hp⟩
          rcases List.mem_cons.mp he with rfl | he
          · assumption
          · have := hd.1 e he
            simp only
            omega
      · split
        · split
          · exact hd.2
          · exact List.pairwise_cons.mpr ⟨fun e he => by have := hd.1 e he; simp_all, hd.2⟩
        · refine List.pairwise_cons.mpr ⟨fun e he => ?_, ih hd.2⟩
          rcases Memory.mem_write he with ⟨rfl, _⟩ | he
          · simp only
            omega
          · exact hd.1 e he
  · rw [List.all_eq_true]
    intro c hc
    rcases Memory.mem_write hc with ⟨rfl, hv⟩ | hc
    · simpa using ⟨hv, ha⟩
    · exact hall c hc

/-- A write is read back, and changes no other address. -/
theorem Memory.read_write {m : Memory} (hm : m.Pairwise fun c d => c.1 < d.1) (a b : Nat) (v : Byte) :
    (m.write a v).read b = if b = a then v else m.read b := by
  induction m with
  | nil =>
    unfold Memory.write
    by_cases hv : v = Memory.unlisted
    · subst hv
      simp [Memory.read]
    · simp only [hv, if_false, Memory.read, eq_comm]
  | cons d rest ih =>
    have hd := List.pairwise_cons.mp hm
    obtain ⟨k, w⟩ := d
    have hlt : ∀ {x}, x ≤ k → Memory.read rest x = Memory.unlisted := fun hx =>
      Memory.read_of_lt fun e he => by have := hd.1 e he; simp only at this; omega
    unfold Memory.write
    split
    · rename_i hak
      split
      · rename_i hv
        by_cases hb : b = a
        · subst hb
          simp only [Memory.read, if_true, hv]
          rw [if_neg (by omega), hlt (by omega)]
        · simp [hb]
      · simp only [Memory.read, eq_comm]
    · split
      · rename_i hak
        subst hak
        split
        · rename_i hv
          by_cases hb : b = a
          · subst hb
            simp only [hv, if_true]
            exact hlt (le_refl _)
          · simp only [hb, if_false, Memory.read]
            rw [if_neg (fun h => hb h.symm)]
        · simp only [Memory.read]
          by_cases hb : b = a
          · simp [hb]
          · simp [hb, Ne.symm hb]
      · rename_i h1 h2
        simp only [Memory.read]
        by_cases hkb : k = b
        · subst hkb
          rw [if_pos rfl, if_neg (fun h => h2 h.symm), if_pos rfl]
        · rw [if_neg hkb, if_neg hkb]
          exact ih hd.2

/-- Loading a table entry keeps the canonical form. -/
theorem waveLoad_wf {m : Memory} (hm : m.wf) (a : BitVec 27) (v : Sample) : (waveLoad m a v).wf := by
  have := a.isLt
  exact Memory.write_wf (Memory.write_wf hm (by simp only [Memory.size]; omega)) (by simp only [Memory.size]; omega)

/-- A loaded entry is read back whole, and no other entry changes. -/
theorem waveRead_waveLoad {m : Memory} (hm : m.wf) (a b : BitVec 27) (v : Sample) :
    waveRead (waveLoad m a v) b = if b = a then v else waveRead m b := by
  have h1 : (m.write (2 * a.toNat) (v.extractLsb' 0 8)).wf :=
    Memory.write_wf hm (by have := a.isLt; simp only [Memory.size]; omega)
  unfold waveRead waveLoad
  rw [Memory.read_write h1.1, Memory.read_write h1.1, Memory.read_write hm.1, Memory.read_write hm.1]
  by_cases hab : b = a
  · subst hab
    rw [if_pos rfl, if_neg (by omega), if_pos rfl, if_pos rfl]
    ext i hi
    simp only [BitVec.getElem_append, BitVec.getElem_extractLsb']
    split
    · simp [BitVec.getLsbD_eq_getElem (show i < 16 by omega)]
    · simp [show 8 + (i - 8) = i by omega, BitVec.getLsbD_eq_getElem (show i < 16 by omega)]
  · have hne : b.toNat ≠ a.toNat := fun h => hab (BitVec.eq_of_toNat_eq h)
    rw [if_neg (by omega), if_neg (by omega), if_neg (by omega), if_neg (by omega), if_neg hab]

end Sys2Proof.Machine
end

