-- ==== Sys2Proof/Laws/Analysis.lean ====
section
/-!
SUPPORT. What the stage functions of AN_COMPUTE keep (spec/41_analysis.md): lengths, and the fields a bin update leaves
alone.
-/

namespace Sys2Proof.Machine

/-! ## The FFT engine (R165) -/

theorem butterflyAt_length (A : List Cplx) (p q : Nat) (w : Cplx) : (butterflyAt A p q w).length = A.length := by
  simp [butterflyAt]

/-- A loop whose body keeps the length keeps it. -/
theorem foldl_length {α β : Type} (f : List β → α → List β) (hf : ∀ A a, (f A a).length = A.length) (l : List α)
    (A : List β) : (l.foldl f A).length = A.length := by
  induction l generalizing A with
  | nil => rfl
  | cons a l ih => rw [List.foldl_cons, ih, hf]

theorem fftGroup_length (tw : List Cplx) (L m g : Nat) (A : List Cplx) :
    (fftGroup tw L m g A).length = A.length :=
  foldl_length _ (fun _ _ => butterflyAt_length _ _ _ _) _ _

theorem fftStage_length (tw : List Cplx) (L m : Nat) (A : List Cplx) : (fftStage tw L m A).length = A.length :=
  foldl_length _ (fun _ _ => fftGroup_length _ _ _ _ _) _ _

theorem fftLoad_length (S : Nat) (y : List F32) : (fftLoad S y).length = 2 ^ S := by
  unfold fftLoad
  rw [foldl_length _ (fun _ _ => List.length_set)]
  simp

/-- The engine answers L values. -/
theorem fftRef_length (tw : List Cplx) (S : Nat) (y : List F32) : (fftRef tw S y).length = 2 ^ S := by
  unfold fftRef
  rw [foldl_length _ (fun _ _ => fftStage_length _ _ _ _), fftLoad_length]

/-- N magnitudes (R160 step 4). -/
theorem magnitudes_length (p : Params) (w : List F32) : (magnitudes p w).length = p.nBins := by
  have : p.nBins ≤ 2 ^ p.fftLog := Nat.div_le_self _ _
  rw [magnitudes, List.length_map, List.length_take, fftRef_length, Nat.min_eq_left this]

/-! ## The bin update (R175, R182) -/

/-- The update writes the Analysis fields only. -/
theorem binUpdate_frame (p : Params) (b : Bin) (m : F32) (peak : Bool) :
    (binUpdate p b m peak).phaseAccumulator = b.phaseAccumulator ∧
      (binUpdate p b m peak).phaseIncrement = b.phaseIncrement ∧
      (binUpdate p b m peak).smoothedAmplitude = b.smoothedAmplitude := by
  unfold binUpdate peakBranch nonPeakBranch stableUpdate
  cases peak
  · simp
  · simp only [if_true]
    split <;> simp

/-- The update keeps a closed gate's target at 0 (R47). -/
theorem binUpdate_closed {p : Params} {b : Bin} {m : F32} {peak : Bool}
    (hb : b.gate = false → b.targetAmplitude = 0#16) (h : (binUpdate p b m peak).gate = false) :
    (binUpdate p b m peak).targetAmplitude = 0#16 := by
  revert h
  unfold binUpdate peakBranch nonPeakBranch stableUpdate
  cases peak
  · simp
  · simp only [if_true]
    split <;> simp_all

end Sys2Proof.Machine
end

