-- ==== Sys2Proof/Laws/Fft.lean ====
section
/-!
SUPPORT. What the FFT engine's loops do (spec/41_analysis.md R165 to R167): one butterfly, one group,
    a stage on two halves,
the bit-reversed load, and so the whole transform as one group over the transforms of the even and of the odd samples.
-/

namespace Sys2Proof.Machine

/-! ## One butterfly, one group -/

/-- A butterfly writes its two cells and no other. -/
theorem butterflyAt_getD (A : List Cplx) {p q : Nat} (w : Cplx) (hpq : p ≠ q) (hp : p < A.length) (hq : q < A.length)
    (i : Nat) :
    (butterflyAt A p q w).getD i Cplx.zero =
      if i = p then (butterfly (A.getD p Cplx.zero) (A.getD q Cplx.zero) w).1
      else if i = q then (butterfly (A.getD p Cplx.zero) (A.getD q Cplx.zero) w).2
      else A.getD i Cplx.zero := by
  simp only [butterflyAt]
  generalize butterfly (A.getD p Cplx.zero) (A.getD q Cplx.zero) w = r
  simp only [List.getD_eq_getElem?_getD, List.getElem?_set, List.length_set]
  by_cases h1 : i = p
  · subst h1; simp [hpq.symm, hp]
  · by_cases h2 : i = q
    · subst h2; simp [h1, hq]
    · simp [h1, h2, Ne.symm h1, Ne.symm h2]

/-- The first `n` butterflies of a group: the pairs they have reached hold their results,
    every other cell its value. -/
theorem fftGroup_getD (tw : List Cplx) (L m g n : Nat) (A : List Cplx) (hA : g + 2 * (m / 2) ≤ A.length)
    (hn : n ≤ m / 2) (i : Nat) :
    ((List.range n).foldl
      (fun A j => butterflyAt A (g + j) (g + j + m / 2) (tw.getD (j * (L / m)) Cplx.zero)) A).getD i Cplx.zero =
      if g ≤ i ∧ i < g + n then
        (butterfly (A.getD i Cplx.zero) (A.getD (i + m / 2) Cplx.zero) (tw.getD ((i - g) * (L / m)) Cplx.zero)).1
      else if g + m / 2 ≤ i ∧ i < g + m / 2 + n then
        (butterfly (A.getD (i - m / 2) Cplx.zero) (A.getD i Cplx.zero)
            (tw.getD ((i - g - m / 2) * (L / m)) Cplx.zero)).2
      else A.getD i Cplx.zero := by
  induction n generalizing i with
  | zero => rw [if_neg (by omega), if_neg (by omega)]; rfl
  | succ n ih =>
    have hl := foldl_length (fun A j => butterflyAt A (g + j) (g + j + m / 2) (tw.getD (j * (L / m)) Cplx.zero))
      (fun _ _ => butterflyAt_length _ _ _ _) (List.range n) A
    have hi := ih (by omega)
    rw [List.range_succ, List.foldl_append]
    simp only [List.foldl_cons, List.foldl_nil]
    rw [butterflyAt_getD _ _ (by omega) (by omega) (by omega), hi (g + n), hi (g + n + m / 2), hi i,
      if_neg (c := g ≤ g + n ∧ _) (by omega), if_neg (c := g + m / 2 ≤ g + n ∧ _) (by omega),
      if_neg (c := g ≤ g + n + m / 2 ∧ _) (by omega), if_neg (c := g + m / 2 ≤ g + n + m / 2 ∧ _) (by omega)]
    by_cases h1 : i = g + n
    · subst h1; rw [if_pos rfl, if_pos (by omega)]; simp
    · rw [if_neg h1]
      by_cases h2 : i = g + n + m / 2
      · subst h2; rw [if_pos rfl, if_neg (by omega), if_pos (by omega)]
        rw [show g + n + m / 2 - m / 2 = g + n by omega, show g + n + m / 2 - g - m / 2 = n by omega]
      · rw [if_neg h2]
        by_cases h3 : g ≤ i ∧ i < g + n
        · rw [if_pos h3, if_pos (by omega)]
        · rw [if_neg h3, if_neg (c := g ≤ i ∧ i < g + (n + 1)) (by omega)]
          by_cases h4 : g + m / 2 ≤ i ∧ i < g + m / 2 + n
          · rw [if_pos h4, if_pos (by omega)]
          · rw [if_neg h4, if_neg (by omega)]

/-! ## Two halves -/

/-- The twiddle ROM of the half-length transform: every second factor. -/
def halfTw (K : Nat) (tw : List Cplx) : List Cplx := (List.range K).map fun t => tw.getD (2 * t) Cplx.zero

/-- Every second sample, from the first or from the second on. -/
def everySecond (K o : Nat) (y : List F32) : List F32 := (List.range K).map fun n => y.getD (2 * n + o) 0#32

/-- A butterfly inside the first part of an array acts on that part. -/
theorem butterflyAt_left (A B : List Cplx) (p q : Nat) (w : Cplx) (hp : p < A.length) (hq : q < A.length) :
    butterflyAt (A ++ B) p q w = butterflyAt A p q w ++ B := by
  simp only [butterflyAt, List.getD_eq_getElem?_getD, List.getElem?_append_left hp, List.getElem?_append_left hq]
  rw [List.set_append_left _ _ hp, List.set_append_left _ _ (by simpa using hq)]

/-- A butterfly inside the second part of an array acts on that part. -/
theorem butterflyAt_right (A B : List Cplx) (p q : Nat) (w : Cplx) :
    butterflyAt (A ++ B) (A.length + p) (A.length + q) w = A ++ butterflyAt B p q w := by
  simp only [butterflyAt, List.getD_eq_getElem?_getD]
  rw [List.getElem?_append_right (by omega), List.getElem?_append_right (by omega)]
  simp

/-- A loop whose body acts on one part only, and keeps `P` of it, acts on that part only. -/
theorem foldl_part {α β γ : Type} (P : γ → Prop) (f : β → α → β) (f' : γ → α → γ) (part : γ → β) (l : List α)
    (h : ∀ c, P c → ∀ a ∈ l, f (part c) a = part (f' c a) ∧ P (f' c a)) (c : γ) (hc : P c) :
    l.foldl f (part c) = part (l.foldl f' c) := by
  induction l generalizing c with
  | nil => rfl
  | cons a l ih =>
    obtain ⟨h1, h2⟩ := h c hc a (by simp)
    rw [List.foldl_cons, List.foldl_cons, h1]
    exact ih (fun c hc a ha => h c hc a (by simp [ha])) _ h2

/-- A group of a half-length transform uses the twiddle factors of `halfTw`. -/
theorem halfTw_getD (tw : List Cplx) {m c j : Nat} (hc : 0 < c) (hj : j < m / 2) :
    tw.getD (j * (2 * (m * c) / m)) Cplx.zero = (halfTw (m * c) tw).getD (j * (m * c / m)) Cplx.zero := by
  have hm : 0 < m := by omega
  have : j * c < m * c := Nat.mul_lt_mul_of_pos_right (by omega) hc
  rw [show 2 * (m * c) = m * (2 * c) by ring, Nat.mul_div_cancel_left _ hm, Nat.mul_div_cancel_left _ hm, halfTw]
  conv_rhs => rw [List.getD_eq_getElem?_getD, List.getElem?_map, List.getElem?_range this]
  rw [Option.map_some, Option.getD_some]
  congr 1; ring

/-- A group inside the first half. -/
theorem fftGroup_left (tw : List Cplx) (m c g : Nat) (hc : 0 < c) (A B : List Cplx) (hA : A.length = m * c)
    (hg : g + m ≤ A.length) :
    fftGroup tw (2 * (m * c)) m g (A ++ B) = fftGroup (halfTw (m * c) tw) (m * c) m g A ++ B := by
  refine foldl_part (fun A => A.length = m * c) _ _ (· ++ B) _ (fun C hC j hj => ⟨?_, ?_⟩) A hA
  · rw [List.mem_range] at hj
    rw [butterflyAt_left _ _ _ _ _ (by omega) (by omega), halfTw_getD tw hc hj]
  · rw [butterflyAt_length, hC]

/-- A group inside the second half. -/
theorem fftGroup_right (tw : List Cplx) (m c g : Nat) (hc : 0 < c) (A B : List Cplx) (hA : A.length = m * c) :
    fftGroup tw (2 * (m * c)) m (m * c + g) (A ++ B) = A ++ fftGroup (halfTw (m * c) tw) (m * c) m g B := by
  refine foldl_part (fun _ => True) _ _ (A ++ ·) _ (fun C _ j hj => ⟨?_, trivial⟩) B trivial
  rw [List.mem_range] at hj
  rw [← halfTw_getD tw hc hj, ← hA, ← butterflyAt_right, Nat.add_assoc, Nat.add_assoc, Nat.add_assoc]

/-- A stage whose groups fit into each half runs on each half, with every second twiddle factor. -/
theorem fftStage_halves (tw : List Cplx) (m c : Nat) (hm : 0 < m) (hc : 0 < c) (A B : List Cplx) (hA : A.length =
    m * c) :
    fftStage tw (2 * (m * c)) m (A ++ B) =
      fftStage (halfTw (m * c) tw) (m * c) m A ++ fftStage (halfTw (m * c) tw) (m * c) m B := by
  have e : 2 * (m * c) / m = c + c := by
    rw [show 2 * (m * c) = m * (c + c) by ring, Nat.mul_div_cancel_left _ hm]
  rw [fftStage, e, List.range_add, List.foldl_append, fftStage, fftStage, Nat.mul_div_cancel_left _ hm,
      List.foldl_map]
  rw [foldl_part (fun A => A.length = m * c) _ (fun A i => fftGroup (halfTw (m * c) tw) (m * c) m (i * m) A)
      (· ++ B) _
    (fun C hC i hi => ⟨?_, by rw [fftGroup_length, hC]⟩) A hA]
  · refine foldl_part (fun _ => True) _ _ _ _ (fun C _ i _ => ⟨?_, trivial⟩) B trivial
    rw [show (c + i) * m = m * c + i * m by ring]
    exact fftGroup_right _ _ _ _ hc _ _ (by
      rw [foldl_length _ (fun _ _ => fftGroup_length _ _ _ _ _), hA])
  · rw [List.mem_range] at hi
    refine fftGroup_left _ _ _ _ hc _ _ hC ?_
    have : (i + 1) * m ≤ c * m := Nat.mul_le_mul_right _ hi
    rw [hC, Nat.mul_comm m c]; rw [Nat.add_mul] at this; omega

theorem bitrev_lt (S n : Nat) : bitrev S n < 2 ^ S := by
  induction S generalizing n with
  | zero => simp [bitrev]
  | succ S ih =>
    have := ih (n / 2)
    simp only [bitrev, pow_succ]
    rcases Nat.mod_two_eq_zero_or_one n with h | h <;> rw [h] <;> omega

theorem bitrev_even (S n : Nat) : bitrev (S + 1) (2 * n) = bitrev S n := by simp [bitrev]

theorem bitrev_odd (S n : Nat) : bitrev (S + 1) (2 * n + 1) = 2 ^ S + bitrev S n := by
  simp only [bitrev]
  rw [show (2 * n + 1) % 2 = 1 by omega, show (2 * n + 1) / 2 = n by omega, Nat.one_mul]

/-- The bit-reversed load puts the even samples into the first half and the odd ones into the second. -/
theorem fftLoad_halves (S : Nat) (y : List F32) :
    fftLoad (S + 1) y = fftLoad S (everySecond (2 ^ S) 0 y) ++ fftLoad S (everySecond (2 ^ S) 1 y) := by
  have pre : ∀ n, n ≤ 2 ^ S → ∀ A B : List Cplx, A.length = 2 ^ S →
      (List.range (2 * n)).foldl (fun A n => A.set (bitrev (S + 1) n) ⟨y.getD n 0#32, 0#32⟩) (A ++ B) =
        (List.range n).foldl (fun A n => A.set (bitrev S n) ⟨(everySecond (2 ^ S) 0 y).getD n 0#32, 0#32⟩) A ++
        (List.range n).foldl (fun A n => A.set (bitrev S n) ⟨(everySecond (2 ^ S) 1 y).getD n 0#32, 0#32⟩) B := by
    intro n
    induction n with
    | zero => intros; rfl
    | succ n ih =>
      intro hn A B hA
      rw [show 2 * (n + 1) = 2 * n + 1 + 1 by ring, List.range_succ, List.range_succ, List.range_succ]
      simp only [List.foldl_append, List.foldl_cons, List.foldl_nil]
      rw [ih (by omega) A B hA]
      have g : ∀ o, (everySecond (2 ^ S) o y).getD n 0#32 = y.getD (2 * n + o) 0#32 := by
        intro o
        rw [everySecond, List.getD_eq_getElem?_getD, List.getElem?_map, List.getElem?_range (by omega)]; rfl
      have hl : ((List.range n).foldl
          (fun A n => A.set (bitrev S n) ⟨(everySecond (2 ^ S) 0 y).getD n 0#32, 0#32⟩) A).length = 2 ^ S := by
        rw [foldl_length _ (fun _ _ => List.length_set), hA]
      rw [bitrev_even, bitrev_odd, g 0, g 1, List.set_append_left _ _ (by rw [hl]; exact bitrev_lt S n),
        List.set_append_right _ _ (by rw [List.length_set, hl]; omega), List.length_set, hl, Nat.add_sub_cancel_left]
      rfl
  rw [fftLoad, pow_succ, Nat.mul_comm, Nat.two_mul, ← List.replicate_append_replicate, ← Nat.two_mul]
  exact pre _ le_rfl _ _ (by simp)

/-- All stages of the half-length transforms, on both halves at once. -/
theorem fftStages_halves (tw : List Cplx) (S n : Nat) (hn : n ≤ S) (A B : List Cplx) (hA : A.length = 2 ^ S) :
    (List.range n).foldl (fun A s => fftStage tw (2 ^ (S + 1)) (2 ^ (s + 1)) A) (A ++ B) =
      (List.range n).foldl (fun A s => fftStage (halfTw (2 ^ S) tw) (2 ^ S) (2 ^ (s + 1)) A) A ++
      (List.range n).foldl (fun A s => fftStage (halfTw (2 ^ S) tw) (2 ^ S) (2 ^ (s + 1)) A) B := by
  induction n with
  | zero => rfl
  | succ n ih =>
    simp only [List.range_succ, List.foldl_append, List.foldl_cons, List.foldl_nil]
    rw [ih (by omega)]
    have e : 2 ^ S = 2 ^ (n + 1) * 2 ^ (S - (n + 1)) := by rw [← pow_add]; congr 1; omega
    have := fftStage_halves tw (2 ^ (n + 1)) (2 ^ (S - (n + 1))) (by positivity) (by positivity)
      ((List.range n).foldl (fun A s => fftStage (halfTw (2 ^ S) tw) (2 ^ S) (2 ^ (s + 1)) A) A)
      ((List.range n).foldl (fun A s => fftStage (halfTw (2 ^ S) tw) (2 ^ S) (2 ^ (s + 1)) A) B)
      (by rw [foldl_length _ (fun _ _ => fftStage_length _ _ _ _), hA, e])
    rw [← e] at this
    rw [pow_succ, Nat.mul_comm (2 ^ S) 2, this]

/-- The transform of one sample is the sample. -/
theorem fftRef_zero (tw : List Cplx) (y : List F32) : fftRef tw 0 y = [⟨y.getD 0 0#32, 0#32⟩] := rfl

/-- The engine's last stage on the transforms of the even and the odd samples. -/
theorem fftRef_succ (tw : List Cplx) (S : Nat) (y : List F32) :
    fftRef tw (S + 1) y = fftGroup tw (2 ^ (S + 1)) (2 ^ (S + 1)) 0
      (fftRef (halfTw (2 ^ S) tw) S (everySecond (2 ^ S) 0 y) ++
        fftRef (halfTw (2 ^ S) tw) S (everySecond (2 ^ S) 1 y)) := by
  have h1 : (2 : Nat) ^ (S + 1) / 2 ^ (S + 1) = 1 := Nat.div_self (by positivity)
  rw [fftRef, List.range_succ, List.foldl_append, fftLoad_halves,
    fftStages_halves tw S S le_rfl _ _ (fftLoad_length _ _)]
  simp only [List.foldl_cons, List.foldl_nil, fftStage, h1, List.range_one, Nat.zero_mul]
  rfl

end Sys2Proof.Machine
end

