-- ==== Sys2Proof/Laws/Float.lean ====
section
/-!
SUPPORT. What rounding a value to binary32 does, once (spec/00_scope.md R14): the fields of a packed pattern,
    the rounded
significand, and that `f32OfUnits` answers the nearest binary32, ties to even, infinite past the rounding boundary.
-/

namespace Sys2Proof.Machine

/-- The number a packed pattern spells. -/
theorem f32Pack_toNat (neg : Bool) {P : Nat} (h : P ≤ 0x7F800000) : (f32Pack neg P).toNat =
    (if neg then 2 ^ 31 else 0) + P := by
  unfold f32Pack; rw [BitVec.toNat_ofNat]
  cases neg
  · simp; omega
  · simp; omega

/-- The exponent field of a packed pattern. -/
theorem f32Exp_pack (neg : Bool) {P : Nat} (h : P ≤ 0x7F800000) : f32Exp (f32Pack neg P) = P / 2 ^ 23 := by
  unfold f32Exp; rw [BitVec.extractLsb'_toNat, f32Pack_toNat neg h, Nat.shiftRight_eq_div_pow]
  cases neg
  · simp; omega
  · simp only [if_true]; omega

/-- The fraction field of a packed pattern. -/
theorem f32Frac_pack (neg : Bool) {P : Nat} (h : P ≤ 0x7F800000) : f32Frac (f32Pack neg P) = P % 2 ^ 23 := by
  unfold f32Frac; rw [BitVec.extractLsb'_toNat, f32Pack_toNat neg h, Nat.shiftRight_eq_div_pow]
  cases neg
  · simp
  · simp only [if_true]; omega

/-- The sign of a packed pattern. -/
theorem f32Sign_pack (neg : Bool) {P : Nat} (h : P ≤ 0x7F800000) : f32Sign (f32Pack neg P) = neg := by
  unfold f32Sign
  rw [BitVec.getLsbD, f32Pack_toNat neg h, Nat.testBit_eq_decide_div_mod_eq]
  cases neg
  · simp; omega
  · simp only [if_true]; simp; omega

/-- The rounded quotient is within half a divisor of the dividend, and even where it is exactly half away. -/
theorem roundHalfEven_spec (num den : Nat) (hd : 0 < den) :
    2 * (roundHalfEven num den * den) ≤ 2 * num + den ∧ 2 * num ≤ 2 * (roundHalfEven num den * den) + den ∧
    ((2 * (roundHalfEven num den * den) = 2 * num + den ∨ 2 * num = 2 * (roundHalfEven num den * den) + den) →
        roundHalfEven num den % 2 = 0) := by
  unfold roundHalfEven
  have h := Nat.div_add_mod num den
  have hr := Nat.mod_lt num hd
  generalize num / den = q at *
  generalize num % den = r at *
  rw [Nat.mul_comm] at h
  subst h
  dsimp only
  split
  · rename_i hc
    rw [Nat.add_mul]
    refine ⟨by omega, by omega, ?_⟩
    intro he; omega
  · rename_i hc
    refine ⟨by omega, by omega, ?_⟩
    intro he; omega

/-- A value of `u` units has its leading bit at most 23 places above its last place, and exactly so past 2 ^ 23. -/
theorem ulpExp_bounds (u : Nat) : u < 2 ^ (ulpExp u + 24) ∧ (ulpExp u ≠ 0 → 2 ^ (ulpExp u + 23) ≤ u) := by
  unfold ulpExp
  constructor
  · calc u < 2 ^ (u.log2 + 1) := Nat.lt_log2_self
      _ ≤ _ := Nat.pow_le_pow_right (by omega) (by omega)
  · intro h
    rw [show u.log2 - 23 + 23 = u.log2 by omega]
    exact Nat.log2_self_le (by rintro rfl; simp at h)

/-- Rounding does not pass an integer above. -/
theorem roundHalfEven_le (num den k : Nat) (hd : 0 < den) (h : num ≤ k * den) : roundHalfEven num den ≤ k := by
  have s := roundHalfEven_spec num den hd
  by_contra hc
  have : (k + 1) * den ≤ roundHalfEven num den * den := Nat.mul_le_mul_right _ (by omega)
  rw [Nat.add_mul] at this; omega

/-- Rounding does not pass an integer below. -/
theorem le_roundHalfEven (num den k : Nat) (hd : 0 < den) (h : k * den ≤ num) : k ≤ roundHalfEven num den := by
  have s := roundHalfEven_spec num den hd
  by_contra hc
  have : (roundHalfEven num den + 1) * den ≤ k * den := Nat.mul_le_mul_right _ (by omega)
  rw [Nat.add_mul] at this; omega

/-- A rounded significand has at most 24 bits or is 2 ^ 24, and is normal unless the last place is one unit. -/
theorem significand_bounds (num den : Nat) (hd : 0 < den) :
    roundHalfEven num (den * 2 ^ ulpExp (num / den)) ≤ 2 ^ 24 ∧ (ulpExp (num / den) ≠ 0 → 2 ^ 23 ≤
        roundHalfEven num (den * 2 ^ ulpExp (num / den))) := by
  have hb := ulpExp_bounds (num / den)
  generalize ulpExp (num / den) = e at *
  constructor
  · apply roundHalfEven_le _ _ _ (by positivity)
    have : num < den * 2 ^ (e + 24) := (Nat.div_lt_iff_lt_mul hd).mp hb.1 |>.trans_eq (Nat.mul_comm _ _)
    have e2 : 2 ^ 24 * (den * 2 ^ e) = den * 2 ^ (e + 24) := by rw [pow_add]; ring
    rw [e2]; exact this.le
  · intro h
    apply le_roundHalfEven _ _ _ (by positivity)
    have := (Nat.le_div_iff_mul_le hd).mp (hb.2 h)
    have e2 : 2 ^ 23 * (den * 2 ^ e) = 2 ^ (e + 23) * den := by rw [pow_add]; ring
    rw [e2]; exact this

/-- The magnitude of a packed pattern: its significand at its last place. -/
theorem f32Mag_pack (neg : Bool) (e r : Nat) (hr : r ≤ 2 ^ 24) (h2 : e ≠ 0 → 2 ^ 23 ≤ r) (hf : e * 2 ^ 23 + r ≤
    0x7F800000) :
    f32Mag (f32Pack neg (e * 2 ^ 23 + r)) = r * 2 ^ e := by
  unfold f32Mag
  rw [f32Exp_pack neg hf, f32Frac_pack neg hf]
  rcases Nat.lt_or_ge r (2 ^ 23) with h | h
  · have : e = 0 := by by_contra hc; exact absurd (h2 hc) (by omega)
    subst this; rw [if_pos (by omega)]; omega
  · rcases Nat.lt_or_ge r (2 ^ 24) with h' | h'
    · have a : (e * 2 ^ 23 + r) / 2 ^ 23 = e + 1 := by omega
      have b : (e * 2 ^ 23 + r) % 2 ^ 23 = r - 2 ^ 23 := by omega
      rw [a, b, if_neg (by omega), show 2 ^ 23 + (r - 2 ^ 23) = r by omega]; rfl
    · have : r = 2 ^ 24 := by omega
      subst this
      have a : (e * 2 ^ 23 + 2 ^ 24) / 2 ^ 23 = e + 2 := by omega
      have b : (e * 2 ^ 23 + 2 ^ 24) % 2 ^ 23 = 0 := by omega
      rw [a, b, if_neg (by omega), show e + 2 - 1 = e + 1 by omega, pow_succ]; ring

/-- A magnitude is a subnormal, or 24 bits at the place its exponent gives. -/
theorem f32Mag_shape (y : F32) : (f32Exp y = 0 ∧ f32Mag y < 2 ^ 23) ∨ (1 ≤ f32Exp y ∧ ∃ m, 2 ^ 23 ≤ m ∧
    m < 2 ^ 24 ∧ f32Mag y = m * 2 ^ (f32Exp y - 1)) := by
  have hfr : f32Frac y < 2 ^ 23 := (y.extractLsb' 0 23).isLt
  unfold f32Mag
  split
  · left; exact ⟨by assumption, hfr⟩
  · right; exact ⟨by omega, 2 ^ 23 + f32Frac y, by omega, by omega, rfl⟩

/-- A magnitude is a multiple of 2 ^ e, or lies under the binade whose last place is 2 ^ e. -/
theorem f32Mag_multiple (y : F32) (e : Nat) : f32Mag y < 2 ^ (e + 23) ∨ ∃ m, f32Mag y = m * 2 ^ e := by
  rcases f32Mag_shape y with ⟨_, h⟩ | ⟨h1, m, h2, h3, h4⟩
  · left; exact h.trans_le (Nat.pow_le_pow_right (by omega) (by omega))
  · rcases Nat.lt_or_ge (f32Exp y - 1) e with h | h
    · left; rw [h4]
      calc m * 2 ^ (f32Exp y - 1) < 2 ^ 24 * 2 ^ (f32Exp y - 1) := by apply Nat.mul_lt_mul_of_pos_right h3; positivity
        _ = 2 ^ (24 + (f32Exp y - 1)) := by rw [pow_add]
        _ ≤ _ := Nat.pow_le_pow_right (by omega) (by omega)
    · right; exact ⟨m * 2 ^ (f32Exp y - 1 - e), by rw [h4, mul_assoc, ← pow_add]; congr 2; omega⟩

/-- The significand rounded at the last place of `num / den` is at least as close as any magnitude `Y`, and even where
`Y` is another as close. -/
theorem rounded_nearest (num den e r Y : Nat) (hd : 0 < den) (he : e ≠ 0 → 2 ^ (e + 23) * den ≤ num) (hr : r =
    roundHalfEven num (den * 2 ^ e))
    (hY : (Y < 2 ^ (e + 23)) ∨ ∃ m, Y = m * 2 ^ e) :
    |(r * 2 ^ e * den : Int) - num| ≤ |(Y * den : Int) - num| ∧ (|(r * 2 ^ e * den : Int) - num| =
        |(Y * den : Int) - num| → Y ≠ r * 2 ^ e → r % 2 = 0) := by
  have hD : 0 < den * 2 ^ e := by positivity
  obtain ⟨s1, s2, s3⟩ := roundHalfEven_spec num (den * 2 ^ e) hD
  rw [← hr] at s1 s2 s3
  have e1 : r * (den * 2 ^ e) = r * 2 ^ e * den := by ring
  rw [e1] at s1 s2 s3
  have hmult : ∀ m : Nat, |(r * 2 ^ e * den : Int) - num| ≤ |(m * 2 ^ e * den : Int) - num| ∧
      (|(r * 2 ^ e * den : Int) - num| = |(m * 2 ^ e * den : Int) - num| → m ≠ r → r % 2 = 0) := by
    intro m
    have key : ∀ (a b D : Nat), a = r * 2 ^ e * den → b = m * 2 ^ e * den → D = den * 2 ^ e → (m < r → b + D ≤ a) →
        (r < m → a + D ≤ b) → (m = r → a = b) → |(a : Int) - num| ≤ |(b : Int) - num| ∧ (|(a : Int) - num| =
        |(b : Int) - num| → m ≠ r → r % 2 = 0) := by
      intro a b D ha hb hD h1 h2 h3
      rw [← ha, ← hD] at s1 s2 s3
      have A := abs_cases ((a : Int) - num)
      have B := abs_cases ((b : Int) - num)
      constructor
      · rcases lt_trichotomy m r with h | h | h
        · have := h1 h; omega
        · have := h3 h; omega
        · have := h2 h; omega
      · intro heq hne
        apply s3
        rcases lt_trichotomy m r with h | h | h
        · have := h1 h; omega
        · exact absurd h hne
        · have := h2 h; omega
    have := key (r * 2 ^ e * den) (m * 2 ^ e * den) (den * 2 ^ e) rfl rfl rfl (fun h => by
        have : (m + 1) * (2 ^ e * den) ≤ r * (2 ^ e * den) := Nat.mul_le_mul_right _ h
        calc _ = (m + 1) * (2 ^ e * den) := by ring
          _ ≤ _ := this
          _ = _ := by ring) (fun h => by
        have : (r + 1) * (2 ^ e * den) ≤ m * (2 ^ e * den) := Nat.mul_le_mul_right _ h
        calc _ = (r + 1) * (2 ^ e * den) := by ring
          _ ≤ _ := this
          _ = _ := by ring) (fun h => by rw [h])
    push_cast at this; exact this
  have step : ∀ m : Nat, Y = m * 2 ^ e → |(r * 2 ^ e * den : Int) - num| ≤ |(Y * den : Int) - num| ∧
      (|(r * 2 ^ e * den : Int) - num| = |(Y * den : Int) - num| → Y ≠ r * 2 ^ e → r % 2 = 0) := by
    intro m hm
    have := hmult m
    subst hm; push_cast
    exact ⟨this.1, fun h hne => this.2 h (fun hh => hne (by rw [hh]))⟩
  rcases hY with hY | ⟨m, hm⟩
  · by_cases h0 : e = 0
    · subst h0; exact step Y (by simp)
    · have hn := he h0
      have hq := hmult (2 ^ 23)
      have hlt : Y * den < 2 ^ (e + 23) * den := Nat.mul_lt_mul_of_pos_right hY hd
      have e3 : ((2 : ℕ) ^ 23 * 2 ^ e * den) = 2 ^ (e + 23) * den := by rw [pow_add]; ring
      have : |((2 ^ 23:ℕ) * 2 ^ e * den : Int) - num| < |(Y * den : Int) - num| := by
        have : (((2 ^ 23:ℕ) * 2 ^ e * den : ℕ) : Int) = (2 ^ (e + 23) * den : ℕ) := by rw [← e3]
        push_cast at this ⊢
        rw [this]
        have a : ((2 ^ (e + 23) * den : ℕ) : Int) ≤ num := by exact_mod_cast hn
        have b : ((Y * den : ℕ) : Int) < ((2 ^ (e + 23) * den : ℕ) : Int) := by exact_mod_cast hlt
        push_cast at a b
        rw [abs_of_nonpos (by linarith), abs_of_nonpos (by linarith)]; linarith
      exact ⟨hq.1.trans this.le, fun h => by have := hq.1; omega⟩
  · exact step m hm

/-- A rounded value is never a NaN, has the sign given, and is infinite exactly when the pattern overflows. -/
theorem f32OfUnits_class (neg : Bool) (num den : Nat) :
    (f32IsInf (f32OfUnits neg num den) = true ↔ 0x7F800000 ≤
        ulpExp (num / den) * 2 ^ 23 + roundHalfEven num (den * 2 ^ ulpExp (num / den))) ∧
        f32IsNaN (f32OfUnits neg num den) = false ∧ f32Sign (f32OfUnits neg num den) = neg := by
  unfold f32OfUnits
  have hP : roundUnits num den ≤ 0x7F800000 := Nat.min_le_right _ _
  refine ⟨?_, ?_, f32Sign_pack neg hP⟩
  · unfold f32IsInf; rw [f32Exp_pack neg hP, f32Frac_pack neg hP]
    unfold roundUnits at *; dsimp only at *
    simp; omega
  · unfold f32IsNaN; rw [f32Exp_pack neg hP, f32Frac_pack neg hP]
    simp; omega

/-- A value is its magnitude with its sign. -/
theorem f32Val_eq_signed (y : F32) : f32Val y = signed (f32Sign y) (f32Mag y) := rfl

/-- A finite rounded value is the rounded significand at its last place, and the last bit is the significand's. -/
theorem f32OfUnits_val (neg : Bool) (num den : Nat) (hd : 0 < den) (hf : f32IsFinite (f32OfUnits neg num den) =
    true) :
    f32Val (f32OfUnits neg num den) =
        signed neg (roundHalfEven num (den * 2 ^ ulpExp (num / den)) * 2 ^ ulpExp (num / den)) ∧
    ((f32OfUnits neg num den).getLsbD 0 = decide (roundHalfEven num (den * 2 ^ ulpExp (num / den)) % 2 = 1)) := by
  have hi := f32OfUnits_class neg num den
  have hninf : f32IsInf (f32OfUnits neg num den) = false := by
    unfold f32IsFinite at hf; unfold f32IsInf; simp at hf ⊢; intro h; exact absurd h hf
  rw [hninf] at hi
  have hlt : ¬ 0x7F800000 ≤ ulpExp (num / den) * 2 ^ 23 + roundHalfEven num (den * 2 ^ ulpExp (num / den)) := by
    intro h; exact absurd (hi.1.mpr h) (by simp)
  have sb := significand_bounds num den hd
  have e : f32OfUnits neg num den =
      f32Pack neg (ulpExp (num / den) * 2 ^ 23 + roundHalfEven num (den * 2 ^ ulpExp (num / den))) := by
    unfold f32OfUnits roundUnits; dsimp only; rw [Nat.min_eq_left (by omega)]
  rw [f32Val_eq_signed, hi.2.2]
  rw [e, f32Mag_pack neg _ _ sb.1 sb.2 (by omega)]
  refine ⟨rfl, ?_⟩
  rw [BitVec.getLsbD, f32Pack_toNat neg (by omega), Nat.testBit_eq_decide_div_mod_eq]
  cases neg <;> simp <;> omega

/-- `rounded_nearest` with the signs of both. -/
theorem rounded_nearest_signed (neg ny : Bool) (num den e r Y : Nat) (hd : 0 < den) (he : e ≠ 0 →
    2 ^ (e + 23) * den ≤ num) (hr : r = roundHalfEven num (den * 2 ^ e))
    (hY : (Y < 2 ^ (e + 23)) ∨ ∃ m, Y = m * 2 ^ e) :
    |signed neg (r * 2 ^ e) * den - signed neg num| ≤ |signed ny Y * den - signed neg num| ∧
        (|signed neg (r * 2 ^ e) * den - signed neg num| = |signed ny Y * den - signed neg num| →
        signed ny Y ≠ signed neg (r * 2 ^ e) → r % 2 = 0) := by
  have n1 := rounded_nearest num den e r Y hd he hr hY
  have n0 := rounded_nearest num den e r 0 hd he hr (.inr ⟨0, by simp⟩)
  have a1 : ∀ (neg : Bool) (a b : Nat), |signed neg a * den - signed neg b| = |((a : Nat) : Int) * den - b| := by
    intro neg a b; cases neg
    · rfl
    · simp only [signed, if_true]; rw [← abs_neg]; congr 1; ring
  rw [a1]
  push_cast
  by_cases hs : ny = neg
  · subst hs; rw [a1]; refine ⟨n1.1, fun h hne => n1.2 h (fun hh => hne (by rw [hh]))⟩
  · have : |signed ny Y * den - signed neg num| = (Y * den : Int) + num := by
      cases ny <;> cases neg <;> simp [signed] at hs ⊢
      · positivity
      · have h1 : (0 : Int) ≤ Y * den := by positivity
        have h2 : (0 : Int) ≤ num := by positivity
        rw [abs_of_nonpos (by linarith)]; ring
    rw [this]
    have z : |((0 : ℕ):Int) * den - num| = num := by simp
    rw [z] at n0
    have hp : (0 : Int) ≤ Y * den := by positivity
    refine ⟨by linarith [n0.1], fun h hne => ?_⟩
    have hY0 : (Y * den : Int) = 0 := by linarith [n0.1]
    have hY0' : Y = 0 := by
      have : Y * den = 0 := by exact_mod_cast hY0
      rcases Nat.mul_eq_zero.mp this with h | h <;> omega
    apply n0.2 (by rw [h, hY0]; simp)
    intro hr0; apply hne; subst hY0'; rw [← hr0]; simp [signed]

/-- What one rounding does (R14): no binary32 is closer to the exact quotient,
    and where another is as close the last bit is 0. -/
theorem f32OfUnits_nearest (neg : Bool) (num den : Nat) (hd : 0 < den) (hf : f32IsFinite (f32OfUnits neg num den) =
    true) (y : F32) :
  |f32Val (f32OfUnits neg num den) * den - signed neg num| ≤ |f32Val y * den - signed neg num| ∧
  (|f32Val (f32OfUnits neg num den) * den - signed neg num| = |f32Val y * den - signed neg num| →
      f32Val y ≠ f32Val (f32OfUnits neg num den) → (f32OfUnits neg num den).getLsbD 0 = false) := by
  obtain ⟨h1, h2⟩ := f32OfUnits_val neg num den hd hf
  rw [h1, h2, f32Val_eq_signed y]
  have ub := ulpExp_bounds (num / den)
  have := rounded_nearest_signed neg (f32Sign y) num den _ _ (f32Mag y) hd
    (fun h => (Nat.le_div_iff_mul_le hd).mp (ub.2 h)) rfl (f32Mag_multiple y _)
  exact ⟨this.1, fun h hne => by have := this.2 h hne; simp; omega⟩

/-- A finite pattern is neither a NaN nor an infinity. -/
theorem f32IsFinite_class (a : F32) (h : f32IsFinite a = true) : f32IsNaN a = false ∧ f32IsInf a = false := by
  unfold f32IsFinite at h; unfold f32IsNaN f32IsInf; simp at *; exact ⟨fun h' => absurd h' h, fun h' => absurd h' h⟩

/-- The pattern reaches the infinity exactly from the midpoint past the largest finite value. -/
theorem roundUnits_overflow (num den e : Nat) (hd : 0 < den) (hb1 : num < den * 2 ^ (e + 24)) (hb2 : e ≠ 0 →
    2 ^ (e + 23) * den ≤ num) :
    0x7F800000 ≤ e * 2 ^ 23 + roundHalfEven num (den * 2 ^ e) ↔ (2 ^ 25 - 1) * 2 ^ 252 * den ≤ num := by
  have sbr : roundHalfEven num (den * 2 ^ e) ≤ 2 ^ 24 := by
    apply roundHalfEven_le _ _ _ (by positivity)
    have e2 : 2 ^ 24 * (den * 2 ^ e) = den * 2 ^ (e + 24) := by rw [pow_add]; ring
    rw [e2]; exact hb1.le
  have sbl : e ≠ 0 → 2 ^ 23 ≤ roundHalfEven num (den * 2 ^ e) := fun h => by
    apply le_roundHalfEven _ _ _ (by positivity)
    have e2 : 2 ^ 23 * (den * 2 ^ e) = 2 ^ (e + 23) * den := by rw [pow_add]; ring
    rw [e2]; exact hb2 h
  rcases lt_trichotomy e 253 with h | h | h
  · constructor
    · intro; omega
    · intro hh
      exfalso
      have h1 : den * 2 ^ (e + 24) ≤ den * (2 ^ 24 * 2 ^ 252) :=
          Nat.mul_le_mul_left _ (by
        rw [pow_add, Nat.mul_comm]; exact Nat.mul_le_mul_left _ (Nat.pow_le_pow_right (by omega) (by omega)))
      omega
  · subst h
    obtain ⟨s1, s2, s3⟩ := roundHalfEven_spec num (den * 2 ^ 253) (by positivity)
    generalize roundHalfEven num (den * 2 ^ 253) = r at *
    constructor
    · intro hh; have : r = 2 ^ 24 := by omega
      subst this; omega
    · intro hh
      by_contra hc
      have hr : r ≤ 2 ^ 24 - 1 := by omega
      have : r * (den * 2 ^ 253) ≤ (2 ^ 24 - 1) * (den * 2 ^ 253) := Nat.mul_le_mul_right _ hr
      rcases Nat.lt_or_ge r (2 ^ 24 - 1) with h' | h'
      · have : (r + 1) * (den * 2 ^ 253) ≤ (2 ^ 24 - 1) * (den * 2 ^ 253) := Nat.mul_le_mul_right _ h'
        rw [Nat.add_mul] at this; omega
      · have : r = 2 ^ 24 - 1 := by omega
        subst this
        have := s3 (.inr (by omega))
        omega
  · constructor
    · intro hh
      have h2 := hb2 (by omega)
      have h3 : 2 ^ 254 ≤ 2 ^ e := Nat.pow_le_pow_right (by omega) (by omega)
      have h4 : 2 ^ 25 * 2 ^ 252 * den ≤ 2 ^ (e + 23) * den := Nat.mul_le_mul_right _ (by rw [pow_add]; omega)
      omega
    · intro hh; have := sbl (by omega); omega

/-- When a rounded value is infinite (R14). -/
theorem f32OfUnits_isInf (neg : Bool) (num den : Nat) (hd : 0 < den) : f32IsInf (f32OfUnits neg num den) = true ↔
    (2 ^ 25 - 1) * 2 ^ 252 * den ≤ num := by
  rw [(f32OfUnits_class neg num den).1]
  have ub := ulpExp_bounds (num / den)
  apply roundUnits_overflow _ _ _ hd
  · rw [Nat.mul_comm]; exact (Nat.div_lt_iff_lt_mul hd).mp ub.1
  · intro h; exact (Nat.le_div_iff_mul_le hd).mp (ub.2 h)

end Sys2Proof.Machine
end

