-- ==== Sys2Proof/Laws/Meanings.lean ====
section
/-!
SUPPORT. What each meaning can do, once: when it answers a next state and which one (the inversion lemmas the
invariants are derived from). Guards are part of each lemma.
-/

namespace Sys2Proof.Machine

variable {s t : State}

/-! ## Enabling conditions, unfolded once -/

theorem enabled_acqSample {v : Sample} :
    enabled (.acqSample v) s = true ↔ s.mode = .run ∧ s.wptr < s.cfg.params.hopSize := by simp [enabled]

theorem enabled_acqDone : enabled .acqDone s = true ↔ s.mode = .run ∧ s.wptr = s.cfg.params.hopSize := by
  simp [enabled]

theorem enabled_seqCheck : enabled .seqCheck s = true ↔ s.mode = .run ∧ s.seqPc = .check := by simp [enabled]

theorem enabled_anIngest : enabled .anIngest s = true ↔ s.mode = .run ∧ s.seqPc = .ingest := by simp [enabled]

theorem enabled_anCompute : enabled .anCompute s = true ↔ s.mode = .run ∧ s.seqPc = .compute := by simp [enabled]

theorem enabled_poolAcquire : enabled .poolAcquire s = true ↔ s.mode = .run ∧ s.seqPc = .acquire := by
  simp [enabled]

theorem enabled_synFill : enabled .synFill s = true ↔ s.mode = .run ∧ s.seqPc = .fill := by simp [enabled]

theorem enabled_poolRelease : enabled .poolRelease s = true ↔ s.mode = .run ∧ s.seqPc = .release := by
  simp [enabled]

theorem enabled_outTake : enabled .outTake s = true ↔ s.mode = .run ∧ s.playing = none ∧ s.queue ≠ [] := by
  simp [enabled]

theorem enabled_outDone : enabled .outDone s = true ↔ s.mode = .run ∧ s.playing ≠ none := by simp [enabled]

theorem enabled_init {ok : Bool} : enabled (.init ok) s = true ↔ s.mode = .init ∧ s.seqPc = .init := by
  simp [enabled]

@[simp] theorem enabled_csrRead {off : BitVec 8} : enabled (.csrRead off) s = true := rfl

@[simp] theorem enabled_csrWrite {off : BitVec 8} {data : Word} : enabled (.csrWrite off data) s = true := rfl

@[simp] theorem enabled_reset : enabled .reset s = true := rfl

/-! ## Acquisition -/

theorem execAcqSample_next {v : Sample} : execAcqSample v s = .next t ↔
    (s.mode = .run ∧ s.wptr < s.cfg.params.hopSize) ∧ s.wptr < (s.acqBuf.get s.active).length ∧
      t = { s with
        acqBuf := s.acqBuf.set s.active ((s.acqBuf.get s.active).set s.wptr v)
        wptr := s.wptr + 1 } := by
  unfold execAcqSample
  rw [whenEnabled_next, enabled_acqSample]
  refine and_congr_right fun _ => ?_
  cases h : writeCell (s.acqBuf.get s.active) s.wptr v with
  | none => simp [writeCell_eq_none.mp h]
  | some buf =>
    obtain ⟨hlt, rfl⟩ := writeCell_eq_some.mp h
    simp [hlt, eq_comm]

theorem execAcqDone_next : execAcqDone s = .next t ↔
    (s.mode = .run ∧ s.wptr = s.cfg.params.hopSize) ∧
      t = { s with
        ovrDrop := ovrDropAfterDone s
        ovrRead := ovrReadAfterDone s
        active := other s.active
        wptr := 0
        ready := true } := by
  unfold execAcqDone
  rw [whenEnabled_next, enabled_acqDone]
  simp [eq_comm]

theorem execSeqCheck_next : execSeqCheck s = .next t ↔
    (s.mode = .run ∧ s.seqPc = .check) ∧
      ((s.ready = true ∧
          t = { s with ready := false, consIdx := other s.active, ingestPtr := 0, seqPc := .ingest }) ∨
        (s.ready = false ∧ t = { s with seqPc := .acquire })) := by
  unfold execSeqCheck
  rw [whenEnabled_next, enabled_seqCheck]
  refine and_congr_right fun _ => ?_
  cases h : s.ready <;> simp [eq_comm]

theorem execAnIngest_next : execAnIngest s = .next t ↔
    (s.mode = .run ∧ s.seqPc = .ingest) ∧ s.ingestPtr < s.stage.length ∧
      ∃ v, (s.acqBuf.get s.consIdx)[s.ingestPtr]? = some v ∧
        t = { s with
          stage := s.stage.set s.ingestPtr v
          ingestPtr := s.ingestPtr + 1
          seqPc := if s.ingestPtr + 1 = s.cfg.params.hopSize then .compute else s.seqPc } := by
  unfold execAnIngest
  rw [whenEnabled_next, enabled_anIngest]
  refine and_congr_right fun _ => ?_
  cases hv : (s.acqBuf.get s.consIdx)[s.ingestPtr]? with
  | none => simp
  | some v =>
    by_cases hlt : s.ingestPtr < s.stage.length
    · simp only [writeCell, hlt, if_true, true_and, Option.some.injEq, exists_eq_left', Host.Outcome.next.injEq]
      exact eq_comm
    · simp [writeCell, hlt]

/-! ## Analysis and synthesis -/

theorem execAnCompute_next : execAnCompute s = .next t ↔
    (s.mode = .run ∧ s.seqPc = .compute) ∧
      t = { s with
        win := slideAppend s.cfg.params s.win s.stage
        bins := updateBins s.cfg.params s.guardR.toNat
          (magnitudes s.cfg.params (slideAppend s.cfg.params s.win s.stage)) s.bins
        seqPc := .acquire } := by
  unfold execAnCompute
  rw [whenEnabled_next, enabled_anCompute]
  simp [eq_comm]

theorem execSynFill_next : execSynFill s = .next t ↔
    (s.mode = .run ∧ s.seqPc = .fill) ∧
      ∃ b, s.curBuf = some b ∧
        t = { s with
          bins := (synBins s.cfg.params s.wave (base s.waveCfg) (tbits s.waveCfg) s.bins
            (List.replicate s.cfg.params.blockLen 0#32)).1
          mix := (synBins s.cfg.params s.wave (base s.waveCfg) (tbits s.waveCfg) s.bins
            (List.replicate s.cfg.params.blockLen 0#32)).2
          pbuf := s.pbuf.set b (stereoBlock (synBins s.cfg.params s.wave (base s.waveCfg) (tbits s.waveCfg) s.bins
            (List.replicate s.cfg.params.blockLen 0#32)).2)
          seqPc := .release } := by
  unfold execSynFill
  rw [whenEnabled_next, enabled_synFill]
  refine and_congr_right fun _ => ?_
  cases h : s.curBuf <;> simp [eq_comm]

/-! ## Pool -/

theorem execPoolAcquire_next : execPoolAcquire s = .next t ↔
    (s.mode = .run ∧ s.seqPc = .acquire) ∧
      ((∃ b, firstFree s.pstate = some b ∧
          t = { s with pstate := s.pstate.set b .filling, curBuf := some b, seqPc := .fill }) ∨
        (firstFree s.pstate = none ∧ t = { s with curBuf := none, seqPc := .check })) := by
  unfold execPoolAcquire
  rw [whenEnabled_next, enabled_poolAcquire]
  refine and_congr_right fun _ => ?_
  cases h : firstFree s.pstate <;> simp [eq_comm]

theorem execPoolRelease_next : execPoolRelease s = .next t ↔
    (s.mode = .run ∧ s.seqPc = .release) ∧
      ∃ b, s.curBuf = some b ∧
        t = { s with
          pstate := s.pstate.set b .queued
          queue := s.queue ++ [b]
          curBuf := none
          seqPc := .check } := by
  unfold execPoolRelease
  rw [whenEnabled_next, enabled_poolRelease]
  refine and_congr_right fun _ => ?_
  cases h : s.curBuf <;> simp [eq_comm]

theorem execOutTake_next : execOutTake s = .next t ↔
    (s.mode = .run ∧ s.playing = none) ∧
      ∃ b rest, s.queue = b :: rest ∧
        t = { s with queue := rest, pstate := s.pstate.set b .playing, playing := some b } := by
  unfold execOutTake
  rw [whenEnabled_next, enabled_outTake]
  cases h : s.queue with
  | nil => simp
  | cons b rest => simp [eq_comm, and_assoc]

theorem execOutDone_next : execOutDone s = .next t ↔
    s.mode = .run ∧
      ∃ b, s.playing = some b ∧
        t = { s with
          outLog := s.outLog ++ [s.pbuf.get b]
          pstate := s.pstate.set b .free
          playing := none } := by
  unfold execOutDone
  rw [whenEnabled_next, enabled_outDone]
  cases h : s.playing <;> simp [eq_comm]

/-- `firstFree` answers a FREE buffer with every lesser one taken, or none when all are taken (R231). -/
theorem firstFree_eq_some {p : Three BufState} {b : BufId} :
    firstFree p = some b ↔ p.get b = .free ∧ ∀ c, c < b → p.get c ≠ .free := by
  obtain ⟨x, y, z⟩ := p
  match b with
  | 0 => cases x <;> cases y <;> cases z <;> decide
  | 1 => cases x <;> cases y <;> cases z <;> decide
  | 2 => cases x <;> cases y <;> cases z <;> decide

theorem firstFree_eq_none {p : Three BufState} : firstFree p = none ↔ ∀ b, p.get b ≠ .free := by
  obtain ⟨x, y, z⟩ := p
  cases x <;> cases y <;> cases z <;> decide

/-! ## Control -/

theorem execInit_next {ok : Bool} : execInit ok s = .next t ↔
    (s.mode = .init ∧ s.seqPc = .init) ∧
      ((ok = true ∧
          t = { s with
            bins := s.bins.mapIdx fun k b => { b with phaseIncrement := phaseIncrement s.cfg.params k }
            guardR := guardRadius s.cfg.params
            mode := .run
            seqPc := .check }) ∨
        (ok = false ∧ t = { s with mode := .halted })) := by
  unfold execInit
  rw [whenEnabled_next, enabled_init]
  refine and_congr_right fun _ => ?_
  cases ok <;> simp [eq_comm]

theorem execReset_next : execReset s = .next t ↔ t = resetState s := by
  unfold execReset
  rw [whenEnabled_next]
  simp [eq_comm]

theorem execCsrRead_next {off : BitVec 8} : execCsrRead off s = .next t ↔
    offsetAligned off = true ∧ t = emit (csrValue s (csrOffset off)) s := by
  unfold execCsrRead
  rw [whenEnabled_next]
  cases h : offsetAligned off <;> simp [eq_comm]

theorem execCsrWrite_next {off : BitVec 8} {data : Word} : execCsrWrite off data s = .next t ↔
    offsetAligned off = true ∧
      t = { s with waveCfg := if csrOffset off = 0x04 ∧ waveCfgLegal data then data else s.waveCfg } := by
  unfold execCsrWrite
  rw [whenEnabled_next]
  cases ha : offsetAligned off with
  | false => simp
  | true =>
    simp only [enabled_csrWrite, if_true, true_and]
    by_cases h : csrOffset off = 0x04 ∧ waveCfgLegal data
    · simp only [if_pos h, Host.Outcome.next.injEq]
      exact eq_comm
    · simp only [if_neg h, Host.Outcome.next.injEq]
      exact eq_comm

/-! ## A step -/

/-- A step that answers a next state runs the operation of a program line, or the operation or the ignored word of the
host port, on the state with its turn taken. -/
theorem step_next (h : step s = .next t) :
    (∃ words rest i, s.sched = .line words :: rest ∧ fetchLine words = .ok i ∧ exec i { s with sched := rest } = .next t) ∨
    (∃ rest hostIn i, s.sched = .port :: rest ∧ i.agent = .host ∧
      exec i { s with sched := rest, hostIn := hostIn } = .next t) ∨
    (∃ rest hostIn, s.sched = .port :: rest ∧ t = { s with sched := rest, hostIn := hostIn }) := by
  unfold step at h
  split at h
  · cases h
  · rename_i words rest hs
    split at h
    · exact .inl ⟨words, rest, _, hs, ‹_›, h⟩
    · cases h
  · rename_i rest hs
    unfold execHostPort at h
    split at h
    · cases h
    · split at h
      · exact .inr (.inr ⟨rest, _, hs, by simpa using h.symm⟩)
      · split at h <;> first
          | exact .inr (.inl ⟨rest, _, .csrRead _, hs, rfl, h⟩)
          | exact .inr (.inl ⟨rest, _, .csrWrite _ _, hs, rfl, h⟩)
          | exact .inr (.inl ⟨rest, _, .reset, hs, rfl, h⟩)
          | exact .inr (.inr ⟨rest, _, hs, by simpa using h.symm⟩)

/-- A property of states that no operation breaks and that reads neither the schedule nor the host's words is kept by
every step. -/
theorem step_keeps {P : State → Prop} (henv : ∀ s sched hostIn, P s → P { s with sched := sched, hostIn := hostIn })
    (hexec : ∀ i s t, P s → exec i s = .next t → P t) (hs : P s) (h : step s = .next t) : P t := by
  rcases step_next h with ⟨_, rest, i, _, _, h⟩ | ⟨rest, hostIn, i, _, _, h⟩ | ⟨rest, hostIn, _, rfl⟩
  · exact hexec i _ t (henv s rest s.hostIn hs) h
  · exact hexec i _ t (henv s rest hostIn hs) h
  · exact henv s rest hostIn hs

end Sys2Proof.Machine
end

