-- ==== Sys2Proof/Laws/PerInstr.lean ====
section
/-!
SUPPORT. Statements for all instructions, one lemma a constructor.
-/

namespace Sys2Proof.Laws.EncodedLength

/-- The number of words of an operation is told from `OP` of its first word alone (spec/30_encoding.md R110, R120). -/
def Statement (i : Instr) : Prop := ∃ w ws, encode i = w :: ws ∧ (encode i).length = opLength w

/-- `OP` of a word built from it. -/
theorem opField_append (op : BitVec 4) (low : BitVec 28) : opField (op ++ low) = op :=
  BitVec.extractLsb'_append_eq_left

theorem acqSample (v : Sample) : Statement (.acqSample v) := by
  refine ⟨_, _, rfl, ?_⟩
  rw [opLength, show (0x1#4 ++ 0#12 ++ v : Word) = 0x1#4 ++ (0#12 ++ v) from BitVec.append_assoc, opField_append]
  rfl

theorem acqDone : Statement .acqDone := ⟨_, _, rfl, by decide⟩

theorem seqCheck : Statement .seqCheck := ⟨_, _, rfl, by decide⟩

theorem anIngest : Statement .anIngest := ⟨_, _, rfl, by decide⟩

theorem anCompute : Statement .anCompute := ⟨_, _, rfl, by decide⟩

theorem poolAcquire : Statement .poolAcquire := ⟨_, _, rfl, by decide⟩

theorem synFill : Statement .synFill := ⟨_, _, rfl, by decide⟩

theorem poolRelease : Statement .poolRelease := ⟨_, _, rfl, by decide⟩

theorem outTake : Statement .outTake := ⟨_, _, rfl, by decide⟩

theorem outDone : Statement .outDone := ⟨_, _, rfl, by decide⟩

theorem csrRead (off : BitVec 8) : Statement (.csrRead off) := by
  refine ⟨_, _, rfl, ?_⟩
  rw [opLength, show (0xB#4 ++ 0#20 ++ off : Word) = 0xB#4 ++ (0#20 ++ off) from BitVec.append_assoc, opField_append]
  rfl

theorem csrWrite (off : BitVec 8) (data : Word) : Statement (.csrWrite off data) := by
  refine ⟨_, _, rfl, ?_⟩
  rw [opLength, show (0xC#4 ++ 0#20 ++ off : Word) = 0xC#4 ++ (0#20 ++ off) from BitVec.append_assoc, opField_append]
  rfl

theorem init (ok : Bool) : Statement (.init ok) := by
  refine ⟨_, _, rfl, ?_⟩
  cases ok <;> decide

theorem reset : Statement .reset := ⟨_, _, rfl, by decide⟩

end Sys2Proof.Laws.EncodedLength
end

