-- ==== Sys2Proof/Laws/Runs.lean ====
section
/-!
SUPPORT. Runs of operations (spec/30_encoding.md R124), taken apart at the end, and what each operation leaves alone.
-/

namespace Sys2Proof.Machine

/-- A run of one more operation. -/
theorem runOps_snoc {ops : List Instr} {i : Instr} {s u : State} :
    runOps (ops ++ [i]) s = .next u ↔ ∃ t, runOps ops s = .next t ∧ exec i t = .next u := by
  induction ops generalizing s with
  | nil =>
    simp only [List.nil_append, runOps]
    cases h : exec i s <;> simp [h]
  | cons j ops ih =>
    simp only [List.cons_append, runOps]
    cases h : exec j s <;> simp [ih]

/-- A property no operation breaks holds at the end of a run. -/
theorem runOps_keeps {P : State → Prop} (hexec : ∀ i s t, P s → exec i s = .next t → P t) {ops : List Instr}
    {s t : State} (h : runOps ops s = .next t) (hs : P s) : P t := by
  induction ops generalizing s with
  | nil =>
    simp only [runOps, Host.Outcome.next.injEq] at h
    exact h ▸ hs
  | cons j ops ih =>
    simp only [runOps] at h
    split at h
    · exact ih h (hexec _ _ _ hs ‹_›)
    · cases h
    · cases h

/-- A property no step breaks, and power-on has, holds in every reachable state. -/
theorem reachable_keeps {P : State → Prop}
    (hpow : ∀ cfg wave sched hostIn, wave.wf → P { State.powerOn cfg wave with sched := sched, hostIn := hostIn })
    (hstep : ∀ s t, P s → step s = .next t → P t) {s : State} (h : Reachable s) : P s := by
  induction h with
  | powerOn cfg wave hw sched hostIn => exact hpow cfg wave sched hostIn hw
  | step _ h ih => exact hstep _ _ ih h

theorem deliveredSamples_append (a b : List Instr) :
    deliveredSamples (a ++ b) = deliveredSamples a ++ deliveredSamples b := by
  simp [deliveredSamples]

end Sys2Proof.Machine
end

