-- ==== Sys2Proof/Laws/Synthesis.lean ====
section
/-!
SUPPORT. What the loops of SYN_FILL do, once (spec/42_synthesis.md R201, R203 to R211): one lane, the bin loop, and the
interleaved block.
-/

namespace Sys2Proof.Machine

variable (p : Params) (wave : Memory) (bs : BitVec 27) (tb : Nat)

/-- One sample of a lane, then the rest. -/
theorem synLane_cons (target : Sample) (inc m : Word) (mix : List Word) (s : F32) (ph : Word) :
    synLane p wave bs tb target inc (m :: mix) s ph =
      (wrapI32 (m.toInt + contribution p (waveRead wave (waveAddress bs (tableIndex ph tb))) (follow p s target)) ::
        (synLane p wave bs tb target inc mix (follow p s target) (ph + inc)).1,
        (synLane p wave bs tb target inc mix (follow p s target) (ph + inc)).2) := rfl

theorem synLane_length (target : Sample) (inc : Word) (mix : List Word) (s : F32) (ph : Word) :
    (synLane p wave bs tb target inc mix s ph).1.length = mix.length := by
  induction mix generalizing s ph with
  | nil => rfl
  | cons m mix ih => rw [synLane_cons, List.length_cons, List.length_cons, ih]

/-- The phase advances by the increment, once a sample (R208). -/
theorem phase_advance (inc ph : Word) (i : Nat) :
    ph + inc + BitVec.ofNat 32 i * inc = ph + BitVec.ofNat 32 (i + 1) * inc := by
  rw [BitVec.ofNat_add, BitVec.add_assoc, BitVec.add_mul, BitVec.add_comm inc, BitVec.one_mul]

/-- The follower state and the phase after a lane. -/
theorem synLane_snd (target : Sample) (inc : Word) (mix : List Word) (s : F32) (ph : Word) :
    (synLane p wave bs tb target inc mix s ph).2 =
      ((fun a => follow p a target)^[mix.length] s, ph + BitVec.ofNat 32 mix.length * inc) := by
  induction mix generalizing s ph with
  | nil => simp [synLane]
  | cons m mix ih => rw [synLane_cons, ih, List.length_cons, Function.iterate_succ_apply, phase_advance]

/-- The mix cells after a lane. The follower is any function equal to it, so that no proof unfolds it. -/
theorem synLane_fst (target : Sample) (inc : Word) (f : F32 → F32) (hf : ∀ a, follow p a target = f a)
    (mix : List Word) (s : F32) (ph : Word) (i : Nat) :
    (synLane p wave bs tb target inc mix s ph).1[i]? = (mix[i]?).map fun m =>
      wrapI32 (m.toInt + contribution p
        (waveRead wave (waveAddress bs (tableIndex (ph + BitVec.ofNat 32 i * inc) tb))) (f^[i + 1] s)) := by
  induction mix generalizing s ph i with
  | nil => simp [synLane]
  | cons m mix ih =>
    rw [synLane_cons, hf]
    cases i with
    | zero => simp
    | succ i =>
      rw [List.getElem?_cons_succ, List.getElem?_cons_succ, ih, phase_advance, ← Function.iterate_succ_apply f]

/-- The bin loop keeps the number of bins and of mix cells. -/
theorem synBins_length (bins : List Bin) (mix : List Word) :
    (synBins p wave bs tb bins mix).1.length = bins.length ∧
      (synBins p wave bs tb bins mix).2.length = mix.length := by
  induction bins generalizing mix with
  | nil => exact ⟨rfl, rfl⟩
  | cons b bins ih =>
    unfold synBins
    split
    · simp [ih, synLane_length]
    · simp [ih]

/-- The bin loop writes the Synthesis fields only (R46, R209, R213). -/
theorem synBins_frame {bins : List Bin} {mix : List Word} {k : Nat} {c : Bin}
    (h : (synBins p wave bs tb bins mix).1[k]? = some c) :
    ∃ b s ph, bins[k]? = some b ∧ c = { b with smoothedAmplitude := s, phaseAccumulator := ph } := by
  induction bins generalizing mix k with
  | nil => simp [synBins] at h
  | cons b bins ih =>
    unfold synBins at h
    split at h <;> cases k with
    | zero =>
      simp only [List.getElem?_cons_zero, Option.some.injEq] at h
      exact ⟨b, _, _, rfl, h.symm⟩
    | succ k => simpa using ih (by simpa using h)

/-- Wrapping a sum a term at a time is wrapping it once (R207: "associative and commutative"). -/
theorem wrapI32_add (m c d : Int) : wrapI32 ((wrapI32 (m + c)).toInt + d) = wrapI32 (m + (c + d)) := by
  unfold wrapI32
  rw [← add_assoc, BitVec.ofInt_add (m + c) d, BitVec.ofInt_add (BitVec.toInt _) d, BitVec.ofInt_toInt]

/-- The block has two words a frame, both the limited mix (R211). -/
theorem stereoBlock_length (mix : List Word) : (stereoBlock mix).length = 2 * mix.length := by
  induction mix with
  | nil => rfl
  | cons m mix ih =>
    rw [show stereoBlock (m :: mix) = limit m :: limit m :: stereoBlock mix from rfl]
    simp only [List.length_cons, ih]
    omega

theorem stereoBlock_getElem? (mix : List Word) (i : Nat) :
    (stereoBlock mix)[2 * i]? = (mix[i]?).map limit ∧ (stereoBlock mix)[2 * i + 1]? = (mix[i]?).map limit := by
  induction mix generalizing i with
  | nil => simp [stereoBlock]
  | cons m mix ih =>
    rw [show stereoBlock (m :: mix) = limit m :: limit m :: stereoBlock mix from rfl]
    cases i with
    | zero => simp
    | succ i =>
      rw [show 2 * (i + 1) = 2 * i + 1 + 1 by ring]
      simp only [List.getElem?_cons_succ]
      exact ih i

end Sys2Proof.Machine
end

