-- ==== Sys2Proof/Tests/Slice0.lean ====
section
/-!
SUPPORT. The model's own tests: named theorems on fixed values, each expected result taken from the spec place its
comment names (spec/95_test_vectors.md: V-…; worked examples of the rules: R…), then one witness for every statement that
has hypotheses.
-/

namespace Sys2Proof.Tests

open Sys2Proof Sys2Proof.Machine

/-! ## Helpers -/

/-- The step went on. -/
def went (o : Host.Outcome State Fault Refusal) : Bool :=
  match o with
  | .next _ => true
  | .fault _ => false
  | .refused _ => false

/-- The next state (the reset state where there is none). -/
def nextOf (o : Host.Outcome State Fault Refusal) : State :=
  match o with
  | .next t => t
  | .fault _ => State.reset
  | .refused _ => State.reset

/-- The step was refused for this reason. -/
def refusedWith (o : Host.Outcome State Fault Refusal) (r : Refusal) : Bool :=
  match o with
  | .next _ => false
  | .fault _ => false
  | .refused q => decide (q = r)

theorem went_next {o : Host.Outcome State Fault Refusal} (h : went o = true) : o = .next (nextOf o) := by
  cases o with
  | next t => rfl
  | fault f => cases h
  | refused r => cases h

/-- TC1 after `init 1`. -/
def booted : State := nextOf (exec (.init true) State.reset)

/-- TC1 in RUN at a place of the microprogram. -/
def at_ (pc : SeqPc) : State := { booted with seqPc := pc }

/-- TC1 at FILL with buffer 0 filling and the given bins changed. -/
def filling (f : List Bin → List Bin) : State :=
  { booted with seqPc := .fill, curBuf := some 0, pstate := ⟨.filling, .free, .free⟩, bins := f booted.bins }

/-! ## WellFormed: the one check, an ill-formed term each (R84, R115, R116) -/

theorem test_wf_refuses_misaligned_read : Instr.wf (.csrRead 0x05#8) = false := by decide

theorem test_wf_refuses_misaligned_write : Instr.wf (.csrWrite 0x06#8 0#32) = false := by decide

/-! ## Decoding: V-E1 to V-E13, every constructor -/

theorem test_decode_acqSample : decode [0x1000C000#32] = .ok (.acqSample 0xC000#16, []) := by decide

theorem test_decode_acqDone : decode [0x20000000#32] = .ok (.acqDone, []) := by decide

theorem test_decode_seqCheck : decode [0x30000000#32] = .ok (.seqCheck, []) := by decide

theorem test_decode_anIngest : decode [0x40000000#32] = .ok (.anIngest, []) := by decide

theorem test_decode_anCompute : decode [0x50000000#32] = .ok (.anCompute, []) := by decide

theorem test_decode_poolAcquire : decode [0x60000000#32] = .ok (.poolAcquire, []) := by decide

theorem test_decode_synFill : decode [0x70000000#32] = .ok (.synFill, []) := by decide

theorem test_decode_poolRelease : decode [0x80000000#32] = .ok (.poolRelease, []) := by decide

theorem test_decode_outTake : decode [0x90000000#32] = .ok (.outTake, []) := by decide

theorem test_decode_outDone : decode [0xA0000000#32] = .ok (.outDone, []) := by decide

theorem test_decode_csrRead : decode [0xB000000C#32] = .ok (.csrRead 12#8, []) := by decide

theorem test_decode_csrWrite : decode [0xC0000004#32, 0x00000103#32] = .ok (.csrWrite 4#8 259#32, []) := by decide

theorem test_decode_init : decode [0xD0000001#32] = .ok (.init true, []) ∧ decode [0xD0000000#32] = .ok (.init false, []) := by
  decide

theorem test_decode_reset : decode [0xE0000000#32] = .ok (.reset, []) := by decide

/-- V-E3, V-E5, V-E8, V-E11: a must-be-zero field that is not zero. -/
theorem test_decode_rejects_fields :
    decode [0x1001FFFF#32] = .error .nonZeroField ∧ decode [0x20000001#32] = .error .nonZeroField ∧
      decode [0xB0000100#32] = .error .nonZeroField ∧ decode [0xD0000002#32] = .error .nonZeroField := by decide

/-- V-E7, V-E13, R121 (no data word). -/
theorem test_decode_rejects_words :
    decode [0xB0000005#32] = .error .misalignedOffset ∧ decode [0x00000000#32] = .error .reservedOp ∧
      decode [0xF0000000#32] = .error .reservedOp ∧ decode [0x0FFFFFFF#32] = .error .reservedOp ∧
      decode [0xFFFFFFFF#32] = .error .reservedOp ∧ decode [0xC0000004#32] = .error .missingData := by decide

/-- R118: no two rows of the operation map overlap. -/
theorem test_opcodeTable_disjoint :
    opcodeTable.Pairwise fun a b => (a.pattern ^^^ b.pattern) &&& (a.mask &&& b.mask) ≠ 0#32 := by decide

/-- The table's numbering: the second word's bits count on from the first's (R116). -/
theorem test_decodeTableWord_two_words :
    decodeTableWord 64 0x00000103C0000004 = some (.csrWrite 4#8 259#32) ∧
      decodeTableWord 32 0xC0000004 = some (.csrWrite 4#8 0#32) ∧ decodeTableWord 32 0xB0000005 = none := by decide

/-! ## Acquisition -/

/-- V-A1. -/
theorem test_acqSample_stores :
    let t := nextOf (exec (.acqSample 0x8000#16) { booted with wptr := 2 })
    t.wptr = 3 ∧ t.acqBuf.b0 = [0#16, 0#16, 0x8000#16, 0#16] := by decide

/-- V-A2, V-A10. -/
theorem test_acqSample_not_enabled :
    refusedWith (exec (.acqSample 0#16) { booted with wptr := 4 }) (.notEnabled (.acqSample 0#16)) = true ∧
      refusedWith (exec (.acqSample 1#16) State.reset) (.notEnabled (.acqSample 1#16)) = true := by decide

/-- V-A3. -/
theorem test_acqDone_swaps :
    let t := nextOf (exec .acqDone { booted with wptr := 4 })
    t.active = 1 ∧ t.wptr = 0 ∧ t.ready = true ∧ statusWord t = 0x53#32 := by decide

/-- V-A4, V-A5, V-A6: a dropped block, a read overrun, both. -/
theorem test_acqDone_overruns :
    let drop := nextOf (exec .acqDone { at_ .acquire with wptr := 4, ready := true })
    let race := nextOf (exec .acqDone { at_ .ingest with wptr := 4 })
    let both := nextOf (exec .acqDone { at_ .ingest with wptr := 4, ready := true })
    (drop.ovrRead, drop.ovrDrop) = (false, true) ∧ (race.ovrRead, race.ovrDrop) = (true, false) ∧
      (both.ovrRead, both.ovrDrop) = (true, true) := by decide

/-- V-A7. -/
theorem test_seqCheck_takes :
    let t := nextOf (exec .seqCheck { booted with ready := true, active := 1, ingestPtr := 4, consIdx := 1 })
    t.ready = false ∧ t.consIdx = 0 ∧ t.ingestPtr = 0 ∧ t.seqPc = .ingest := by decide

/-- V-A8. -/
theorem test_seqCheck_idle : nextOf (exec .seqCheck booted) = { booted with seqPc := .acquire } := by decide +kernel

/-- V-A9. -/
theorem test_anIngest_last :
    let t := nextOf (exec .anIngest { at_ .ingest with ingestPtr := 3, stage := [1#16, 2#16, 3#16, 4#16] })
    t.stage = [1#16, 2#16, 3#16, 0#16] ∧ t.ingestPtr = 4 ∧ t.seqPc = .compute := by decide

/-- Program P3: the copy of a sample written after the block was taken (R146). -/
theorem test_anIngest_race :
    let t := nextOf (exec .anIngest { at_ .ingest with ingestPtr := 1, acqBuf := ⟨[9#16, 10#16, 3#16, 4#16], [5#16, 6#16, 7#16, 8#16]⟩ })
    t.stage.take 2 = [0#16, 10#16] ∧ t.seqPc = .ingest := by decide

/-! ## Analysis -/

/-- V-6.1: three rows, the clamp among them. -/
theorem test_normalise :
    normalise tc1Params 0x7FFF#16 = 0x3F7FFE00#32 ∧ normalise tc1Params 0x8000#16 = 0xBF800000#32 ∧
      normalise { tc1Params with adcBias := 0xFFFFFFFE#32 } 0x7FFF#16 = 0x3F800000#32 ∧
      normalise { tc1Params with adcBias := 2048#32, adcHalfRange := 2048#32 } 0x0FFF#16 = 0x3F7FE000#32 := by
  decide +kernel

/-- R166: the sixteen values of S = 4. -/
theorem test_bitrev : (List.range 16).map (bitrev 4) = [0, 8, 4, 12, 2, 10, 6, 14, 1, 9, 5, 13, 3, 11, 7, 15] := by decide

/-- V-F1: the impulse, and V-F3: the cosine of bin 4, with their magnitudes. -/
theorem test_fft :
    ((fftRef tc1Tw 4 (0x3F800000#32 :: List.replicate 15 0#32)).map (magnitude tc1Params)).take 8
        = List.replicate 8 0x3E000000#32 ∧
      ((fftRef tc1Tw 4 (List.replicate 4 [0x3F800000#32, 0#32, 0xBF800000#32, 0#32]).flatten).map
          (magnitude tc1Params)).take 8
        = [0#32, 0#32, 0#32, 0#32, 0x3F800000#32, 0#32, 0#32, 0#32] := by decide +kernel

/-- R170: (3, 4) gives 0.625. -/
theorem test_magnitude : magnitude tc1Params ⟨0xC0400000#32, 0xC0800000#32⟩ = 0x3F200000#32 := by decide +kernel

/-- V-P1, V-P2 (a plateau), V-P3 (equality with the threshold), V-P5 (edge bins), V-P6, V-P7: the peaks of the first rows
of 6.4. -/
theorem test_peaks :
    let peaks (mag : List F32) (R : Nat) := (List.range 8).filter fun k => peakTest tc1Params mag k R
    peaks [0#32, 0x3D4CCCCD#32, 0x3E4CCCCD#32, 0x3F000000#32, 0x3E4CCCCD#32, 0x3D4CCCCD#32, 0#32, 0#32] 1 = [3] ∧
      peaks [0#32, 0#32, 0x3E4CCCCD#32, 0x3F000000#32, 0x3F000000#32, 0x3E4CCCCD#32, 0#32, 0#32] 1 = [] ∧
      peaks [0#32, 0#32, 0#32, 0x3D4CCCCD#32, 0x3DCCCCCD#32, 0x3D4CCCCD#32, 0#32, 0#32] 1 = [4] ∧
      peaks [0#32, 0x3F666666#32, 0#32, 0#32, 0#32, 0#32, 0x3F666666#32, 0#32] 1 = [] ∧
      peaks [0#32, 0x3DCCCCCD#32, 0x3E99999A#32, 0x3DCCCCCD#32, 0x3DCCCCCD#32, 0x3ECCCCCD#32, 0x3E4CCCCD#32, 0#32] 1
        = [2, 5] ∧
      peaks [0#32, 0#32, 0x3DCCCCCD#32, 0x3E99999A#32, 0x3F19999A#32, 0x3E99999A#32, 0x3DCCCCCD#32, 0#32] 2 = [4] := by
  decide +kernel

/-- V-B2: six rows, the equalities and the once-rounded delta among them. -/
theorem test_classify :
    let env (m last : F32) := classify tc1Params (f32Sub m last)
    env 0x3E4CCCCD#32 0x3E800000#32 = .decay ∧ env 0x3C23D70A#32 0#32 = .sustain ∧ env 0x3C23D70B#32 0#32 = .attack ∧
      env 0#32 0x3C23D70A#32 = .sustain ∧ env 0#32 0x3C23D70B#32 = .decay ∧
      env 0x3F000000#32 0x3EFAE148#32 = .sustain := by decide +kernel

/-- V-6.6: the ties go away from zero. -/
theorem test_quantise :
    quantise 0x3F000000#32 = 16384#16 ∧ quantise 0x37800100#32 = 1#16 ∧ quantise 0x3F7FFFFF#32 = 32767#16 := by
  decide +kernel

/-- V-B1, cycle 3 after two debouncing cycles: the gate opens, target 8192, last 0.125. -/
theorem test_binUpdate_stable :
    let b := binUpdate tc1Params { Bin.reset with stabilityCount := 2#32, isPeak := true, envelopePhase := .attack }
      0x3E800000#32 true
    b.gate = true ∧ b.stabilityCount = 3#32 ∧ b.envelopePhase = .attack ∧ b.targetAmplitude = 8192#16 ∧
      b.lastMagnitude = 0x3E000000#32 := by decide +kernel

/-- R182: the count wraps; gate and target stand. -/
theorem test_binUpdate_count_wraps :
    let b := binUpdate tc1Params { Bin.reset with stabilityCount := 0xFFFFFFFF#32, gate := true, targetAmplitude := 7#16 }
      0x3E800000#32 true
    b.stabilityCount = 0#32 ∧ b.gate = true ∧ b.targetAmplitude = 7#16 := by decide +kernel

/-- Program P4, cycle 4: the tone fills the window; bin 4 is stable, its neighbours are no peaks. -/
theorem test_anCompute_tone :
    let tone : List F32 := [0x3F000000#32, 0#32, 0xBF000000#32, 0#32]
    let t := nextOf (exec .anCompute { at_ .compute with
      win := List.replicate 4 0#32 ++ tone ++ tone ++ tone, stage := [0x4000#16, 0#16, 0xC000#16, 0#16],
      bins := booted.bins.modify 4 fun b => { b with stabilityCount := 2#32, lastMagnitude := 0x3CC70626#32 } })
    t.seqPc = .acquire ∧ t.win = tone ++ tone ++ tone ++ tone ∧
      t.bins[4]? = some { Bin.reset with
        phaseIncrement := 0x20000000#32, gate := true, isPeak := true, envelopePhase := .attack, stabilityCount := 3#32,
        targetAmplitude := 8476#16, lastMagnitude := 0x3E047062#32 } ∧
      t.bins[3]? = some { Bin.reset with phaseIncrement := 0x18000000#32, lastMagnitude := 0x3E034899#32 } := by
  decide +kernel

/-! ## Synthesis -/

/-- V-S1. -/
theorem test_synFill_one_bin :
    let t := nextOf (exec .synFill (filling (List.modify · 4 fun b => { b with gate := true, targetAmplitude := 16384#16 })))
    t.mix = [0#32, 0#32, 13125#32, 14062#32] ∧
      t.pbuf.b0 = [0#16, 0#16, 0#16, 0#16, 13125#16, 13125#16, 14062#16, 14062#16] ∧
      (t.bins[4]?).map (fun b => (b.phaseAccumulator, b.smoothedAmplitude)) = some (0x80000000#32, 0x46700000#32) ∧
      t.seqPc = .release := by decide +kernel

/-- V-S6: the phase wraps, the table's negative entry, truncation toward zero. -/
theorem test_synFill_wraps :
    let t := nextOf (exec .synFill (filling (List.modify · 7 fun b =>
      { b with gate := true, targetAmplitude := 32767#16, smoothedAmplitude := 0x46FFFE00#32, phaseAccumulator := 0xF0000000#32 })))
    t.mix.map BitVec.toInt = [-29999, 0, 29999, 0] ∧
      (t.bins[7]?).map (fun b => (b.phaseAccumulator, b.smoothedAmplitude)) = some (0xD0000000#32, 0x46FFFE00#32) := by
  decide +kernel

/-- §4: single follower steps. -/
theorem test_follow :
    follow tc1Params 0x46FFFE00#32 0x8000#16 = 0xBF000000#32 ∧ follow tc1Params 0#32 32767#16 = 0x467FFE00#32 := by
  decide +kernel

/-- V-S9 to V-S12. -/
theorem test_index :
    tableIndex 0xFFFFFFFF#32 27 = 0x7FFFFFF ∧ tableIndex 0xF0000000#32 2 = 3 ∧ tableIndex 0x3FFFFFFF#32 2 = 0 ∧
      tableIndex 0x12345678#32 0 = 0 ∧ tableIndex 0x12345678#32 8 = 0x12 ∧
      waveAddress 0x7FFFFFF#27 1 = 0#27 ∧ waveAddress 0x7FFFFFE#27 3 = 1#27 := by decide

/-- V-S14, V-S17 to V-S19: truncation toward zero and saturation. -/
theorem test_contribution :
    contribution tc1Params 0x8AD0#16 0x46FFFE00#32 = -29999 ∧
      contribution { tc1Params with headroomScale := 0x40800000#32 } 32767#16 0x46FFFE00#32 = 2147483647 ∧
      contribution { tc1Params with headroomScale := 0x40800000#32 } 0x8000#16 0x46FFFE00#32 = -2147483648 ∧
      contribution { tc1Params with headroomScale := 0x3F800000#32 } 0xFFFF#16 0x3F000000#32 = 0 := by decide +kernel

/-- V-S20, V-S21. -/
theorem test_wrap_and_limit :
    (wrapI32 (2147483646 + 2147483647)).toInt = -3 ∧ (limit 0x80000000#32).toInt = -32768 ∧
      (limit 0xFFFF7FFF#32).toInt = -32768 ∧ (limit 32767#32).toInt = 32767 ∧ (limit 32768#32).toInt = 32767 := by decide

/-- D47: the waveform of TC1, loaded entry by entry, is the cells of the reset state, in canonical form. -/
theorem test_tc1Wave :
    waveLoad (waveLoad [] 3#27 0x8AD0#16) 1#27 30000#16 = tc1Wave ∧ tc1Wave.wf ∧
      waveRead tc1Wave 3#27 = 0x8AD0#16 ∧ waveRead tc1Wave 4#27 = 0#16 := by decide

/-! ## Pool and output -/

/-- V-O1, V-O5. -/
theorem test_poolAcquire :
    poolStateWord (nextOf (exec .poolAcquire (at_ .acquire))) = 0x000000C1#32 ∧
      let t := nextOf (exec .poolAcquire { at_ .acquire with pstate := ⟨.queued, .queued, .queued⟩, queue := [0, 1, 2] })
      t.seqPc = .check ∧ poolStateWord t = 0x00000FEA#32 := by decide

/-- V-O8, V-O9: the least FREE index. -/
theorem test_poolAcquire_least :
    (nextOf (exec .poolAcquire { at_ .acquire with pstate := ⟨.free, .queued, .playing⟩, queue := [1], playing := some 2 })).curBuf
        = some 0 ∧
      (nextOf (exec .poolAcquire { at_ .acquire with pstate := ⟨.queued, .free, .free⟩, queue := [0] })).curBuf = some 1 := by
  decide

/-- V-O2. -/
theorem test_poolRelease :
    let t := nextOf (exec .poolRelease { filling id with seqPc := .release })
    t.queue = [0] ∧ t.seqPc = .check ∧ poolStateWord t = 0x00000DC2#32 := by decide

/-- V-O3, V-O6. -/
theorem test_outTake :
    poolStateWord (nextOf (exec .outTake { booted with pstate := ⟨.queued, .free, .free⟩, queue := [0] })) = 0x00000C03#32 ∧
      refusedWith (exec .outTake
        { booted with pstate := ⟨.playing, .queued, .queued⟩, queue := [1, 2], playing := some 0 }) (.notEnabled .outTake)
        = true := by decide

/-- V-O4. -/
theorem test_outDone :
    let t := nextOf (exec .outDone { booted with pstate := ⟨.playing, .free, .free⟩, playing := some 0 })
    t.outLog = [List.replicate 8 0#16] ∧ poolStateWord t = 0x00000CC0#32 := by decide

/-! ## Control -/

/-- V-C2. -/
theorem test_init_runs :
    booted.bins.map Bin.phaseIncrement
        = [0#32, 0x08000000#32, 0x10000000#32, 0x18000000#32, 0x20000000#32, 0x28000000#32, 0x30000000#32, 0x38000000#32] ∧
      booted.guardR = 1#32 ∧ statusWord booted = 0x50#32 := by decide +kernel

/-- V-C3. -/
theorem test_init_halts :
    statusWord (nextOf (exec (.init false) State.reset)) = 0x20#32 ∧
      refusedWith (exec .seqCheck (nextOf (exec (.init false) State.reset))) (.notEnabled .seqCheck) = true := by decide

/-- R252: its examples outside TC1, the tie and the wrap among them. -/
theorem test_phaseIncrement :
    phaseIncrement { tc1Params with inRate := 48000, fftLog := 10, outRate := 44100 } 511 = 0x8B0C30C3#32 ∧
      phaseIncrement { tc1Params with inRate := 5, outRate := 2 ^ 30 } 2 = 3#32 ∧
      phaseIncrement { tc1Params with outRate := 4000 } 7 = 0xC0000000#32 := by decide +kernel

/-- R171: 0, 1499, 1500 and 2500 Hz. -/
theorem test_guardRadius :
    [0#32, 1499#32, 1500#32, 2500#32].map (fun hz => exactGuardRadius { tc1Params with minFreqSep := hz }) = [1, 1, 2, 3] := by
  decide

/-- V-C1, V-C4: after RESET, from a state of RUN; OUT_LOG is kept (R254). -/
theorem test_reset :
    let t := nextOf (exec .reset { filling id with outLog := [[1#16]], ready := true, ovrRead := true, waveCfg := 0x103#32 })
    statusWord t = 0#32 ∧ poolStateWord t = 0xCC0#32 ∧ t.waveCfg = 2#32 ∧ t.guardR = 0#32 ∧ t.outLog = [[1#16]] := by
  decide +kernel

/-- V-C8, V-C10: every offset of the map and an unmapped one. -/
theorem test_csrRead_map :
    ([0x10, 0x14, 0x18, 0x1C, 0x20, 0x24, 0x28, 0x2C, 0x30, 0x34, 0x38, 0x3C, 0x40, 0x44, 0x48, 0x4C, 0x50, 0x54, 0x58, 0xFC]
        : List Nat).map (csrValue booted)
      = [0x10#32, 0x4#32, 0x8#32, 0x4#32, 0x3#32, 0x2#32, 0x3E80#32, 0x7D00#32, 0x3E8#32, 0x0#32, 0x8000#32, 0x3DCCCCCD#32,
          0x3C23D70A#32, 0x3F000000#32, 0x40000000#32, 0x3F000000#32, 0x3F800000#32, 0x38000000#32, 0#32, 0#32] := by decide

/-- R255's example: GUARD_R after `init 1` is returned to the host. -/
theorem test_csrRead_emits : (nextOf (exec (.csrRead 0x08#8) booted)).hostOut = [1#32] := by decide

/-- V-C5, V-C6. -/
theorem test_csrWrite_waveCfg :
    (nextOf (exec (.csrWrite 4#8 0x103#32) booted)).waveCfg = 0x103#32 ∧
      (nextOf (exec (.csrWrite 4#8 0x1F#32) { booted with waveCfg := 0x103#32 })).waveCfg = 0x103#32 := by decide

/-- V-C7. -/
theorem test_csrWrite_status : nextOf (exec (.csrWrite 0#8 0xFFFFFFFF#32) booted) = booted := by decide +kernel

/-! ## Steps -/

/-- R119, R257: at the host port a reserved word and a non-HOST word are ignored; the write after them is performed. -/
theorem test_host_port :
    let s := { booted with sched := [.port, .port, .port], hostIn := [0xF0000000#32, 0x30000000#32, 0xC0000004#32, 0x103#32] }
    let t := nextOf (step s)
    let u := nextOf (step t)
    t = { s with sched := [.port, .port], hostIn := [0x30000000#32, 0xC0000004#32, 0x103#32] } ∧
      u = { s with sched := [.port], hostIn := [0xC0000004#32, 0x103#32] } ∧
      nextOf (step u) = { s with sched := [], hostIn := [], waveCfg := 0x103#32 } := by decide +kernel

/-- R119, R124: in a program a reserved word is refused. -/
theorem test_program_refuses :
    refusedWith (step (State.reset.withFetchWord 32 0xF0000000)) (.badWord .reservedOp) = true ∧
      refusedWith (step State.reset) .scheduleEmpty = true := by decide

/-- A fetched word is the very next step: `init 1` as the first operation after reset (R250). -/
theorem test_first_step : nextOf (step (State.reset.withFetchWord 32 0xD0000001)) = booted := by decide +kernel

/-! ## Witnesses: a concrete state and operands for the hypotheses of each statement, a clause at a time -/

theorem witness_DecodeOfEncodeGivesTheOperationBack : Instr.wf (.csrWrite 0xFC#8 0xFFFFFFFF#32) = true := by decide

theorem witness_DecodedWordsEncodeBack :
    decode [0xC00000FC#32, 0xFFFFFFFF#32, 0x0#32] = .ok (.csrWrite 0xFC#8 0xFFFFFFFF#32, [0x0#32]) := by decide

theorem witness_DecoderFollowsTheOperationMap : ⟨"INIT", 0xD0000000#32, 0xFFFFFFFE#32⟩ ∈ opcodeTable := by decide

/-- A program line, an ignored reserved word, an ignored non-HOST word and a performed HOST word. -/
theorem witness_WordsInAProgramAndAtTheHostPort :
    decode [0xF0000000#32] = .error .reservedOp ∧ decode [0x30000000#32] = .ok (.seqCheck, []) ∧
      Instr.seqCheck.agent ≠ .host ∧ decode [0xE0000000#32] = .ok (.reset, []) ∧ Instr.reset.agent = .host := by decide

theorem witness_StepRunsTheNextProgramLine :
    decode [0xD0000001#32] = .ok (.init true, []) ∧ decodeTableWord 32 0xD0000001 = some (.init true) := by decide

theorem shape_booted : Shape booted := by constructor <;> decide

theorem shape_of_booted (pc : SeqPc) (wptr ingestPtr : Nat) :
    Shape { booted with seqPc := pc, wptr := wptr, ingestPtr := ingestPtr } :=
  { shape_booted with }

/-- The last cell, and the pointer past it. -/
theorem witness_AcqSampleStoresAtTheWritePointer :
    Shape { booted with seqPc := .check, wptr := 3, ingestPtr := 0 } ∧ booted.mode = .run ∧
      3 < booted.cfg.params.hopSize ∧ ¬(4 < booted.cfg.params.hopSize) :=
  ⟨shape_of_booted _ _ _, by decide, by decide, by decide⟩

theorem witness_AcqDoneSwapsSignalsAndRecordsOverruns :
    booted.mode = .run ∧ 4 = booted.cfg.params.hopSize ∧ ¬(3 = booted.cfg.params.hopSize) := by decide

theorem witness_SeqCheckTakesTheLatestBlock :
    booted.mode = .run ∧ booted.seqPc = .check ∧ booted.ready = false ∧ { booted with ready := true }.ready = true ∧
      (at_ .acquire).seqPc ≠ .check := by decide

/-- The last sample and the one before it. -/
theorem witness_AnIngestCopiesOneSample :
    Shape { booted with seqPc := .ingest, wptr := 0, ingestPtr := 3 } ∧
      Shape { booted with seqPc := .ingest, wptr := 0, ingestPtr := 2 } ∧ booted.mode = .run ∧
      3 < booted.cfg.params.hopSize ∧ (at_ .check).seqPc ≠ .ingest :=
  ⟨shape_of_booted _ _ _, shape_of_booted _ _ _, by decide, by decide, by decide⟩

theorem witness_StepKeepsTheHandoff :
    let s := { at_ .ingest with consIdx := 1, ingestPtr := 1, sched := [.line [0x40000000#32]] }
    HandoffOk s ∧ went (step s) = true ∧ s.ovrRead = false ∧ (nextOf (step s)).seqPc = .ingest :=
  ⟨fun _ _ => ⟨by decide, by decide⟩, by decide, by decide, by decide⟩

/-- A run to the first AN_COMPUTE, and one more block delivered meanwhile. -/
def oneBlock : List Instr :=
  [.init true, .acqSample 1#16, .acqSample 2#16, .acqSample 3#16, .acqSample 4#16, .acqDone, .seqCheck, .anIngest, .anIngest,
    .anIngest, .anIngest, .acqSample 5#16]

theorem witness_AnalysisCyclesTakeTheBlocksInOrder :
    tc1Wave.wf ∧ Instr.reset ∉ oneBlock ∧ went (runOps oneBlock (State.powerOn tc1 tc1Wave)) = true ∧
      enabled .anCompute (nextOf (runOps oneBlock (State.powerOn tc1 tc1Wave))) = true ∧
      (nextOf (runOps oneBlock (State.powerOn tc1 tc1Wave))).ovrRead = false ∧
      (nextOf (runOps oneBlock (State.powerOn tc1 tc1Wave))).ovrDrop = false := by decide

theorem witness_AnComputeRunsOneAnalysisCycle :
    Shape { booted with seqPc := .compute, wptr := 0, ingestPtr := 4 } ∧ booted.mode = .run ∧ booted.seqPc ≠ .compute ∧
      0 < booted.cfg.params.fftSize - booted.cfg.params.hopSize :=
  ⟨shape_of_booted _ _ _, by decide, by decide, by decide⟩

/-- TC1 with a full scale of one raw unit: samples beyond both ends of [−1, 1]. -/
def loud : Config := ⟨{ tc1Params with adcHalfRange := 1#32 }, by constructor <;> decide +kernel⟩

/-- Each branch: 2, −2 and 1 at full scale 1, and −32768 at full scale 32768 (R161: 0x8000 gives −1.0). -/
theorem witness_NormalisedSamplesLieInTheUnitRange :
    f32Gt (f32Div (toF32 ((2#16).toInt - loud.params.adcBias.toInt)) (toF32 loud.params.adcHalfRange.toNat)) f32One = true ∧
      f32Lt (f32Div (toF32 ((0xFFFE#16).toInt - loud.params.adcBias.toInt)) (toF32 loud.params.adcHalfRange.toNat))
        f32NegOne = true ∧
      f32Gt (f32Div (toF32 ((1#16).toInt - loud.params.adcBias.toInt)) (toF32 loud.params.adcHalfRange.toNat)) f32One = false ∧
      normalise tc1Params 0x8000#16 = f32NegOne ∧ normalise tc1Params 0x0001#16 = 0x38000000#32 := by decide +kernel

/-- The twiddle ROM of TC1 is finite; for the recursion, S = 3 over TC1's ROM at its first and last output pair. -/
theorem witness_FftOfSilenceIsSilence :
    (tc1Tw.all fun t => f32IsFinite t.re && f32IsFinite t.im) = true ∧ (List.replicate 16 f32One).length = 2 ^ (3 + 1) ∧
      tc1Tw[0]?.isSome = true ∧ tc1Tw[7]?.isSome = true ∧
      (fftRef (List.replicate 8 Cplx.zero) 3 (List.replicate 8 f32One))[7]?.isSome = true := by decide +kernel

/-- The last bin and its output; finite extremes. -/
theorem witness_MagnitudesAreNotNegative :
    7 < tc1Params.nBins ∧
      (fftRef tc1Params.tw tc1Params.fftLog (List.zipWith f32Mul (List.replicate 16 f32One) tc1Params.hann))[7]?.isSome ∧
      f32IsFinite 0xFF7FFFFF#32 = true ∧ f32IsFinite 0x80000000#32 = true := by decide +kernel

/-- S = 4, bit 3 of 1: `bitrev_4(1) = 8` (R166). -/
theorem witness_BitReversalReversesTheBits : 3 < 4 ∧ (bitrev 4 1).testBit 3 = true ∧ bitrev 4 1 = 8 := by decide

/-- A peak, and the least radius for which no bin of TC1 is eligible. -/
theorem witness_EdgeBinsAreNeverInAPeaksNeighbourhood :
    peakTest tc1Params [0#32, 0#32, 0#32, 0x3F800000#32, 0#32, 0#32, 0#32, 0#32] 3 1 = true ∧
      (tc1Params.nBins : Int) - 1 - 3 ≤ 3 + 1 := by decide

/-- V-P6: two peaks. -/
theorem witness_PeaksAreMoreThanTheGuardRadiusApart :
    let mag : List F32 :=
      [0#32, 0x3DCCCCCD#32, 0x3E99999A#32, 0x3DCCCCCD#32, 0x3DCCCCCD#32, 0x3ECCCCCD#32, 0x3E4CCCCD#32, 0#32]
    peakTest tc1Params mag 2 1 = true ∧ peakTest tc1Params mag 5 1 = true := by decide

/-- The last debouncing count and the first stable one. -/
theorem witness_BinUpdateFollowsTheDebounceBranches :
    (1 + 1) % 2 ^ 32 ≤ tc1Params.stabilityCount.toNat ∧ tc1Params.stabilityCount.toNat < (2 + 1) % 2 ^ 32 := by decide

theorem witness_GateOpensAfterStabilityCountCycles :
    Bin.reset.stabilityCount = 0#32 ∧ Bin.reset.gate = false ∧ [0#32, 0#32, 0#32].length < 2 ^ 32 := by decide

/-- The threshold, its negative, and one step above and below. -/
theorem witness_EnvelopeFollowsTheSignOfTheDelta :
    f32Gt 0x3C23D70B#32 tc1.params.envThreshold = true ∧ f32Gt 0x3C23D70A#32 tc1.params.envThreshold = false ∧
      f32Lt 0xBC23D70B#32 (f32Neg tc1.params.envThreshold) = true ∧
      f32Lt 0xBC23D70A#32 (f32Neg tc1.params.envThreshold) = false := by decide

/-- Both ends of the unit range, and −0; a product of each sign (0.25 and −2.0). -/
theorem witness_QuantisedTargetsOfTheUnitRange :
    f32Le 0#32 f32One = true ∧ f32Le f32One f32One = true ∧ f32Le 0#32 0x80000000#32 = true ∧
      f32IsFinite (f32Mul 0x3E800000#32 0x46FFFE00#32) = true ∧ 0 ≤ f32Val (f32Mul 0x3E800000#32 0x46FFFE00#32) ∧
      f32Val (f32Mul 0xC0000000#32 0x46FFFE00#32) < 0 := by decide +kernel

theorem witness_SynFillMixesTheActiveBins :
    (filling id).curBuf = some 0 ∧ (filling id).mode = .run ∧ (filling id).seqPc = .fill ∧
      3 < (filling id).cfg.params.blockLen ∧ { filling id with seqPc := .release }.seqPc ≠ .fill := by decide

theorem witness_BinOrderDoesNotChangeTheMix :
    [Bin.reset, { Bin.reset with gate := true }].Perm [{ Bin.reset with gate := true }, Bin.reset] := List.Perm.swap _ _ _

theorem witness_TableIndexStaysInsideTheTable : 27 ≤ 27 ∧ 26 < 27 ∧ 0 ≤ 27 := by decide

theorem witness_LimiterClampsAndIsMonotonic : (0x80000000#32).toInt ≤ (0x7FFFFFFF#32).toInt := by decide

theorem witness_SilenceGivesAnAllZeroBlock :
    (filling id).mode = .run ∧ (filling id).seqPc = .fill ∧ (filling id).curBuf = some 0 ∧
      (filling id).bins.all fun x => !x.gate && f32Lt x.smoothedAmplitude (filling id).cfg.params.audibleFloor := by decide

/-- A FREE buffer behind one that is taken, and none FREE. -/
theorem witness_PoolAcquireTakesTheLeastFreeBuffer :
    let some' : Three BufState := ⟨.queued, .free, .free⟩
    let none' : Three BufState := ⟨.queued, .playing, .queued⟩
    (at_ .acquire).mode = .run ∧ (at_ .acquire).seqPc = .acquire ∧ some'.get 1 = .free ∧
      (∀ c, c < (1 : BufId) → some'.get c ≠ .free) ∧ (∀ b, none'.get b ≠ .free) ∧ (at_ .check).seqPc ≠ .acquire := by decide

theorem witness_PoolReleaseQueuesTheFilledBuffer :
    let s := { filling id with seqPc := .release }
    s.curBuf = some 0 ∧ s.mode = .run ∧ s.seqPc = .release ∧ (filling id).seqPc ≠ .release := by decide

theorem witness_OutTakePlaysTheOldestQueuedBuffer :
    let s := { booted with pstate := ⟨.queued, .free, .free⟩, queue := [0] }
    s.mode = .run ∧ s.playing = none ∧ s.queue = [0] ∧ booted.queue = [] := by decide

theorem witness_OutDoneLogsAndFreesThePlayingBuffer :
    let s := { booted with pstate := ⟨.playing, .free, .free⟩, playing := some 0 }
    s.mode = .run ∧ s.playing = some 0 ∧ booted.playing = none := by decide

/-- TC1 after `init 1` is reached from power-on by one step. -/
theorem reachable_booted : Reachable booted := by
  have h0 := Reachable.powerOn tc1 tc1Wave (by decide) [.line [0xD0000001#32]] []
  exact h0.step (went_next (by decide))

theorem witness_PoolInvariantsHoldInEveryReachableState :
    Reachable booted ∧ ¬(booted.seqPc = .fill ∨ booted.seqPc = .release) := ⟨reachable_booted, by decide⟩

/-- Three loops with no block ready, each taking a buffer, and the next SEQ_CHECK. -/
def threeLoops : List Instr :=
  [.seqCheck, .poolAcquire, .synFill, .poolRelease, .seqCheck, .poolAcquire, .synFill, .poolRelease, .seqCheck, .poolAcquire,
    .synFill, .poolRelease, .seqCheck]

/-- The fourth acquire, and the first. -/
theorem witness_ThreeAcquiresSucceedAndTheFourthFails :
    Reachable booted ∧ (∀ b, booted.pstate.get b = .free) ∧ Instr.outDone ∉ threeLoops ∧ Instr.reset ∉ threeLoops ∧
      went (runOps threeLoops booted) = true ∧ went (exec .poolAcquire (nextOf (runOps threeLoops booted))) = true ∧
      went (runOps [.seqCheck] booted) = true ∧ went (exec .poolAcquire (nextOf (runOps [.seqCheck] booted))) = true :=
  ⟨reachable_booted, by decide, by decide, by decide, by decide +kernel, by decide +kernel, by decide, by decide⟩

theorem witness_ProductionRunsAtMostThreeBlocksAhead :
    tc1Wave.wf ∧ Instr.reset ∉ (Instr.init true :: threeLoops) ∧
      went (runOps (Instr.init true :: threeLoops) (State.powerOn tc1 tc1Wave)) = true := by decide +kernel

theorem witness_InitFixesTheIncrementsAndTheGuardRadius :
    State.reset.mode = .init ∧ State.reset.seqPc = .init ∧ exactGuardRadius tc1Params < 2 ^ 32 ∧ booted.mode ≠ .init := by
  decide

/-- The first and the last unmapped offset. -/
theorem witness_CsrReadReturnsTheRegister :
    offsetAligned 0x58#8 = true ∧ 0x58 ≤ (0x58#8).toNat ∧ offsetAligned 0xFC#8 = true ∧ 0x58 ≤ (0xFC#8).toNat := by decide

theorem witness_StatusAndPoolStateShowTheirFields : { booted with queue := [0, 1, 2] }.queue.length < 4 := by decide

/-- TBITS 27 and 28 at 0x04, another offset, and one that is no multiple of 4. -/
theorem witness_CsrWriteBindsOnlyALegalWaveform :
    ((0x1B#32).extractLsb' 0 5).toNat ≤ 27 ∧ ¬(((0x1C#32).extractLsb' 0 5).toNat ≤ 27) ∧ (0x04#8).toNat % 4 = 0 ∧
      (0xFC#8).toNat % 4 = 0 ∧ (0x05#8).toNat % 4 ≠ 0 := by decide

/-- Every operation of the microprogram answers a next state somewhere. -/
theorem witness_MicroprogramSuccessors :
    went (exec .seqCheck booted) = true ∧ went (exec .anIngest (at_ .ingest)) = true ∧
      went (exec .anCompute (at_ .compute)) = true ∧ went (exec .poolAcquire (at_ .acquire)) = true ∧
      went (exec .synFill (filling id)) = true ∧ went (exec .poolRelease { filling id with seqPc := .release }) = true ∧
      went (exec (.init true) State.reset) = true ∧ went (exec (.init false) State.reset) = true ∧
      went (exec (.acqSample 1#16) booted) = true := by decide +kernel

theorem witness_HaltedIsLeftOnlyByReset :
    (nextOf (exec (.init false) State.reset)).mode = .halted ∧ Instr.seqCheck.agent ≠ .host ∧
      Instr.wf (.csrRead 0x08#8) = true := by decide

theorem witness_EnabledOperationsProduceANextState :
    Reachable booted ∧ enabled .seqCheck booted = true ∧ enabled .anCompute booted = false :=
  ⟨reachable_booted, by decide, by decide⟩

theorem witness_OneOperationOfEachAgentIsEnabled : ModeOk booted ∧ booted.mode = .run :=
  ⟨⟨by decide, by decide⟩, by decide⟩

/-- Each control element changed once, by the writer the statement names. -/
theorem witness_EveryControlElementHasItsWriters :
    booted.mode ≠ State.reset.mode ∧ booted.seqPc ≠ State.reset.seqPc ∧ booted.guardR ≠ State.reset.guardR ∧
      (nextOf (exec .acqDone { at_ .ingest with wptr := 4 })).ready = true ∧
      (nextOf (exec .acqDone { at_ .ingest with wptr := 4 })).ovrRead = true ∧
      (nextOf (exec .acqDone { at_ .ingest with wptr := 4, ready := true })).ovrDrop = true ∧
      (nextOf (exec .seqCheck { booted with ready := true })).ready = false ∧
      (nextOf (exec .reset { booted with ovrRead := true, ovrDrop := true })).ovrRead = false ∧
      (nextOf (exec .reset { booted with ovrRead := true, ovrDrop := true })).ovrDrop = false ∧
      (nextOf (exec (.acqSample 1#16) booted)).acqBuf ≠ booted.acqBuf ∧
      (nextOf (exec (.acqSample 1#16) booted)).wptr ≠ booted.wptr ∧
      (nextOf (exec .acqDone { booted with wptr := 4 })).active ≠ booted.active ∧
      (nextOf (exec .seqCheck { booted with ready := true })).consIdx ≠ booted.consIdx ∧
      (nextOf (exec .anIngest (at_ .ingest))).ingestPtr ≠ booted.ingestPtr ∧
      (nextOf (exec .poolAcquire (at_ .acquire))).curBuf ≠ booted.curBuf ∧
      (nextOf (exec .poolAcquire (at_ .acquire))).pstate ≠ booted.pstate ∧
      (nextOf (exec .poolRelease { filling id with seqPc := .release })).queue ≠ booted.queue ∧
      (nextOf (exec .outTake { booted with queue := [0] })).playing ≠ booted.playing ∧
      (nextOf (exec (.csrWrite 4#8 0x103#32) booted)).waveCfg ≠ booted.waveCfg ∧
      (nextOf (exec .outDone { booted with playing := some 0 })).outLog ≠ booted.outLog := by decide

theorem witness_EachBinFieldHasOneWriter :
    went (exec .anCompute (at_ .compute)) = true ∧ (at_ .compute).bins[7]?.isSome ∧
      (nextOf (exec .anCompute (at_ .compute))).bins[7]?.isSome ∧ went (exec .synFill (filling id)) = true ∧
      (nextOf (exec .synFill (filling id))).bins[7]?.isSome ∧ booted.mode = .run ∧ went (exec .seqCheck booted) = true := by
  decide +kernel

theorem witness_NoStepWritesTheConfigurationOrTheWaveforms :
    went (step (State.reset.withFetchWord 32 0xD0000001)) = true := by decide

/-- The invariant of a running state, and a step from it. -/
theorem inv_booted : Inv booted where
  shape := shape_booted
  pointers := ⟨by decide, by decide, by decide⟩
  modePc := ⟨by decide, by decide⟩
  pool := ⟨by decide, by decide, by decide, by decide, by decide⟩
  gate := show ∀ b ∈ booted.bins, b.gate = false → b.targetAmplitude = 0#16 by decide
  wave := ⟨by decide, by decide⟩
  fixed := ⟨fun _ => by decide, fun _ k b h => by
    have e : booted.bins = State.reset.bins.mapIdx fun k b => { b with phaseIncrement := phaseIncrement tc1Params k } := rfl
    rw [e, List.getElem?_mapIdx] at h
    obtain ⟨a, _, rfl⟩ := Option.map_eq_some_iff.mp h
    rfl⟩

theorem inv_of_booted (sched : List Turn) : Inv { booted with sched := sched } where
  shape := { shape_booted with }
  pointers := { inv_booted.pointers with }
  modePc := { inv_booted.modePc with }
  pool := { inv_booted.pool with }
  gate := inv_booted.gate
  wave := { inv_booted.wave with }
  fixed := { inv_booted.fixed with }

theorem witness_PowerOnMeetsTheInvariant : tc1Wave.wf := by decide

theorem witness_StepKeepsTheInvariant :
    Inv { booted with sched := [.line [0x30000000#32]] } ∧
      went (step { booted with sched := [.line [0x30000000#32]] }) = true := ⟨inv_of_booted _, by decide⟩

theorem witness_ClosedGatesHaveTargetZero : Reachable booted ∧ (booted.bins.map Bin.gate).contains false :=
  ⟨reachable_booted, by decide⟩

/-- Nine operations of SEQ (HOP_SIZE + 5 under TC1) in a row. -/
theorem witness_SeqCheckIsTakenInEveryLoop :
    Inv { booted with sched := [] } ∧ booted.mode = .run ∧ Instr.reset ∉ threeLoops.take 9 ∧
      went (runOps (threeLoops.take 9) booted) = true ∧
      booted.cfg.params.hopSize + 5 ≤ (threeLoops.take 9).countP (fun i => decide (i.agent = .seq)) :=
  ⟨inv_of_booted _, by decide, by decide, by decide +kernel, by decide⟩

/-- Finite operands whose sum is finite, and two whose sum is not. -/
theorem witness_AdditionIsCorrectlyRounded :
    f32IsFinite 0x3F800000#32 = true ∧ f32IsFinite 0x33800000#32 = true ∧
      f32IsFinite (f32Add 0x3F800000#32 0x33800000#32) = true ∧ f32IsFinite 0x7F7FFFFF#32 = true ∧
      (2 ^ 25 - 1) * 2 ^ 252 ≤ (f32Val 0x7F7FFFFF#32 + f32Val 0x7F7FFFFF#32).natAbs := by decide

theorem witness_MultiplicationIsCorrectlyRounded :
    f32IsFinite 0x3F800001#32 = true ∧ f32IsFinite (f32Mul 0x3F800001#32 0x3F800001#32) = true ∧
      f32IsFinite 0x7F7FFFFF#32 = true ∧
      (2 ^ 25 - 1) * 2 ^ 252 * unitScale ≤ (f32Val 0x7F7FFFFF#32 * f32Val 0x7F7FFFFF#32).natAbs := by decide +kernel

/-- 1.0 / 3.0; the tie of 3 units over 2.0, which goes to the even 2 units; the greatest finite over a subnormal. -/
theorem witness_DivisionIsCorrectlyRounded :
    f32IsFinite 0x3F800000#32 = true ∧ f32IsFinite 0x40400000#32 = true ∧ f32Val 0x40400000#32 ≠ 0 ∧
      f32IsFinite (f32Div 0x3F800000#32 0x40400000#32) = true ∧ f32Div 0x00000003#32 0x40000000#32 = 0x00000002#32 ∧
      |f32Val 0x00000002#32 * f32Val 0x40000000#32 - f32Val 0x00000003#32 * unitScale| =
        |f32Val 0x00000001#32 * f32Val 0x40000000#32 - f32Val 0x00000003#32 * unitScale| ∧
      f32IsInf (f32Div 0x7F7FFFFF#32 0x00000001#32) = true := by decide +kernel

/-- 2.0, with a binary32 below and one above its root; and zero. -/
theorem witness_SquareRootIsCorrectlyRounded :
    f32IsFinite 0x40000000#32 = true ∧ f32Sign 0x40000000#32 = false ∧ f32IsFinite 0x3FB504F2#32 = true ∧
      f32Mag 0x3FB504F2#32 < f32Mag (f32Sqrt 0x40000000#32) ∧ f32Mag (f32Sqrt 0x40000000#32) < f32Mag 0x3FB504F4#32 ∧
      f32Sign 0x00000000#32 = false := by decide +kernel

theorem witness_SmallIntegersConvertExactlyAndNaNsCompareFalse :
    |(2 ^ 24 : Int)| ≤ 2 ^ 24 ∧ |(-(2 ^ 24) : Int)| ≤ 2 ^ 24 ∧ f32IsNaN 0x7FC00000#32 = true ∧
      f32IsNaN 0x7F800000#32 = false ∧ f32IsFinite 0x7F7FFFFF#32 = true ∧ f32IsInf 0xFF800000#32 = true ∧
      f32Lt 0x3F800000#32 0x40000000#32 = true ∧ f32Ge 0x80000000#32 0x00000000#32 = true := by decide

/-- −2^31, 2^31 and the greatest value below it. -/
theorem witness_ConversionsTruncateSaturateAndRound :
    f32IsNaN 0x4F000000#32 = false ∧ f32Val 0xCF000000#32 ≤ -(2 ^ 31) * unitScale ∧
      2 ^ 31 * unitScale ≤ f32Val 0x4F000000#32 ∧ -(2 ^ 31) * unitScale < f32Val 0x4EFFFFFF#32 ∧
      f32Val 0x4EFFFFFF#32 < 2 ^ 31 * unitScale ∧ 0 < 2 := by decide

end Sys2Proof.Tests
end

section
/-!
PROOFS. The arithmetic of spec/00_scope.md R14 and R15 and the shape of a step. Every arithmetic operation on finite
operands is one call of `f32OfUnits` on the exact value, so each rounding statement is `f32OfUnits_class`,
`f32OfUnits_isInf` and `f32OfUnits_nearest` at that value.
-/

namespace Sys2Proof.Machine

/-! ## Signed magnitudes -/

/-- A magnitude with the sign of the integer it comes from, of either sign where that is 0. -/
theorem signed_natAbs {neg : Bool} {x : Int} (h : x ≠ 0 → neg = decide (x < 0)) : signed neg x.natAbs = x := by
  rcases lt_trichotomy x 0 with hx | rfl | hx
  · rw [h hx.ne, decide_eq_true hx, signed, if_pos rfl]; omega
  · cases neg <;> rfl
  · rw [h hx.ne', decide_eq_false hx.not_gt, signed, if_neg (by decide)]; omega

@[simp] theorem natAbs_signed (neg : Bool) (m : Nat) : (signed neg m).natAbs = m := by
  cases neg <;> simp [signed]

theorem signed_mul_signed (neg neg' : Bool) (m n : Nat) :
    signed neg m * signed neg' n = signed (neg != neg') (m * n) := by
  cases neg <;> cases neg' <;> simp [signed]

theorem signed_mul_natCast (neg : Bool) (m n : Nat) : signed neg m * (n : Int) = signed neg (m * n) := by
  cases neg <;> simp [signed]

theorem signed_not (neg : Bool) (m : Nat) : signed (!neg) m = -signed neg m := by
  cases neg <;> simp [signed]

theorem signed_tdiv (neg : Bool) (m d : Nat) : (signed neg m).tdiv d = signed neg (m / d) := by
  cases neg
  · exact (Int.ofNat_tdiv m d).symm
  · simp [signed, Int.neg_tdiv]

@[simp] theorem natAbs_f32Val (a : F32) : (f32Val a).natAbs = f32Mag a := by
  rw [f32Val_eq_signed, natAbs_signed]

theorem f32Val_mul (a b : F32) : f32Val a * f32Val b = signed (f32Sign a != f32Sign b) (f32Mag a * f32Mag b) := by
  rw [f32Val_eq_signed, f32Val_eq_signed, signed_mul_signed]

/-! ## Magnitudes by class -/

/-- A finite magnitude is under 24 bits at the greatest last place. (2^277 is written as a product because Lean
evaluates no power of an exponent above 256.) -/
theorem f32Mag_lt_of_finite {a : F32} (h : f32IsFinite a = true) : f32Mag a < 2 ^ 24 * 2 ^ 253 := by
  have hexp : f32Exp a < 256 := (a.extractLsb' 23 8).isLt
  have hne : f32Exp a ≠ 255 := by simpa [f32IsFinite] using h
  rcases f32Mag_shape a with ⟨_, hm⟩ | ⟨_, m, _, hm, heq⟩
  · omega
  · calc f32Mag a = m * 2 ^ (f32Exp a - 1) := heq
      _ < 2 ^ 24 * 2 ^ (f32Exp a - 1) := Nat.mul_lt_mul_of_pos_right hm (by positivity)
      _ ≤ 2 ^ 24 * 2 ^ 253 := Nat.mul_le_mul_left _ (Nat.pow_le_pow_right (by omega) (by omega))

theorem f32IsInf_iff {a : F32} : f32IsInf a = true ↔ f32Exp a = 255 ∧ f32Frac a = 0 := by
  simp [f32IsInf]

theorem f32Mag_of_isInf {a : F32} (h : f32IsInf a = true) : f32Mag a = 2 ^ 24 * 2 ^ 253 := by
  obtain ⟨hexp, hfrac⟩ := f32IsInf_iff.mp h
  rw [f32Mag, hexp, hfrac, if_neg (by decide)]; rfl

theorem f32IsFinite_of_not_nan_inf {a : F32} (hnan : f32IsNaN a = false) (hinf : f32IsInf a = false) :
    f32IsFinite a = true := by
  have hfrac : f32Exp a = 255 → f32Frac a = 0 := by simpa [f32IsNaN] using hnan
  have hfrac' : f32Exp a = 255 → f32Frac a ≠ 0 := by simpa [f32IsInf] using hinf
  simpa [f32IsFinite] using fun h => hfrac' h (hfrac h)

theorem f32IsNaN_of_isInf {a : F32} (h : f32IsInf a = true) : f32IsNaN a = false := by
  simp [f32IsNaN, (f32IsInf_iff.mp h).2]

/-! ## One rounding -/

/-- Below the rounding boundary the result is finite (R14). -/
theorem f32OfUnits_finite (neg : Bool) {num den : Nat} (hd : 0 < den) (h : num < (2 ^ 25 - 1) * 2 ^ 252 * den) :
    f32IsFinite (f32OfUnits neg num den) = true := by
  refine f32IsFinite_of_not_nan_inf (f32OfUnits_class neg num den).2.1 ?_
  rw [Bool.eq_false_iff, Ne, f32OfUnits_isInf neg num den hd]
  omega

/-- The magnitude of a finite rounded value is the rounded significand at its last place. -/
theorem f32OfUnits_mag (neg : Bool) {num den : Nat} (hd : 0 < den) (hf : f32IsFinite (f32OfUnits neg num den) = true) :
    f32Mag (f32OfUnits neg num den) =
      roundHalfEven num (den * 2 ^ ulpExp (num / den)) * 2 ^ ulpExp (num / den) := by
  rw [← natAbs_f32Val, (f32OfUnits_val neg num den hd hf).1, natAbs_signed]

theorem roundHalfEven_mul_self (k : Nat) {d : Nat} (hd : 0 < d) : roundHalfEven (k * d) d = k :=
  le_antisymm (roundHalfEven_le _ _ _ hd le_rfl) (le_roundHalfEven _ _ _ hd le_rfl)

/-- A whole number of last places is not changed by rounding. -/
theorem f32OfUnits_mag_of_dvd (neg : Bool) {num : Nat} (hdvd : 2 ^ ulpExp num ∣ num)
    (hf : f32IsFinite (f32OfUnits neg num 1) = true) : f32Mag (f32OfUnits neg num 1) = num := by
  obtain ⟨k, hk⟩ := hdvd
  rw [f32OfUnits_mag neg one_pos hf, Nat.div_one, one_mul]
  generalize ulpExp num = e at hk
  rw [hk, Nat.mul_comm (2 ^ e) k, roundHalfEven_mul_self k (by positivity)]

/-! ## Addition -/

/-- The sign of the exact sum of two finite operands; of an exact zero, −0.0 for two negative zeros only (R14). -/
def sumSign (a b : F32) : Bool :=
  if f32Val a + f32Val b = 0 then f32Sign a && f32Sign b else decide (f32Val a + f32Val b < 0)

theorem signed_sumSign (a b : F32) : signed (sumSign a b) (f32Val a + f32Val b).natAbs = f32Val a + f32Val b :=
  signed_natAbs fun h => by rw [sumSign, if_neg h]

/-- A zero is the rounding of 0. -/
theorem f32Zero_eq_f32OfUnits (neg : Bool) : f32Zero neg = f32OfUnits neg 0 1 := rfl

/-- The sum of finite operands is the exact sum, rounded once. -/
theorem f32Add_of_finite {a b : F32} (ha : f32IsFinite a = true) (hb : f32IsFinite b = true) :
    f32Add a b = f32OfUnits (sumSign a b) (f32Val a + f32Val b).natAbs 1 := by
  obtain ⟨hna, hia⟩ := f32IsFinite_class a ha
  obtain ⟨hnb, hib⟩ := f32IsFinite_class b hb
  unfold f32Add sumSign
  by_cases hsum : f32Val a + f32Val b = 0
  · simp [hna, hnb, hia, hib, hsum, f32Zero_eq_f32OfUnits]
  · simp [hna, hnb, hia, hib, hsum]

/-- Settles O55: a finite sum is one rounding of the exact sum with `sumSign`. -/
theorem additionIsCorrectlyRounded : Obligations.AdditionIsCorrectlyRounded := by
  refine ⟨fun a b => ⟨rfl, rfl⟩, fun a b ha hb => ?_⟩
  rw [f32Add_of_finite ha hb]
  obtain ⟨-, hnan, hsign⟩ := f32OfUnits_class (sumSign a b) (f32Val a + f32Val b).natAbs 1
  refine ⟨hnan, hsign, ?_, fun hfin y _ => ?_⟩
  · rw [f32OfUnits_isInf _ _ _ one_pos, mul_one]
  · simpa [signed_sumSign] using f32OfUnits_nearest _ _ 1 one_pos hfin y

/-! ## Multiplication -/

/-- The product of finite operands is the exact product, rounded once. -/
theorem f32Mul_of_finite {a b : F32} (ha : f32IsFinite a = true) (hb : f32IsFinite b = true) :
    f32Mul a b = f32OfUnits (f32Sign a != f32Sign b) (f32Mag a * f32Mag b) unitScale := by
  obtain ⟨hna, hia⟩ := f32IsFinite_class a ha
  obtain ⟨hnb, hib⟩ := f32IsFinite_class b hb
  simp [f32Mul, hna, hnb, hia, hib]

/-- Settles O56: a finite product is one rounding of the exact product. -/
theorem multiplicationIsCorrectlyRounded : Obligations.MultiplicationIsCorrectlyRounded := by
  intro a b ha hb
  have hscale : 0 < unitScale := by positivity
  rw [f32Mul_of_finite ha hb, f32Val_mul, natAbs_signed]
  obtain ⟨-, hnan, hsign⟩ := f32OfUnits_class (f32Sign a != f32Sign b) (f32Mag a * f32Mag b) unitScale
  exact ⟨hnan, hsign, f32OfUnits_isInf _ _ _ hscale, fun hfin y _ => f32OfUnits_nearest _ _ _ hscale hfin y⟩

/-! ## Division -/

/-- The quotient of finite operands, the divisor not zero, is the exact quotient, rounded once. -/
theorem f32Div_of_finite {a b : F32} (ha : f32IsFinite a = true) (hb : f32IsFinite b = true) (hb0 : f32Mag b ≠ 0) :
    f32Div a b = f32OfUnits (f32Sign a != f32Sign b) (f32Mag a * unitScale) (f32Mag b) := by
  obtain ⟨hna, hia⟩ := f32IsFinite_class a ha
  obtain ⟨hnb, hib⟩ := f32IsFinite_class b hb
  simp [f32Div, hna, hnb, hia, hib, hb0]

/-- The distance of `x` from the exact quotient, multiplied by the divisor with its sign or without. -/
theorem abs_sub_quotient (a b : F32) (x : Int) : |x * f32Val b - f32Val a * unitScale| =
    |x * f32Mag b - signed (f32Sign a != f32Sign b) (f32Mag a * unitScale)| := by
  rw [f32Val_eq_signed a, f32Val_eq_signed b, signed_mul_natCast]
  cases f32Sign b
  · rw [Bool.bne_false]; rfl
  · rw [Bool.bne_true, signed_not, ← abs_neg, show signed true (f32Mag b) = -(f32Mag b : Int) from rfl]
    congr 1
    ring

/-- Settles O57: a finite quotient is one rounding of the exact quotient. -/
theorem divisionIsCorrectlyRounded : Obligations.DivisionIsCorrectlyRounded := by
  intro a b ha hb hb0
  have hmag : f32Mag b ≠ 0 := by rwa [← natAbs_f32Val, Int.natAbs_ne_zero]
  have hpos : 0 < f32Mag b := Nat.pos_of_ne_zero hmag
  rw [f32Div_of_finite ha hb hmag, natAbs_f32Val, natAbs_f32Val]
  obtain ⟨-, hnan, hsign⟩ := f32OfUnits_class (f32Sign a != f32Sign b) (f32Mag a * unitScale) (f32Mag b)
  refine ⟨hnan, hsign, f32OfUnits_isInf _ _ _ hpos, fun hfin y _ => ?_⟩
  rw [abs_sub_quotient, abs_sub_quotient]
  exact f32OfUnits_nearest _ _ _ hpos hfin y

/-! ## Square root -/

/-- The loop of `isqrt`: a root bracketed within the 2^k still to be decided ends bracketed within 1. -/
theorem isqrtFrom_brackets {n k r : Nat} (hlo : r * r ≤ n) (hhi : n < (r + 2 ^ k) * (r + 2 ^ k)) :
    isqrtFrom n k r * isqrtFrom n k r ≤ n ∧ n < (isqrtFrom n k r + 1) * (isqrtFrom n k r + 1) := by
  induction k generalizing r with
  | zero => exact ⟨hlo, hhi⟩
  | succ k ih =>
    rw [pow_succ, Nat.mul_two, ← Nat.add_assoc] at hhi
    rw [isqrtFrom]
    by_cases hbit : (r + 2 ^ k) * (r + 2 ^ k) ≤ n
    · rw [if_pos hbit]; exact ih hbit hhi
    · rw [if_neg hbit]; exact ih hlo (by omega)

/-- `isqrt` is the integer square root. -/
theorem isqrt_brackets {n : Nat} (h : n < 2 ^ 214 * 2 ^ 214) :
    isqrt n * isqrt n ≤ n ∧ n < (isqrt n + 1) * (isqrt n + 1) :=
  isqrtFrom_brackets (Nat.zero_le n) (by rwa [Nat.zero_add])

/-- What `f32Sqrt` rounds, in half units: twice the integer root, and one more where the root is not exact. -/
def rootHalves (n : Nat) : Nat := 2 * isqrt n + if isqrt n * isqrt n = n then 0 else 1

/-- An even number below the root in half units is below the exact root, and one above it above. -/
theorem rootHalves_brackets {n s : Nat} (hn : n < 2 ^ 214 * 2 ^ 214) (hs : isqrt n * isqrt n ≠ n → s % 2 = 0) :
    (s ≤ rootHalves n → s ^ 2 ≤ 4 * n) ∧ (rootHalves n ≤ s → 4 * n ≤ s ^ 2) := by
  obtain ⟨hlo, hhi⟩ := isqrt_brackets hn
  unfold rootHalves
  generalize isqrt n = r at *
  by_cases hsq : r * r = n
  · rw [if_pos hsq, ← hsq]
    exact ⟨fun h => by nlinarith, fun h => by nlinarith⟩
  · rw [if_neg hsq]
    have heven := hs hsq
    refine ⟨fun h => ?_, fun h => ?_⟩
    · have : s ≤ 2 * r := by omega
      nlinarith
    · have : 2 * (r + 1) ≤ s := by omega
      nlinarith

/-- Half the halves is the integer root. -/
theorem rootHalves_div_two (n : Nat) : rootHalves n / 2 = isqrt n := by
  unfold rootHalves; split <;> omega

/-- The last place of a root of 2^149 units or more is more than one unit. -/
theorem ulpExp_isqrt_pos {n : Nat} (hlo : 2 ^ 149 ≤ n) (hn : n < 2 ^ 214 * 2 ^ 214) : 1 ≤ ulpExp (isqrt n) := by
  by_contra hc
  have hlt := (ulpExp_bounds (isqrt n)).1
  rw [show ulpExp (isqrt n) = 0 by omega, Nat.zero_add] at hlt
  have hsq := Nat.mul_le_mul (Nat.succ_le_of_lt hlt) (Nat.succ_le_of_lt hlt)
  have := (isqrt_brackets hn).2
  simp only [Nat.succ_eq_add_one] at hsq
  omega

/-- A rounded significand `r` at the place `e` of the halves `h`: the midpoint to another number of that place does not
pass `h`. -/
theorem midpoint_brackets {h e r m : Nat} (hr : r = roundHalfEven h (2 * 2 ^ e))
    (he : e ≠ 0 → 2 ^ (e + 23) * 2 ≤ h) :
    (m < r → (m + r) * 2 ^ e ≤ h) ∧ (r < m → h ≤ (m + r) * 2 ^ e) := by
  have hnear := (rounded_nearest h 2 e r (m * 2 ^ e) two_pos he hr (.inr ⟨m, rfl⟩)).1
  have hml : m < r → m * 2 ^ e < r * 2 ^ e := fun h => Nat.mul_lt_mul_of_pos_right h (by positivity)
  have hrl : r < m → r * 2 ^ e < m * 2 ^ e := fun h => Nat.mul_lt_mul_of_pos_right h (by positivity)
  rw [Nat.add_mul]
  have hcast : |((r * 2 ^ e : Nat) : Int) * 2 - h| ≤ |((m * 2 ^ e : Nat) : Int) * 2 - h| := by
    push_cast at hnear ⊢; exact hnear
  generalize r * 2 ^ e = R at *
  generalize m * 2 ^ e = M at *
  have hR := abs_cases ((R : Int) * 2 - h)
  have hM := abs_cases ((M : Int) * 2 - h)
  exact ⟨fun hlt => by have := hml hlt; omega, fun hlt => by have := hrl hlt; omega⟩

/-- The rounded root against another number of its last place, through the square of the midpoint. -/
theorem rounded_root_brackets {n e r m : Nat} (hlo : 2 ^ 149 ≤ n) (hn : n < 2 ^ 214 * 2 ^ 214)
    (he : e = ulpExp (isqrt n)) (hr : r = roundHalfEven (rootHalves n) (2 * 2 ^ e)) :
    (m < r → ((m + r) * 2 ^ e) ^ 2 ≤ 4 * n) ∧ (r < m → 4 * n ≤ ((m + r) * 2 ^ e) ^ 2) := by
  have hpos : 1 ≤ e := he ▸ ulpExp_isqrt_pos hlo hn
  have hulp : e ≠ 0 → 2 ^ (e + 23) * 2 ≤ rootHalves n := fun h0 => by
    have := (ulpExp_bounds (isqrt n)).2 (he ▸ h0)
    rw [← he, ← rootHalves_div_two] at this
    omega
  have heven : (m + r) * 2 ^ e % 2 = 0 :=
    Nat.mod_eq_zero_of_dvd (Dvd.dvd.mul_left (dvd_pow_self 2 (by omega)) _)
  obtain ⟨hbelow, habove⟩ := midpoint_brackets hr hulp (m := m)
  obtain ⟨hsqle, hsqge⟩ := rootHalves_brackets hn fun _ => heven
  exact ⟨fun h => hsqle (hbelow h), fun h => hsqge (habove h)⟩

/-- The rounded root against any binary32: one under the root's binade is farther than that binade's first number. -/
theorem rounded_root_nearest {n e r : Nat} (hlo : 2 ^ 149 ≤ n) (hn : n < 2 ^ 214 * 2 ^ 214)
    (he : e = ulpExp (isqrt n)) (hr : r = roundHalfEven (rootHalves n) (2 * 2 ^ e)) (y : F32) :
    (f32Mag y < r * 2 ^ e → (f32Mag y + r * 2 ^ e) ^ 2 ≤ 4 * n) ∧
    (r * 2 ^ e < f32Mag y → 4 * n ≤ (f32Mag y + r * 2 ^ e) ^ 2) := by
  rcases f32Mag_multiple y e with hunder | ⟨m, hm⟩
  · have hpos : 1 ≤ e := he ▸ ulpExp_isqrt_pos hlo hn
    have hnormal : 2 ^ 23 ≤ r := by
      have := (significand_bounds (rootHalves n) 2 two_pos).2
      rw [rootHalves_div_two, ← he, ← hr] at this
      exact this (by omega)
    have hbinade : 2 ^ (e + 23) = 2 ^ 23 * 2 ^ e := by rw [pow_add, Nat.mul_comm]
    have hge : 2 ^ (e + 23) ≤ r * 2 ^ e := hbinade.trans_le (Nat.mul_le_mul_right _ hnormal)
    refine ⟨fun _ => ?_, fun h => absurd h (by omega)⟩
    rcases hnormal.lt_or_eq with hlt | heq
    · calc (f32Mag y + r * 2 ^ e) ^ 2 ≤ ((2 ^ 23 + r) * 2 ^ e) ^ 2 :=
            Nat.pow_le_pow_left (by rw [Nat.add_mul, ← hbinade]; omega) 2
        _ ≤ 4 * n := (rounded_root_brackets hlo hn he hr).1 hlt
    · have hroot : 2 ^ (e + 23) ≤ isqrt n := he ▸ (ulpExp_bounds (isqrt n)).2 (by omega)
      calc (f32Mag y + r * 2 ^ e) ^ 2 ≤ (2 * isqrt n) ^ 2 :=
            Nat.pow_le_pow_left (by rw [← heq, ← hbinade]; omega) 2
        _ = 4 * (isqrt n * isqrt n) := by ring
        _ ≤ 4 * n := Nat.mul_le_mul_left 4 (isqrt_brackets hn).1
  · rw [hm, ← Nat.add_mul]
    obtain ⟨hbelow, habove⟩ := rounded_root_brackets hlo hn he hr (m := m)
    exact ⟨fun h => hbelow (Nat.lt_of_mul_lt_mul_right h), fun h => habove (Nat.lt_of_mul_lt_mul_right h)⟩

/-- The root of a positive finite operand is the exact root, rounded once. -/
theorem f32Sqrt_of_pos {a : F32} (ha : f32IsFinite a = true) (hs : f32Sign a = false) (h0 : f32Mag a ≠ 0) :
    f32Sqrt a = f32OfUnits false (rootHalves (f32Mag a * unitScale)) 2 := by
  obtain ⟨hna, hia⟩ := f32IsFinite_class a ha
  simp [f32Sqrt, rootHalves, hna, hia, hs, h0]

theorem f32Sqrt_of_zero {a : F32} (ha : f32IsFinite a = true) (h0 : f32Mag a = 0) : f32Sqrt a = a := by
  simp [f32Sqrt, (f32IsFinite_class a ha).1, h0]

/-- The root of a number `isqrt` handles stays under the rounding boundary. -/
theorem f32OfUnits_root_finite {n : Nat} (hn : n < 2 ^ 214 * 2 ^ 214) :
    f32IsFinite (f32OfUnits false (rootHalves n) 2) = true := by
  apply f32OfUnits_finite false two_pos
  have hroot : isqrt n < 2 ^ 214 := by
    by_contra hc
    have := Nat.mul_le_mul (Nat.le_of_not_lt hc) (Nat.le_of_not_lt hc)
    exact absurd (this.trans (isqrt_brackets hn).1) (Nat.not_le_of_lt hn)
  have : rootHalves n ≤ 2 * isqrt n + 1 := by unfold rootHalves; split <;> omega
  omega

/-- Settles O58: the root is one rounding of `rootHalves`, which lies on the same side of every midpoint as the exact
root. -/
theorem squareRootIsCorrectlyRounded : Obligations.SquareRootIsCorrectlyRounded := by
  intro a ha hs
  by_cases h0 : f32Mag a = 0
  · rw [f32Sqrt_of_zero ha h0, h0]
    exact ⟨ha, hs, fun y _ => ⟨fun h => absurd h (Nat.not_lt_zero _), fun _ => by omega⟩⟩
  · rw [f32Sqrt_of_pos ha hs h0]
    have hlo : 2 ^ 149 ≤ f32Mag a * unitScale := Nat.le_mul_of_pos_left _ (Nat.pos_of_ne_zero h0)
    have hn : f32Mag a * unitScale < 2 ^ 214 * 2 ^ 214 := by
      have := f32Mag_lt_of_finite ha
      unfold unitScale
      omega
    have hfin := f32OfUnits_root_finite hn
    refine ⟨hfin, (f32OfUnits_class _ _ _).2.2, fun y _ => ?_⟩
    rw [f32OfUnits_mag false two_pos hfin, rootHalves_div_two]
    exact rounded_root_nearest hlo hn rfl rfl y

/-! ## Integers to binary32 -/

theorem signed_toF32 (i : Int) : signed (decide (i < 0)) (i.natAbs * unitScale) = i * unitScale := by
  rw [← signed_mul_natCast, signed_natAbs fun _ => rfl]

/-- An integer up to 2^127 in magnitude converts to a finite value. -/
theorem toF32_finite {i : Int} (h : |i| ≤ 2 ^ 127) : f32IsFinite (toF32 i) = true := by
  apply f32OfUnits_finite _ one_pos
  rw [Int.abs_eq_natAbs] at h
  unfold unitScale
  omega

theorem toF32_nearest {i : Int} (hf : f32IsFinite (toF32 i) = true) (y : F32) :
    |f32Val (toF32 i) - i * unitScale| ≤ |f32Val y - i * unitScale| ∧
    (|f32Val (toF32 i) - i * unitScale| = |f32Val y - i * unitScale| → f32Val y ≠ f32Val (toF32 i) →
      (toF32 i).getLsbD 0 = false) := by
  simpa [signed_toF32, toF32] using f32OfUnits_nearest _ _ 1 one_pos hf y

/-- 24 bits of units of 1.0, or 2^24 of them, are a whole number of last places. -/
theorem ulp_dvd_small {m : Nat} (h : m ≤ 2 ^ 24) : 2 ^ ulpExp (m * unitScale) ∣ m * unitScale := by
  have hulp := (ulpExp_bounds (m * unitScale)).2
  generalize ulpExp (m * unitScale) = e at *
  have hbits : m < 2 ^ 24 → e ≤ 149 := fun hlt => by
    by_contra hc
    have hpow := Nat.pow_le_pow_right two_pos (show 173 ≤ e + 23 by omega)
    have := hpow.trans (hulp (by omega))
    unfold unitScale at this
    omega
  rcases h.lt_or_eq with hlt | rfl
  · exact Dvd.dvd.mul_left (pow_dvd_pow 2 (hbits hlt)) m
  · rw [unitScale, ← pow_add] at *
    refine pow_dvd_pow 2 ?_
    by_contra hc
    have := (Nat.pow_le_pow_iff_right one_lt_two).mp (hulp (by omega))
    omega

theorem toF32_exact {i : Int} (h : |i| ≤ 2 ^ 24) : f32Val (toF32 i) = i * unitScale := by
  have hfin : f32IsFinite (toF32 i) = true := toF32_finite (h.trans (by norm_num))
  have hsmall : i.natAbs ≤ 2 ^ 24 := by rw [Int.abs_eq_natAbs] at h; omega
  have hmag : f32Mag (toF32 i) = i.natAbs * unitScale := f32OfUnits_mag_of_dvd _ (ulp_dvd_small hsmall) hfin
  have hsign : f32Sign (toF32 i) = decide (i < 0) := (f32OfUnits_class _ _ _).2.2
  rw [f32Val_eq_signed, hsign, hmag, signed_toF32]

/-! ## Comparisons -/

theorem f32Lt_of_number {a b : F32} (ha : f32IsNaN a = false) (hb : f32IsNaN b = false) :
    f32Lt a b = decide (f32Val a < f32Val b) := by
  simp [f32Lt, ha, hb]

theorem f32Le_of_number {a b : F32} (ha : f32IsNaN a = false) (hb : f32IsNaN b = false) :
    f32Le a b = decide (f32Val a ≤ f32Val b) := by
  simp [f32Le, ha, hb]

theorem compare_nan {a b : F32} (h : f32IsNaN a = true ∨ f32IsNaN b = true) :
    f32Lt a b = false ∧ f32Le a b = false := by
  rcases h with h | h <;> simp [f32Lt, f32Le, h]

/-- An infinity is beyond every finite value, on the side of its sign. -/
theorem f32Val_finite_inf {a b : F32} (ha : f32IsFinite a = true) (hb : f32IsInf b = true) :
    (f32Val a < f32Val b ↔ f32Sign b = false) ∧ (f32Val b < f32Val a ↔ f32Sign b = true) := by
  have hmag := f32Mag_lt_of_finite ha
  rw [← f32Mag_of_isInf hb] at hmag
  have habs := natAbs_f32Val a
  rw [f32Val_eq_signed b]
  generalize f32Val a = v at *
  generalize f32Mag b = B at *
  cases f32Sign b
  · simp [signed]; omega
  · simp [signed]; omega

/-- Settles O59: `toF32` is one rounding, which leaves 24 bits alone; numbers compare as their values do. -/
theorem smallIntegersConvertExactlyAndNaNsCompareFalse :
    Obligations.SmallIntegersConvertExactlyAndNaNsCompareFalse := by
  refine ⟨fun i h => ⟨toF32_finite (h.trans (by norm_num)), toF32_exact h⟩, fun i y h _ => ?_, fun a b h => ?_,
    fun a b ha hb => ?_, fun a b ha hb => ?_⟩
  · exact ⟨toF32_finite h, toF32_nearest (toF32_finite h) y⟩
  · obtain ⟨hlt, hle⟩ := compare_nan h
    obtain ⟨hgt, hge⟩ := compare_nan h.symm
    exact ⟨hlt, hle, hgt, hge⟩
  · simp [f32Gt, f32Ge, f32Lt_of_number, f32Le_of_number, ha, hb]
  · have hna := (f32IsFinite_class a ha).1
    have hnb := f32IsNaN_of_isInf hb
    obtain ⟨hlt, hgt⟩ := f32Val_finite_inf ha hb
    rw [f32Gt, f32Lt_of_number hna hnb, f32Lt_of_number hnb hna]
    cases hs : f32Sign b <;> simp_all

/-! ## Conversions to integer (R15) -/

/-- The conversion of a number: its magnitude divided, its sign, then the saturation. -/
theorem f32ToI32TzSat_of_number {x : F32} (h : f32IsNaN x = false) :
    f32ToI32TzSat x = clamp (signed (f32Sign x) (f32Mag x / unitScale)) (-(2 ^ 31)) (2 ^ 31 - 1) := by
  rw [f32ToI32TzSat, h, if_neg (by decide)]

/-- Dividing a magnitude keeps its place among ±2^31, so the saturation is that of the exact value. -/
theorem clamp_signed_div {neg : Bool} {m : Nat} {q : Int} (hq : q = signed neg (m / unitScale)) :
    (signed neg m ≤ -(2 ^ 31) * unitScale → clamp q (-(2 ^ 31)) (2 ^ 31 - 1) = -(2 ^ 31)) ∧
    (2 ^ 31 * unitScale ≤ signed neg m → clamp q (-(2 ^ 31)) (2 ^ 31 - 1) = 2 ^ 31 - 1) ∧
    (-(2 ^ 31) * unitScale < signed neg m → signed neg m < 2 ^ 31 * unitScale →
      clamp q (-(2 ^ 31)) (2 ^ 31 - 1) = q) := by
  unfold clamp
  unfold unitScale at *
  push_cast
  cases neg
  · simp only [signed, Bool.false_eq_true, if_false] at *; omega
  · simp only [signed, if_true] at *; omega

/-- `roundHalfAway` is the nearest integer, ties up. -/
theorem roundHalfAway_brackets (num : Nat) {den : Nat} (hd : 0 < den) :
    2 * (roundHalfAway num den * den) ≤ 2 * num + den ∧ 2 * num < 2 * (roundHalfAway num den * den) + den := by
  have hdiv := Nat.div_add_mod (2 * num + den) (2 * den)
  have hmod := Nat.mod_lt (2 * num + den) (show 0 < 2 * den by omega)
  rw [← roundHalfAway, Nat.mul_assoc, Nat.mul_comm den] at hdiv
  omega

/-- Settles O60: the saturation by `clamp_signed_div`, the rounding by `roundHalfAway_brackets`. -/
theorem conversionsTruncateSaturateAndRound : Obligations.ConversionsTruncateSaturateAndRound := by
  refine ⟨fun x hx => ?_, fun num den => roundHalfAway_brackets num⟩
  rw [f32ToI32TzSat_of_number hx, f32Val_eq_signed, signed_tdiv]
  exact clamp_signed_div rfl

/-! ## Steps -/

theorem fetchLine_of_decode {words : List Word} {i : Instr} (h : decode words = .ok (i, [])) :
    fetchLine words = .ok i := by
  rw [fetchLine, h]

theorem step_line {s : State} {words : List Word} {sched : List Turn} {i : Instr}
    (hs : s.sched = .line words :: sched) (h : decode words = .ok (i, [])) :
    step s = exec i { s with sched := sched } := by
  rw [step, hs]
  simp only [fetchLine_of_decode h]

theorem decodeTableWord_eq_some {nbits w : Nat} {i : Instr} (h : decodeTableWord nbits w = some i) :
    decode (tableWords nbits w) = .ok (i, []) := by
  unfold decodeTableWord at h
  split at h
  · cases h; assumption
  · cases h
  · cases h

/-- Settles O6: a fetched word is a program line, and taking that line gives the state back. -/
theorem stepRunsTheNextProgramLine : Obligations.StepRunsTheNextProgramLine :=
  ⟨fun _ _ _ _ hs h => step_line hs h,
    fun s nbits w _ h => step_line (s.withFetchWord_sched nbits w) (decodeTableWord_eq_some h)⟩

end Sys2Proof.Machine
end

section
/-!
PROOFS. What an operation can do, one constructor a branch of its rule, and what follows at once: who writes each state
element (spec/10_state.md), the microprogram (R260) and the one enabled operation of SEQ (R261).
-/

namespace Sys2Proof.Machine

variable {s t : State} {i : Instr}

/-! ## What an operation can do -/

/-- `Effect s i t`: operation `i` takes the state `s` to `t`, one constructor a branch of its meaning, guards included.
Every next state is one (`effect_of_exec`), so a case split on it gives the successor as a record update of `s`. -/
inductive Effect (s : State) : Instr → State → Prop
  | acqSample (v : Sample) (hrun : s.mode = .run) (hwptr : s.wptr < s.cfg.params.hopSize)
      (hcell : s.wptr < (s.acqBuf.get s.active).length) :
      Effect s (.acqSample v)
        { s with
          acqBuf := s.acqBuf.set s.active ((s.acqBuf.get s.active).set s.wptr v)
          wptr := s.wptr + 1 }
  | acqDone (hrun : s.mode = .run) (hwptr : s.wptr = s.cfg.params.hopSize) :
      Effect s .acqDone
        { s with
          ovrDrop := ovrDropAfterDone s
          ovrRead := ovrReadAfterDone s
          active := other s.active
          wptr := 0
          ready := true }
  | seqCheckTaken (hrun : s.mode = .run) (hpc : s.seqPc = .check) (hready : s.ready = true) :
      Effect s .seqCheck { s with ready := false, consIdx := other s.active, ingestPtr := 0, seqPc := .ingest }
  | seqCheckSkipped (hrun : s.mode = .run) (hpc : s.seqPc = .check) (hready : s.ready = false) :
      Effect s .seqCheck { s with seqPc := .acquire }
  | anIngest (v : Sample) (hrun : s.mode = .run) (hpc : s.seqPc = .ingest) (hcell : s.ingestPtr < s.stage.length)
      (hv : (s.acqBuf.get s.consIdx)[s.ingestPtr]? = some v) :
      Effect s .anIngest
        { s with
          stage := s.stage.set s.ingestPtr v
          ingestPtr := s.ingestPtr + 1
          seqPc := if s.ingestPtr + 1 = s.cfg.params.hopSize then .compute else s.seqPc }
  | anCompute (w : List F32) (hrun : s.mode = .run) (hpc : s.seqPc = .compute)
      (hw : w = slideAppend s.cfg.params s.win s.stage) :
      Effect s .anCompute
        { s with
          win := w
          bins := updateBins s.cfg.params s.guardR.toNat (magnitudes s.cfg.params w) s.bins
          seqPc := .acquire }
  | poolAcquireGranted (b : BufId) (hrun : s.mode = .run) (hpc : s.seqPc = .acquire)
      (hfree : firstFree s.pstate = some b) :
      Effect s .poolAcquire { s with pstate := s.pstate.set b .filling, curBuf := some b, seqPc := .fill }
  | poolAcquireSkipped (hrun : s.mode = .run) (hpc : s.seqPc = .acquire) (hfree : firstFree s.pstate = none) :
      Effect s .poolAcquire { s with curBuf := none, seqPc := .check }
  | synFill (b : BufId) (r : List Bin × List Word) (hrun : s.mode = .run) (hpc : s.seqPc = .fill)
      (hcur : s.curBuf = some b)
      (hr : r = synBins s.cfg.params s.wave (base s.waveCfg) (tbits s.waveCfg) s.bins
        (List.replicate s.cfg.params.blockLen 0#32)) :
      Effect s .synFill
        { s with bins := r.1, mix := r.2, pbuf := s.pbuf.set b (stereoBlock r.2), seqPc := .release }
  | poolRelease (b : BufId) (hrun : s.mode = .run) (hpc : s.seqPc = .release) (hcur : s.curBuf = some b) :
      Effect s .poolRelease
        { s with pstate := s.pstate.set b .queued, queue := s.queue ++ [b], curBuf := none, seqPc := .check }
  | outTake (b : BufId) (rest : List BufId) (hrun : s.mode = .run) (hplaying : s.playing = none)
      (hqueue : s.queue = b :: rest) :
      Effect s .outTake { s with queue := rest, pstate := s.pstate.set b .playing, playing := some b }
  | outDone (b : BufId) (hrun : s.mode = .run) (hplaying : s.playing = some b) :
      Effect s .outDone
        { s with outLog := s.outLog ++ [s.pbuf.get b], pstate := s.pstate.set b .free, playing := none }
  | csrRead (off : BitVec 8) (hoff : offsetAligned off = true) :
      Effect s (.csrRead off) (emit (csrValue s (csrOffset off)) s)
  | csrWriteBinds (data : Word) (hlegal : waveCfgLegal data = true) :
      Effect s (.csrWrite 0x04#8 data) { s with waveCfg := data }
  | csrWriteIgnored (off : BitVec 8) (data : Word) (hoff : offsetAligned off = true) : Effect s (.csrWrite off data) s
  | initRuns (hmode : s.mode = .init) (hpc : s.seqPc = .init) :
      Effect s (.init true)
        { s with
          bins := s.bins.mapIdx fun k b => { b with phaseIncrement := phaseIncrement s.cfg.params k }
          guardR := guardRadius s.cfg.params
          mode := .run
          seqPc := .check }
  | initHalts (hmode : s.mode = .init) (hpc : s.seqPc = .init) : Effect s (.init false) { s with mode := .halted }
  | reset : Effect s .reset (resetState s)

/-- Every next state of an operation comes of one of its branches. -/
theorem effect_of_exec (h : exec i s = .next t) : Effect s i t := by
  cases i with
  | acqSample v =>
    obtain ⟨⟨hrun, hwptr⟩, hcell, rfl⟩ := execAcqSample_next.mp h
    exact .acqSample v hrun hwptr hcell
  | acqDone =>
    obtain ⟨⟨hrun, hwptr⟩, rfl⟩ := execAcqDone_next.mp h
    exact .acqDone hrun hwptr
  | seqCheck =>
    obtain ⟨⟨hrun, hpc⟩, ⟨hready, rfl⟩ | ⟨hready, rfl⟩⟩ := execSeqCheck_next.mp h
    · exact .seqCheckTaken hrun hpc hready
    · exact .seqCheckSkipped hrun hpc hready
  | anIngest =>
    obtain ⟨⟨hrun, hpc⟩, hcell, v, hv, rfl⟩ := execAnIngest_next.mp h
    exact .anIngest v hrun hpc hcell hv
  | anCompute =>
    obtain ⟨⟨hrun, hpc⟩, rfl⟩ := execAnCompute_next.mp h
    exact .anCompute _ hrun hpc rfl
  | poolAcquire =>
    obtain ⟨⟨hrun, hpc⟩, ⟨b, hfree, rfl⟩ | ⟨hfree, rfl⟩⟩ := execPoolAcquire_next.mp h
    · exact .poolAcquireGranted b hrun hpc hfree
    · exact .poolAcquireSkipped hrun hpc hfree
  | synFill =>
    obtain ⟨⟨hrun, hpc⟩, b, hcur, rfl⟩ := execSynFill_next.mp h
    exact .synFill b _ hrun hpc hcur rfl
  | poolRelease =>
    obtain ⟨⟨hrun, hpc⟩, b, hcur, rfl⟩ := execPoolRelease_next.mp h
    exact .poolRelease b hrun hpc hcur
  | outTake =>
    obtain ⟨⟨hrun, hplaying⟩, b, rest, hqueue, rfl⟩ := execOutTake_next.mp h
    exact .outTake b rest hrun hplaying hqueue
  | outDone =>
    obtain ⟨hrun, b, hplaying, rfl⟩ := execOutDone_next.mp h
    exact .outDone b hrun hplaying
  | csrRead off =>
    obtain ⟨hoff, rfl⟩ := execCsrRead_next.mp h
    exact .csrRead off hoff
  | csrWrite off data =>
    obtain ⟨hoff, rfl⟩ := execCsrWrite_next.mp h
    split
    next hbinds =>
      obtain ⟨hreg, hlegal⟩ := hbinds
      obtain rfl : off = 0x04#8 := BitVec.eq_of_toNat_eq hreg
      exact .csrWriteBinds data hlegal
    next => exact .csrWriteIgnored off data hoff
  | init ok =>
    obtain ⟨⟨hmode, hpc⟩, ⟨rfl, rfl⟩ | ⟨rfl, rfl⟩⟩ := execInit_next.mp h
    · exact .initRuns hmode hpc
    · exact .initHalts hmode hpc
  | reset =>
    obtain rfl := execReset_next.mp h
    exact .reset

/-! ## Who writes each element -/

/-- Settles O48: a branch of `Effect` names the elements it writes, so that every other clause compares an element with
itself. -/
theorem everyControlElementHasItsWriters : Obligations.EveryControlElementHasItsWriters := by
  intro i s t h
  cases effect_of_exec h with
  | acqDone => simp +contextual [ovrReadAfterDone, ovrDropAfterDone]
  | _ => simp [Instr.agent]

theorem exec_cfg (h : exec i s = .next t) : t.cfg = s.cfg := by
  cases effect_of_exec h <;> rfl

theorem exec_wave (h : exec i s = .next t) : t.wave = s.wave := by
  cases effect_of_exec h <;> rfl

/-- Settles O50: no operation writes either field, and a turn of the schedule only chooses the operation. -/
theorem noStepWritesTheConfigurationOrTheWaveforms : Obligations.NoStepWritesTheConfigurationOrTheWaveforms := by
  intro s t h
  obtain ⟨hcfg, hwave⟩ : t.cfg = s.cfg ∧ t.wave = s.wave :=
    step_keeps (P := fun u => u.cfg = s.cfg ∧ u.wave = s.wave) (fun _ _ _ hu => hu)
      (fun _ _ _ ⟨hcfg, hwave⟩ hu => ⟨(exec_cfg hu).trans hcfg, (exec_wave hu).trans hwave⟩) ⟨rfl, rfl⟩ h
  exact ⟨hcfg, fun a => by rw [hwave]⟩

/-! ## The microprogram (R260) -/

theorem seqPc_of_seqCheck (h : exec .seqCheck s = .next t) : t.seqPc = if s.ready then .ingest else .acquire := by
  cases effect_of_exec h with
  | seqCheckTaken _ _ hready => rw [if_pos hready]
  | seqCheckSkipped _ _ hready => rw [hready]; rfl

theorem seqPc_of_anIngest (h : exec .anIngest s = .next t) :
    t.seqPc = if s.ingestPtr + 1 = s.cfg.params.hopSize then .compute else .ingest := by
  cases effect_of_exec h with
  | anIngest _ _ hpc => simp only [hpc]

theorem seqPc_of_poolAcquire (h : exec .poolAcquire s = .next t) :
    t.seqPc = if ∃ b, s.pstate.get b = .free then .fill else .check := by
  cases effect_of_exec h with
  | poolAcquireGranted b _ _ hfree => rw [if_pos ⟨b, (firstFree_eq_some.mp hfree).1⟩]
  | poolAcquireSkipped _ _ hfree => rw [if_neg (fun ⟨b, hb⟩ => firstFree_eq_none.mp hfree b hb)]

/-- Settles O43: the last clause is the writers of `SEQ_PC` (O48). -/
theorem microprogramSuccessors : Obligations.MicroprogramSuccessors := by
  intro s t
  refine ⟨seqPc_of_seqCheck, seqPc_of_anIngest, fun h => ?_, seqPc_of_poolAcquire, fun h => ?_, fun h => ?_,
    fun h => ?_, fun h => ?_, fun i hagent hreset h => ?_⟩
  · cases effect_of_exec h; rfl
  · cases effect_of_exec h; rfl
  · cases effect_of_exec h; rfl
  · cases effect_of_exec h; exact ⟨rfl, rfl⟩
  · cases effect_of_exec h with
    | initHalts _ hpc => exact ⟨hpc, rfl⟩
  · obtain ⟨_, hwriters, _⟩ := everyControlElementHasItsWriters i s t h
    by_contra hpc
    exact (hwriters hpc).elim hreset hagent

/-- The SEQ operation that stands at a position of the microprogram (R260). -/
def SeqPc.op : SeqPc → Instr
  | .init => .init true
  | .check => .seqCheck
  | .ingest => .anIngest
  | .compute => .anCompute
  | .acquire => .poolAcquire
  | .fill => .synFill
  | .release => .poolRelease

theorem seqPc_op_agent (pc : SeqPc) : pc.op.agent = .seq := by cases pc <;> rfl

/-- In RUN the operation `SEQ_PC` stands at is enabled. -/
theorem enabled_seqPc_op (hrun : s.mode = .run) (hpc : s.seqPc ≠ .init) : enabled s.seqPc.op s = true := by
  cases h : s.seqPc with
  | init => exact absurd h hpc
  | check => exact enabled_seqCheck.mpr ⟨hrun, h⟩
  | ingest => exact enabled_anIngest.mpr ⟨hrun, h⟩
  | compute => exact enabled_anCompute.mpr ⟨hrun, h⟩
  | acquire => exact enabled_poolAcquire.mpr ⟨hrun, h⟩
  | fill => exact enabled_synFill.mpr ⟨hrun, h⟩
  | release => exact enabled_poolRelease.mpr ⟨hrun, h⟩

/-- In RUN no other SEQ operation is. -/
theorem eq_seqPc_op_of_enabled (hrun : s.mode = .run) (hagent : i.agent = .seq) (h : enabled i s = true) :
    i = s.seqPc.op := by
  cases i with
  | seqCheck => rw [(enabled_seqCheck.mp h).2]; rfl
  | anIngest => rw [(enabled_anIngest.mp h).2]; rfl
  | anCompute => rw [(enabled_anCompute.mp h).2]; rfl
  | poolAcquire => rw [(enabled_poolAcquire.mp h).2]; rfl
  | synFill => rw [(enabled_synFill.mp h).2]; rfl
  | poolRelease => rw [(enabled_poolRelease.mp h).2]; rfl
  | init => exact absurd (hrun.symm.trans (enabled_init.mp h).1) (by decide)
  | acqSample | acqDone | outTake | outDone | csrRead | csrWrite | reset => cases hagent

/-- Settles O47: ACQ and OUT by their guards, which exclude each other. -/
theorem oneOperationOfEachAgentIsEnabled : Obligations.OneOperationOfEachAgentIsEnabled := by
  intro s hmodePc hrun
  refine ⟨⟨s.seqPc.op, seqPc_op_agent _, enabled_seqPc_op hrun (hmodePc.running hrun),
    fun j hagent hj => eq_seqPc_op_of_enabled hrun hagent hj⟩, fun v ⟨hsample, hdone⟩ => ?_, fun ⟨htake, hdone⟩ => ?_⟩
  · exact (enabled_acqSample.mp hsample).2.ne (enabled_acqDone.mp hdone).2
  · exact (enabled_outDone.mp hdone).2 (enabled_outTake.mp htake).2.1

/-! ## The bins (R46) -/

/-- A bin after AN_COMPUTE is the update of the bin at the same index. -/
theorem updateBins_getElem? {p : Params} {R k : Nat} {mag : List F32} {bins : List Bin} {c : Bin}
    (h : (updateBins p R mag bins)[k]? = some c) :
    ∃ b, bins[k]? = some b ∧ c = binUpdate p b (mag.getD k 0#32) (peakTest p mag k R) := by
  simpa [updateBins, eq_comm] using h

/-- Settles O49: the frames of `binUpdate` and of `synBins`; in RUN no other branch but RESET writes `bins`. -/
theorem eachBinFieldHasOneWriter : Obligations.EachBinFieldHasOneWriter := by
  intro s t
  refine ⟨fun h k b c hb hc => ?_, fun h k b c hb hc => ?_, fun hrun i hcompute hfill hreset h => ?_⟩
  · cases effect_of_exec h
    obtain ⟨b', hb', rfl⟩ := updateBins_getElem? hc
    obtain rfl : b = b' := Option.some.inj (hb.symm.trans hb')
    exact binUpdate_frame _ _ _ _
  · cases effect_of_exec h with
    | synFill _ r _ _ _ hr =>
      subst hr
      obtain ⟨b', _, _, hb', rfl⟩ := synBins_frame _ _ _ _ hc
      obtain rfl : b = b' := Option.some.inj (hb.symm.trans hb')
      exact ⟨rfl, rfl, rfl, rfl, rfl, rfl, rfl⟩
  · cases effect_of_exec h with
    | anCompute => exact absurd rfl hcompute
    | synFill => exact absurd rfl hfill
    | reset => exact absurd rfl hreset
    | initRuns hmode => rw [hmode] at hrun; cases hrun
    | _ => rfl

end Sys2Proof.Machine
end

section
/-!
PROOFS. The invariant of the block (`Inv`): each part is kept by every operation, so the whole by every step, and it
holds in every reachable state (spec/10_state.md R47, R53).
-/

namespace Sys2Proof.Machine

variable {s t : State} {i : Instr}

/-! ## Lengths and pointers -/

theorem Shape.acqBuf_get_length (hs : Shape s) (i : Fin 2) : (s.acqBuf.get i).length = s.cfg.params.hopSize := by
  match i with
  | 0 => exact hs.acq0
  | 1 => exact hs.acq1

theorem Shape.pbuf_get_length (hs : Shape s) (b : BufId) : (s.pbuf.get b).length = 2 * s.cfg.params.blockLen := by
  match b with
  | 0 => exact hs.pbuf0
  | 1 => exact hs.pbuf1
  | 2 => exact hs.pbuf2

theorem exec_keeps_shape (hs : Shape s) (h : exec i s = .next t) : Shape t := by
  cases effect_of_exec h with
  | acqSample v =>
    have hacq (j : Fin 2) :
        ((s.acqBuf.set s.active ((s.acqBuf.get s.active).set s.wptr v)).get j).length = s.cfg.params.hopSize := by
      rw [Two.get_set]
      split
      · rw [List.length_set, hs.acqBuf_get_length]
      · exact hs.acqBuf_get_length j
    exact { hs with acq0 := hacq 0, acq1 := hacq 1 }
  | anIngest => exact { hs with stage := by rw [List.length_set, hs.stage] }
  | anCompute _ _ _ hw =>
    subst hw
    have hhop := s.cfg.valid.hopSize
    exact { hs with
      win := by simp only [slideAppend, List.length_append, List.length_drop, List.length_map, hs.win, hs.stage]; omega
      bins := by simp only [updateBins, List.length_mapIdx, hs.bins] }
  | synFill b r _ _ _ hr =>
    obtain ⟨hbins, hmix⟩ := synBins_length s.cfg.params s.wave (base s.waveCfg) (tbits s.waveCfg) s.bins
      (List.replicate s.cfg.params.blockLen 0#32)
    rw [← hr] at hbins hmix
    rw [List.length_replicate] at hmix
    have hpbuf (c : BufId) : ((s.pbuf.set b (stereoBlock r.2)).get c).length = 2 * s.cfg.params.blockLen := by
      rw [Three.get_set]
      split
      · rw [stereoBlock_length, hmix]
      · exact hs.pbuf_get_length c
    exact { hs with bins := hbins.trans hs.bins, mix := hmix, pbuf0 := hpbuf 0, pbuf1 := hpbuf 1, pbuf2 := hpbuf 2 }
  | initRuns => exact { hs with bins := by rw [List.length_mapIdx, hs.bins] }
  | reset =>
    exact { hs with
      win := List.length_replicate
      bins := List.length_replicate }
  | _ => exact { hs with }

theorem exec_keeps_pointersOk (hs : PointersOk s) (h : exec i s = .next t) : PointersOk t := by
  cases effect_of_exec h with
  | acqSample _ _ hwptr => exact { hs with wptr := hwptr }
  | acqDone => exact { hs with wptr := Nat.zero_le _ }
  | seqCheckTaken => exact { hs with ingestPtr := Nat.zero_le _, ingest := fun _ => s.cfg.valid.hopSize.1 }
  | anIngest _ _ hpc =>
    have hlt := hs.ingest hpc
    refine { hs with ingestPtr := hlt, ingest := fun hpc' => lt_of_le_of_ne hlt fun hlast => ?_ }
    rw [if_pos hlast] at hpc'
    cases hpc'
  | reset => exact ⟨Nat.zero_le _, Nat.zero_le _, nofun⟩
  | outTake | outDone | csrRead | csrWriteBinds | csrWriteIgnored | initHalts => exact { hs with }
  | _ => exact { hs with ingest := nofun }

/-! ## The sequencer and the mode -/

theorem exec_keeps_modeOk (hs : ModeOk s) (h : exec i s = .next t) : ModeOk t := by
  cases effect_of_exec h with
  | seqCheckTaken hrun | seqCheckSkipped hrun | anCompute _ hrun | poolAcquireGranted _ hrun | poolAcquireSkipped hrun
  | synFill _ _ hrun | poolRelease _ hrun => exact ⟨nofun, absurd hrun⟩
  | anIngest _ hrun hpc => refine ⟨fun _ => ?_, absurd hrun⟩; simp only [hpc]; split <;> nofun
  | initRuns => exact ⟨nofun, absurd rfl⟩
  | initHalts _ hpc => exact ⟨nofun, fun _ => hpc⟩
  | reset => exact ⟨nofun, fun _ => rfl⟩
  | _ => exact { hs with }

/-! ## The pool

A buffer moving from one life-cycle state to another, seen by what `X` says of the buffers in state `w`. -/

section
variable {p : Three BufState} {b : BufId} {v w : BufState} {X Y : BufId → Prop}

theorem set_tracked_other (hX : ∀ c, X c ↔ p.get c = w) (hb : p.get b ≠ w) (hv : v ≠ w) (c : BufId) :
    X c ↔ (p.set b v).get c = w := by
  rw [Three.get_set]
  split
  next hc => exact iff_of_false (fun h => hb (hc ▸ (hX c).mp h)) hv
  next => exact hX c

theorem set_tracked_enters (hX : ∀ c, X c ↔ p.get c = w) (hY : ∀ c, Y c ↔ c = b ∨ X c) (c : BufId) :
    Y c ↔ (p.set b w).get c = w := by
  rw [Three.get_set, hY]
  split
  next hc => exact iff_of_true (.inl hc) rfl
  next hc => rw [hX, or_iff_right hc]

theorem set_tracked_leaves (hX : ∀ c, X c ↔ p.get c = w) (hv : v ≠ w) (hY : ∀ c, Y c ↔ c ≠ b ∧ X c) (c : BufId) :
    Y c ↔ (p.set b v).get c = w := by
  rw [Three.get_set, hY]
  split
  next hc => exact iff_of_false (fun h => h.1 hc) hv
  next hc => rw [hX, and_iff_right hc]

end

/-- Outside FILL and RELEASE no buffer is current (R53 d). -/
theorem PoolOk.curBuf_eq_none (hs : PoolOk s) {pc : SeqPc} (hpc : s.seqPc = pc) (h : ¬(pc = .fill ∨ pc = .release)) :
    s.curBuf = none :=
  not_not.mp (mt hs.current.mp (hpc ▸ h))

theorem poolOk_of_allFree (hpstate : s.pstate = ⟨.free, .free, .free⟩) (hqueue : s.queue = [])
    (hplaying : s.playing = none) (hcur : s.curBuf = none) (hpc : s.seqPc = .init) : PoolOk s where
  queueNodup := hqueue ▸ List.nodup_nil
  queued := by rw [hpstate, hqueue]; decide
  playing := by rw [hpstate, hplaying]; decide
  filling := by rw [hpstate, hcur]; decide
  current := by rw [hcur, hpc]; decide

theorem exec_keeps_poolOk (hs : PoolOk s) (h : exec i s = .next t) : PoolOk t := by
  cases effect_of_exec h with
  | seqCheckTaken _ hpc | seqCheckSkipped _ hpc | anCompute _ _ hpc | initRuns _ hpc =>
    have hcur := hs.curBuf_eq_none hpc (by decide)
    exact { hs with current := iff_of_false (not_not.mpr hcur) (by simp) }
  | anIngest _ _ hpc =>
    have hcur := hs.curBuf_eq_none hpc (by decide)
    refine { hs with current := iff_of_false (not_not.mpr hcur) ?_ }
    simp only [hpc]
    split <;> decide
  | poolAcquireGranted b _ hpc hfree =>
    have hcur := hs.curBuf_eq_none hpc (by decide)
    obtain ⟨hb, _⟩ := firstFree_eq_some.mp hfree
    exact {
      queueNodup := hs.queueNodup
      queued := set_tracked_other hs.queued (by rw [hb]; decide) (by decide)
      playing := set_tracked_other hs.playing (by rw [hb]; decide) (by decide)
      filling := set_tracked_enters hs.filling (by simp [hcur, eq_comm])
      current := iff_of_true (Option.some_ne_none b) (.inl rfl) }
  | poolAcquireSkipped _ hpc =>
    have hcur := hs.curBuf_eq_none hpc (by decide)
    exact { hs with
      filling := by simpa only [hcur] using hs.filling
      current := by simp }
  | synFill b _ _ _ hcur =>
    exact { hs with current := iff_of_true (hcur ▸ Option.some_ne_none b) (.inr rfl) }
  | poolRelease b _ _ hcur =>
    have hb := (hs.filling b).mp hcur
    have hnew : b ∉ s.queue := fun hmem => by simpa [hb] using (hs.queued b).mp hmem
    exact {
      queueNodup := by simpa [List.nodup_append] using ⟨hs.queueNodup, fun c hc => (ne_of_mem_of_not_mem hc hnew)⟩
      queued := set_tracked_enters hs.queued (by simp [or_comm])
      playing := set_tracked_other hs.playing (by rw [hb]; decide) (by decide)
      filling := set_tracked_leaves hs.filling (by decide) (by simp [hcur, eq_comm])
      current := by simp }
  | outTake b rest _ hplaying hqueue =>
    have hb := (hs.queued b).mp (by simp [hqueue])
    obtain ⟨hfirst, hrest⟩ := List.nodup_cons.mp (hqueue ▸ hs.queueNodup)
    exact { hs with
      queueNodup := hrest
      queued := set_tracked_leaves hs.queued (by decide) fun c => by
        rw [hqueue, List.mem_cons]
        exact ⟨fun hc => ⟨ne_of_mem_of_not_mem hc hfirst, .inr hc⟩, fun ⟨hne, hc⟩ => hc.resolve_left hne⟩
      playing := set_tracked_enters hs.playing (by simp [hplaying, eq_comm])
      filling := set_tracked_other hs.filling (by rw [hb]; decide) (by decide) }
  | outDone b _ hplaying =>
    have hb := (hs.playing b).mp hplaying
    exact { hs with
      queued := set_tracked_other hs.queued (by rw [hb]; decide) (by decide)
      playing := set_tracked_leaves hs.playing (by decide) (by simp [hplaying, eq_comm])
      filling := set_tracked_other hs.filling (by rw [hb]; decide) (by decide) }
  | reset => exact poolOk_of_allFree rfl rfl rfl rfl rfl
  | _ => exact { hs with }

/-! ## Gates, waveform binding and the values fixed at INIT -/

theorem gateOk_replicate_reset (hbins : s.bins = List.replicate s.cfg.params.nBins Bin.reset) : GateOk s := by
  intro b hb _
  rw [hbins] at hb
  rw [List.eq_of_mem_replicate hb]
  rfl

theorem exec_keeps_gateOk (hs : GateOk s) (h : exec i s = .next t) : GateOk t := by
  cases effect_of_exec h with
  | anCompute =>
    intro c hc
    obtain ⟨k, hk⟩ := List.mem_iff_getElem?.mp hc
    obtain ⟨b, hb, rfl⟩ := updateBins_getElem? hk
    exact binUpdate_closed (hs b (List.mem_of_getElem? hb))
  | synFill _ r _ _ _ hr =>
    intro c hc
    obtain ⟨k, hk⟩ := List.mem_iff_getElem?.mp hc
    rw [hr] at hk
    obtain ⟨b, _, _, hb, rfl⟩ := synBins_frame _ _ _ _ hk
    exact hs b (List.mem_of_getElem? hb)
  | initRuns =>
    intro c hc
    obtain ⟨k, hk, rfl⟩ := List.mem_mapIdx.mp hc
    exact hs s.bins[k] (List.getElem_mem hk)
  | reset => exact gateOk_replicate_reset rfl
  | _ => exact hs

/-- The reset binding is legal by the constraints on the configuration (R6). -/
theorem waveCfgReset_legal (cfg : Config) : waveCfgLegal cfg.params.waveCfgReset = true :=
  decide_eq_true cfg.valid.waveCfgReset

theorem exec_keeps_waveOk (hs : WaveOk s) (h : exec i s = .next t) : WaveOk t := by
  cases effect_of_exec h with
  | csrWriteBinds data hlegal => exact { hs with legal := hlegal }
  | reset => exact { hs with legal := waveCfgReset_legal s.cfg }
  | _ => exact { hs with }

theorem exec_keeps_fixedOk (hs : FixedOk s) (h : exec i s = .next t) : FixedOk t := by
  cases effect_of_exec h with
  | anCompute =>
    refine { hs with increments := fun hrun k c hk => ?_ }
    obtain ⟨b, hb, rfl⟩ := updateBins_getElem? hk
    obtain ⟨_, hinc, _⟩ := binUpdate_frame s.cfg.params b _ _
    exact hinc.trans (hs.increments hrun k b hb)
  | synFill _ r _ _ _ hr =>
    refine { hs with increments := fun hrun k c hk => ?_ }
    rw [hr] at hk
    obtain ⟨b, _, _, hb, rfl⟩ := synBins_frame _ _ _ _ hk
    exact hs.increments hrun k b hb
  | initRuns =>
    refine ⟨fun _ => rfl, fun _ k c hk => ?_⟩
    rw [List.getElem?_mapIdx, Option.map_eq_some_iff] at hk
    obtain ⟨b, _, rfl⟩ := hk
    rfl
  | initHalts | reset => exact ⟨nofun, nofun⟩
  | _ => exact { hs with }

/-! ## The invariant of the block -/

theorem exec_keeps_inv (hs : Inv s) (h : exec i s = .next t) : Inv t where
  shape := exec_keeps_shape hs.shape h
  pointers := exec_keeps_pointersOk hs.pointers h
  modePc := exec_keeps_modeOk hs.modePc h
  pool := exec_keeps_poolOk hs.pool h
  gate := exec_keeps_gateOk hs.gate h
  wave := exec_keeps_waveOk hs.wave h
  fixed := exec_keeps_fixedOk hs.fixed h

/-- The invariant reads neither the schedule nor the host's words. -/
theorem inv_environment (hs : Inv s) (sched : List Turn) (hostIn : List Word) :
    Inv { s with sched := sched, hostIn := hostIn } where
  shape := { hs.shape with }
  pointers := { hs.pointers with }
  modePc := { hs.modePc with }
  pool := { hs.pool with }
  gate := hs.gate
  wave := { hs.wave with }
  fixed := { hs.fixed with }

/-- Settles O52: a step is an operation or a change of the environment only. -/
theorem stepKeepsTheInvariant : Obligations.StepKeepsTheInvariant := fun _ _ hs h =>
  step_keeps (fun _ sched hostIn hs => inv_environment hs sched hostIn) (fun _ _ _ => exec_keeps_inv) hs h

theorem inv_powerOn (cfg : Config) {wave : Memory} (hw : wave.wf) : Inv (State.powerOn cfg wave) where
  shape := by constructor <;> exact List.length_replicate
  pointers := ⟨Nat.zero_le _, Nat.zero_le _, nofun⟩
  modePc := ⟨nofun, fun _ => rfl⟩
  pool := poolOk_of_allFree rfl rfl rfl rfl rfl
  gate := gateOk_replicate_reset rfl
  wave := ⟨waveCfgReset_legal cfg, hw⟩
  fixed := ⟨nofun, nofun⟩

theorem inv_of_reachable (h : Reachable s) : Inv s :=
  reachable_keeps (fun cfg _ sched hostIn hw => inv_environment (inv_powerOn cfg hw) sched hostIn)
    stepKeepsTheInvariant h

/-- Settles O53: `GateOk` is part of the invariant. -/
theorem closedGatesHaveTargetZero : Obligations.ClosedGatesHaveTargetZero := fun _ h => (inv_of_reachable h).gate

/-- Settles O35: R53 in the spec's words, from `PoolOk`. -/
theorem poolInvariantsHoldInEveryReachableState : Obligations.PoolInvariantsHoldInEveryReachableState := by
  intro s h
  have hpool := (inv_of_reachable h).pool
  refine ⟨hpool.queueNodup, hpool.queued, hpool.playing, fun b c hb hc => ?_, fun b c hb hc => ?_, fun hpc => ?_,
    fun hpc => ?_⟩
  · exact Option.some.inj (((hpool.playing b).mpr hb).symm.trans ((hpool.playing c).mpr hc))
  · exact Option.some.inj (((hpool.filling b).mpr hb).symm.trans ((hpool.filling c).mpr hc))
  · obtain ⟨b, hb⟩ := Option.ne_none_iff_exists'.mp (hpool.current.mpr hpc)
    exact ⟨b, hb, (hpool.filling b).mp hb⟩
  · have hcur := hpool.curBuf_eq_none rfl hpc
    exact ⟨hcur, fun b hb => Option.some_ne_none b (((hpool.filling b).mpr hb).symm.trans hcur)⟩

end Sys2Proof.Machine
end

section
/-!
PROOFS. What CSR_READ returns (spec/10_state.md R57, spec/44_control.md R255): the registers, and the fields of the two
views STATUS and POOL_STATE.
-/

namespace Sys2Proof.Machine

variable {s : State}

/-! ## The register map -/

theorem exec_csrRead {off : BitVec 8} (hoff : offsetAligned off = true) :
    exec (.csrRead off) s = .next (emit (csrValue s (csrOffset off)) s) :=
  execCsrRead_next.mpr ⟨hoff, rfl⟩

/-- The mapped offsets but the two views (R57). -/
def configOffsets : List (BitVec 8) :=
  [0x04#8, 0x08#8, 0x10#8, 0x14#8, 0x18#8, 0x1C#8, 0x20#8, 0x24#8, 0x28#8, 0x2C#8, 0x30#8, 0x34#8, 0x38#8, 0x3C#8,
   0x40#8, 0x44#8, 0x48#8, 0x4C#8, 0x50#8, 0x54#8]

theorem configOffsets_aligned : ∀ off ∈ configOffsets, offsetAligned off = true := by decide

theorem csrValue_of_unmapped {off : Nat} (h : 0x58 ≤ off) : csrValue s off = 0#32 := by
  unfold csrValue
  split
  case h_23 => rfl
  all_goals omega

/-- Settles O40: the listed values are `csrValue` at the offsets of R57's map, all aligned. -/
theorem csrReadReturnsTheRegister : Obligations.CsrReadReturnsTheRegister := by
  intro s
  constructor
  · change ∀ row ∈ configOffsets.map fun off => (off, csrValue s (csrOffset off)), _
    rw [List.forall_mem_map]
    intro off hoff
    exact exec_csrRead (configOffsets_aligned off hoff)
  · intro off hoff h
    rw [exec_csrRead hoff, csrOffset, csrValue_of_unmapped h]
    rfl

/-! ## The two views -/

theorem statusWord_flags (s : State) :
    (statusWord s).getLsbD 0 = s.ready ∧ (statusWord s).getLsbD 2 = s.ovrRead ∧
      (statusWord s).getLsbD 3 = s.ovrDrop := by
  simp only [statusWord, BitVec.getLsbD_append]
  simp

theorem statusWord_codes (s : State) :
    (statusWord s).extractLsb' 1 1 = BitVec.ofNat 1 s.active.val ∧ (statusWord s).extractLsb' 4 2 = s.mode.code ∧
      (statusWord s).extractLsb' 6 3 = s.seqPc.code ∧ (statusWord s).extractLsb' 9 23 = 0#23 := by
  simp (disch := decide) only [statusWord, BitVec.extractLsb'_append_eq_of_le, BitVec.extractLsb'_append_eq_right,
    Nat.reduceSub, true_and]
  rfl

/-- A buffer index is its own code (R42, R52). -/
theorem bufCode_some_toNat (b : BufId) : (bufCode (some b)).toNat = b.val := Nat.mod_eq_of_lt (by omega)

theorem poolStateWord_codes (s : State) :
    (∀ b : BufId, (poolStateWord s).extractLsb' (2 * b.val) 2 = (s.pstate.get b).code) ∧
      (poolStateWord s).extractLsb' 6 2 = bufCode s.playing ∧
      (poolStateWord s).extractLsb' 8 2 = BitVec.ofNat 2 s.queue.length ∧
      (poolStateWord s).extractLsb' 10 2 = bufCode s.curBuf ∧ (poolStateWord s).extractLsb' 12 20 = 0#20 := by
  refine ⟨fun b => ?_, ?_⟩
  · match b with
    | 0 => exact BitVec.extractLsb'_append_eq_right
    | 1 | 2 =>
      simp (disch := decide) only [poolStateWord, BitVec.extractLsb'_append_eq_of_le]
      exact BitVec.extractLsb'_append_eq_right
  · simp (disch := decide) only [poolStateWord, BitVec.extractLsb'_append_eq_of_le,
      BitVec.extractLsb'_append_eq_right, Nat.reduceSub, true_and]
    rfl

/-- Settles O41: the fields hold the codes (`statusWord_codes`, `poolStateWord_codes`), and each code has its number. -/
theorem statusAndPoolStateShowTheirFields : Obligations.StatusAndPoolStateShowTheirFields := by
  intro s
  refine ⟨⟨statusWord s, exec_csrRead rfl, ?_⟩, fun hlen => ⟨poolStateWord s, exec_csrRead rfl, ?_⟩⟩
  · obtain ⟨hready, hread, hdrop⟩ := statusWord_flags s
    obtain ⟨hactive, hmode, hpc, hzero⟩ := statusWord_codes s
    rw [hactive, hmode, hpc]
    refine ⟨hready, Nat.mod_eq_of_lt s.active.isLt, hread, hdrop, ?_, ?_, hzero⟩
    · cases s.mode <;> rfl
    · cases s.seqPc <;> rfl
  · obtain ⟨hpstate, hplaying, hqueue, hcur, hzero⟩ := poolStateWord_codes s
    rw [hplaying, hqueue, hcur]
    refine ⟨fun b => ?_, ?_, Nat.mod_eq_of_lt hlen, ?_, hzero⟩
    · rw [hpstate]
      cases s.pstate.get b <;> rfl
    · cases s.playing with
      | none => rfl
      | some b => exact bufCode_some_toNat b
    · cases s.curBuf with
      | none => rfl
      | some b => exact bufCode_some_toNat b

end Sys2Proof.Machine
end

section
/-!
PROOFS. The hand-off from the hardware to the consumer (spec/20_memory.md R91, spec/40_acquisition.md R146, R147): while
no read overrun is recorded, the cells copied are those of the block taken.
-/

namespace Sys2Proof.Machine

variable {s t : State} {i : Instr}

/-- Copying the next cell extends the copied prefix by one (R145). -/
theorem copied_prefix_succ {α : Type} {xs ys : List α} {n : Nat} {v : α} (hn : n < xs.length) (hv : ys[n]? = some v)
    (h : ∀ j, j < n → xs[j]? = ys[j]?) (j : Nat) (hj : j < n + 1) : (xs.set n v)[j]? = ys[j]? := by
  rcases Nat.lt_succ_iff_lt_or_eq.mp hj with hlt | rfl
  · rw [List.getElem?_set_ne hlt.ne', h j hlt]
  · rw [List.getElem?_set_self hn, hv]

theorem exec_keeps_handoffOk (hs : HandoffOk s) (h : exec i s = .next t) : HandoffOk t := by
  cases effect_of_exec h with
  | acqSample =>
    intro hovr hpc
    obtain ⟨hcons, hcopied⟩ := hs hovr hpc
    have htaken : s.consIdx ≠ s.active := hcons ▸ other_ne s.active
    refine ⟨hcons, ?_⟩
    simpa only [Two.get_set, if_neg htaken] using hcopied
  | acqDone =>
    -- A swap while the consumer copies records the read overrun (R143 (a)).
    intro hovr hpc
    simp [ovrReadAfterDone, show s.seqPc = .ingest from hpc] at hovr
  | seqCheckTaken => exact fun _ _ => ⟨rfl, fun j hj => absurd hj (Nat.not_lt_zero j)⟩
  | anIngest _ _ hpc hcell hv =>
    intro hovr _
    obtain ⟨hcons, hcopied⟩ := hs hovr hpc
    exact ⟨hcons, copied_prefix_succ hcell hv hcopied⟩
  | outTake | outDone | csrRead | csrWriteBinds | csrWriteIgnored | initHalts => exact hs
  | seqCheckSkipped | anCompute | poolAcquireGranted | poolAcquireSkipped | synFill | poolRelease | initRuns | reset =>
    exact fun _ => nofun

/-- Settles O12: a step is an operation or a change of the environment only, which `HandoffOk` does not read. -/
theorem stepKeepsTheHandoff : Obligations.StepKeepsTheHandoff := fun _ _ hs h =>
  step_keeps (fun _ _ _ hs => hs) (fun _ _ _ => exec_keeps_handoffOk) hs h

end Sys2Proof.Machine
end

section
/-!
PROOFS. Operation words (spec/30_encoding.md R110 to R121): decoding and encoding are inverse, the operation map (R118)
follows from that, and the words that spell no operation (R119).
-/

namespace Sys2Proof

variable {w : Word} {ws rest rest' : List Word} {i j : Instr}

/-! ## A word and its fields -/

/-- Two parts put together are `v` exactly when they are read back from `v`. -/
theorem append_eq_iff_extractLsb' {m n : Nat} {hi : BitVec m} {lo : BitVec n} {v : BitVec (m + n)} :
    hi ++ lo = v ↔ v.extractLsb' n m = hi ∧ v.extractLsb' 0 n = lo := by
  constructor
  · rintro rfl
    exact ⟨BitVec.extractLsb'_append_eq_left, BitVec.extractLsb'_append_eq_right⟩
  · rintro ⟨rfl, rfl⟩
    exact BitVec.extractLsb'_append_extractLsb'

/-- A field of a field. -/
theorem extractLsb'_extractLsb' {m start len start' len' : Nat} {v : BitVec m} (h : start' + len' ≤ len) :
    (v.extractLsb' start len).extractLsb' start' len' = v.extractLsb' (start + start') len' := by
  ext b hb
  simp [Nat.add_assoc, show start' + b < len by omega]

theorem append_fields_eq_iff {k n : Nat} {op : BitVec 4} {z : BitVec k} {x : BitVec n} {v : BitVec (4 + k + n)} :
    op ++ z ++ x = v ↔ v.extractLsb' (n + k) 4 = op ∧ v.extractLsb' n k = z ∧ v.extractLsb' 0 n = x := by
  rw [append_eq_iff_extractLsb', eq_comm (b := op ++ z), append_eq_iff_extractLsb', extractLsb'_extractLsb' (by omega),
    extractLsb'_extractLsb' (by omega), Nat.add_zero, and_assoc]

/-- Format Z (R112). -/
theorem formatZ_eq_iff {op : BitVec 4} : op ++ 0#28 = w ↔ opField w = op ∧ w.extractLsb' 0 28 = 0#28 :=
  append_eq_iff_extractLsb' (m := 4) (n := 28)

/-- Format S (R113). -/
theorem formatS_eq_iff {op : BitVec 4} {v : Sample} :
    op ++ 0#12 ++ v = w ↔ opField w = op ∧ w.extractLsb' 16 12 = 0#12 ∧ w.extractLsb' 0 16 = v :=
  append_fields_eq_iff (k := 12) (n := 16)

/-- Format I (R114). -/
theorem formatI_eq_iff {op : BitVec 4} {ok : BitVec 1} :
    op ++ 0#27 ++ ok = w ↔ opField w = op ∧ w.extractLsb' 1 27 = 0#27 ∧ w.extractLsb' 0 1 = ok :=
  append_fields_eq_iff (k := 27) (n := 1)

/-- Word 0 of formats C and W (R115, R116). -/
theorem formatOffset_eq_iff {op : BitVec 4} {off : BitVec 8} :
    op ++ 0#20 ++ off = w ↔ opField w = op ∧ w.extractLsb' 8 20 = 0#20 ∧ w.extractLsb' 0 8 = off :=
  append_fields_eq_iff (k := 20) (n := 8)

/-! ## What each format's decoder accepts -/

theorem decodeZ_eq_ok : decodeZ j w rest = .ok (i, rest') ↔ w.extractLsb' 0 28 = 0#28 ∧ i = j ∧ rest' = rest := by
  unfold decodeZ
  split <;> simp_all [eq_comm]

theorem decodeS_eq_ok : decodeS w rest = .ok (i, rest') ↔
    w.extractLsb' 16 12 = 0#12 ∧ i = .acqSample (w.extractLsb' 0 16) ∧ rest' = rest := by
  unfold decodeS
  split <;> simp_all [eq_comm]

theorem decodeI_eq_ok : decodeI w rest = .ok (i, rest') ↔
    w.extractLsb' 1 27 = 0#27 ∧ i = .init (w.getLsbD 0) ∧ rest' = rest := by
  unfold decodeI
  split <;> simp_all [eq_comm]

theorem decodeOffset_eq_ok {off : BitVec 8} : decodeOffset w = .ok off ↔
    w.extractLsb' 8 20 = 0#20 ∧ offsetAligned off = true ∧ w.extractLsb' 0 8 = off := by
  unfold decodeOffset
  split
  · split <;> grind
  · simp_all

theorem decodeC_eq_ok : decodeC w rest = .ok (i, rest') ↔
    ∃ off, decodeOffset w = .ok off ∧ i = .csrRead off ∧ rest' = rest := by
  unfold decodeC
  cases decodeOffset w <;> simp [eq_comm]

theorem decodeW_eq_ok : decodeW w rest = .ok (i, rest') ↔
    ∃ off data, decodeOffset w = .ok off ∧ i = .csrWrite off data ∧ rest = data :: rest' := by
  unfold decodeW
  cases decodeOffset w with
  | error e => simp
  | ok off => cases rest <;> simp [eq_comm]

/-! ## Decoding and encoding are inverse -/

theorem offset_fields {op : BitVec 4} {off : BitVec 8} (hoff : offsetAligned off = true) :
    opField (op ++ 0#20 ++ off) = op ∧ decodeOffset (op ++ 0#20 ++ off) = .ok off := by
  obtain ⟨hop, hzero, hoperand⟩ := formatOffset_eq_iff.mp (rfl : op ++ 0#20 ++ off = _)
  exact ⟨hop, decodeOffset_eq_ok.mpr ⟨hzero, hoff, hoperand⟩⟩

/-- Settles O1, a case an operation: a word without an operand is closed, the fields of the others are read back. -/
theorem decodeOfEncodeGivesTheOperationBack : Obligations.DecodeOfEncodeGivesTheOperationBack := by
  intro i rest hwf
  cases i with
  | acqDone | seqCheck | anIngest | anCompute | poolAcquire | synFill | poolRelease | outTake | outDone | reset => rfl
  | init ok => cases ok <;> rfl
  | acqSample v =>
    obtain ⟨hop, hzero, hv⟩ := formatS_eq_iff.mp (rfl : 0x1#4 ++ 0#12 ++ v = _)
    simp only [encode, List.singleton_append, decode, hop]
    exact decodeS_eq_ok.mpr ⟨hzero, by rw [hv], rfl⟩
  | csrRead off =>
    obtain ⟨hop, hoff⟩ := offset_fields (op := 0xB#4) hwf
    simp only [encode, List.singleton_append, decode, hop]
    exact decodeC_eq_ok.mpr ⟨off, hoff, rfl, rfl⟩
  | csrWrite off data =>
    obtain ⟨hop, hoff⟩ := offset_fields (op := 0xC#4) hwf
    simp only [encode, List.cons_append, List.nil_append, decode, hop]
    exact decodeW_eq_ok.mpr ⟨off, data, hoff, rfl, rfl⟩

/-- The word of a format Z operation is its `OP` and zeros. -/
theorem encode_of_decodeZ {op : BitVec 4} (hj : encode j = encodeZ op) (hwf : j.wf = true)
    (hop : (opField w).toNat = op.toNat) (h : decodeZ j w rest = .ok (i, rest')) :
    i.wf = true ∧ encode i ++ rest' = w :: rest := by
  obtain ⟨hzero, rfl, rfl⟩ := decodeZ_eq_ok.mp h
  rw [hj, encodeZ, formatZ_eq_iff.mpr ⟨BitVec.eq_of_toNat_eq hop, hzero⟩]
  exact ⟨hwf, rfl⟩

theorem encode_of_decodeS (hop : (opField w).toNat = 0x1) (h : decodeS w rest = .ok (i, rest')) :
    i.wf = true ∧ encode i ++ rest' = w :: rest := by
  obtain ⟨hzero, rfl, rfl⟩ := decodeS_eq_ok.mp h
  rw [encode, formatS_eq_iff.mpr ⟨BitVec.eq_of_toNat_eq hop, hzero, rfl⟩]
  exact ⟨rfl, rfl⟩

theorem encode_of_decodeI (hop : (opField w).toNat = 0xD) (h : decodeI w rest = .ok (i, rest')) :
    i.wf = true ∧ encode i ++ rest' = w :: rest := by
  obtain ⟨hzero, rfl, rfl⟩ := decodeI_eq_ok.mp h
  rw [encode, ← BitVec.setWidth_one, BitVec.setWidth_eq_extractLsb' (by decide),
    formatI_eq_iff.mpr ⟨BitVec.eq_of_toNat_eq hop, hzero, rfl⟩]
  exact ⟨rfl, rfl⟩

theorem append_of_decodeOffset {op : BitVec 4} {off : BitVec 8} (hop : (opField w).toNat = op.toNat)
    (h : decodeOffset w = .ok off) : offsetAligned off = true ∧ op ++ 0#20 ++ off = w := by
  obtain ⟨hzero, haligned, hoff⟩ := decodeOffset_eq_ok.mp h
  exact ⟨haligned, formatOffset_eq_iff.mpr ⟨BitVec.eq_of_toNat_eq hop, hzero, hoff⟩⟩

theorem encode_of_decodeC (hop : (opField w).toNat = 0xB) (h : decodeC w rest = .ok (i, rest')) :
    i.wf = true ∧ encode i ++ rest' = w :: rest := by
  obtain ⟨off, hoff, rfl, rfl⟩ := decodeC_eq_ok.mp h
  obtain ⟨haligned, hw⟩ := append_of_decodeOffset (op := 0xB#4) hop hoff
  exact ⟨haligned, by rw [encode, hw]; rfl⟩

theorem encode_of_decodeW (hop : (opField w).toNat = 0xC) (h : decodeW w rest = .ok (i, rest')) :
    i.wf = true ∧ encode i ++ rest' = w :: rest := by
  obtain ⟨off, data, hoff, rfl, rfl⟩ := decodeW_eq_ok.mp h
  obtain ⟨haligned, hw⟩ := append_of_decodeOffset (op := 0xC#4) hop hoff
  exact ⟨haligned, by rw [encode, hw]; rfl⟩

/-- Settles O2, a case an `OP`. -/
theorem decodedWordsEncodeBack : Obligations.DecodedWordsEncodeBack := by
  intro words i rest h
  cases words with
  | nil => cases h
  | cons w ws =>
    simp only [decode] at h
    split at h
    case h_1 hop => exact encode_of_decodeS hop h
    case h_11 hop => exact encode_of_decodeC hop h
    case h_12 hop => exact encode_of_decodeW hop h
    case h_13 hop => exact encode_of_decodeI hop h
    case h_15 => cases h
    all_goals exact encode_of_decodeZ rfl rfl ‹_› h

/-! ## The operation map (R118) -/

/-- A mask that keeps all of the high part and `mask` of the low part. -/
theorem and_allOnes_append_eq_iff {m n : Nat} {hi : BitVec m} {mask lo : BitVec n} {v : BitVec (m + n)} :
    v &&& (BitVec.allOnes m ++ mask) = hi ++ lo ↔ ∃ x, x &&& mask = lo ∧ hi ++ x = v := by
  constructor
  · intro h
    obtain ⟨a, b, rfl⟩ : ∃ a b, a ++ b = v := ⟨_, _, BitVec.extractLsb'_append_extractLsb'⟩
    rw [BitVec.and_append, BitVec.and_allOnes, append_eq_iff_extractLsb', BitVec.extractLsb'_append_eq_left,
      BitVec.extractLsb'_append_eq_right] at h
    obtain ⟨rfl, rfl⟩ := h
    exact ⟨b, rfl, rfl⟩
  · rintro ⟨x, rfl, rfl⟩
    rw [BitVec.and_append, BitVec.and_allOnes]

variable {name : String} {op : BitVec 4} {row : OpRow}

theorem OpRow.matches_iff {pattern mask : Word} : OpRow.matches ⟨name, pattern, mask⟩ w = true ↔ w &&& mask = pattern :=
  beq_iff_eq

theorem matches_formatZ {pattern : Word} : OpRow.matches ⟨name, pattern, 0xFFFFFFFF#32⟩ w = true ↔ w = pattern := by
  rw [OpRow.matches_iff, show 0xFFFFFFFF#32 = BitVec.allOnes 32 from rfl, BitVec.and_allOnes]

theorem matches_formatS :
    OpRow.matches ⟨name, op ++ 0#12 ++ 0#16, 0xFFFF0000#32⟩ w = true ↔ ∃ v : Sample, op ++ 0#12 ++ v = w := by
  rw [OpRow.matches_iff]
  refine (and_allOnes_append_eq_iff (m := 16) (n := 16) (mask := 0#16)).trans ?_
  simp only [BitVec.and_zero, true_and]

theorem matches_formatI :
    OpRow.matches ⟨name, op ++ 0#27 ++ 0#1, 0xFFFFFFFE#32⟩ w = true ↔
      ∃ ok : Bool, op ++ 0#27 ++ BitVec.ofBool ok = w := by
  rw [OpRow.matches_iff]
  refine (and_allOnes_append_eq_iff (m := 31) (n := 1) (mask := 0#1)).trans ?_
  simp only [BitVec.and_zero, true_and]
  constructor
  · rintro ⟨x, rfl⟩
    exact ⟨x.getLsbD 0, by rw [← BitVec.setWidth_one, BitVec.setWidth_eq]⟩
  · rintro ⟨ok, rfl⟩
    exact ⟨_, rfl⟩

theorem offsetAligned_iff_and {off : BitVec 8} : offsetAligned off = true ↔ off &&& 0x03#8 = 0#8 := by
  revert off
  decide

theorem matches_formatOffset :
    OpRow.matches ⟨name, op ++ 0#20 ++ 0#8, 0xFFFFFF03#32⟩ w = true ↔
      ∃ off, offsetAligned off = true ∧ op ++ 0#20 ++ off = w := by
  rw [OpRow.matches_iff]
  simp only [offsetAligned_iff_and]
  exact and_allOnes_append_eq_iff (m := 24) (n := 8) (mask := 0x03#8)

/-- The row of an operation matches the first word it is encoded in. -/
theorem matches_of_encode (hwf : i.wf = true) (h : encode i ++ rest = w :: ws) (hrow : row ∈ opcodeTable)
    (hname : i.mnemonic = row.mnemonic) : row.matches w = true := by
  revert row
  cases i with
  | acqDone | seqCheck | anIngest | anCompute | poolAcquire | synFill | poolRelease | outTake | outDone | reset =>
    cases h
    decide
  | init ok =>
    cases h
    cases ok <;> decide
  | acqSample v =>
    cases h
    simpa [opcodeTable, Instr.mnemonic] using (matches_formatS (op := 0x1#4)).mpr ⟨v, rfl⟩
  | csrRead off =>
    cases h
    simpa [opcodeTable, Instr.mnemonic] using (matches_formatOffset (op := 0xB#4)).mpr ⟨off, hwf, rfl⟩
  | csrWrite off data =>
    cases h
    simpa [opcodeTable, Instr.mnemonic] using (matches_formatOffset (op := 0xC#4)).mpr ⟨off, hwf, rfl⟩

theorem exists_decode_of_encode (i : Instr) (hwf : i.wf = true) (h : encode i ++ rest = ws) :
    ∃ j rest', decode ws = .ok (j, rest') ∧ j.mnemonic = i.mnemonic :=
  ⟨i, rest, h ▸ decodeOfEncodeGivesTheOperationBack i rest hwf, rfl⟩

variable {data : Word}

theorem exists_decode_of_matches_formatZ (i : Instr) {pattern : Word} (hi : encode i = [pattern]) (hwf : i.wf = true)
    (h : OpRow.matches ⟨i.mnemonic, pattern, 0xFFFFFFFF#32⟩ w = true) :
    ∃ j rest', decode (w :: rest) = .ok (j, rest') ∧ j.mnemonic = i.mnemonic := by
  obtain rfl := matches_formatZ.mp h
  exact exists_decode_of_encode i hwf (by rw [hi]; rfl)

/-- A word that matches a row decodes to an operation of that row. -/
theorem exists_decode_of_matches (hrow : row ∈ opcodeTable) (h : row.matches w = true) :
    ∃ i rest', decode (w :: data :: rest) = .ok (i, rest') ∧ i.mnemonic = row.mnemonic := by
  revert row
  simp only [opcodeTable, List.forall_mem_cons]
  refine ⟨fun h => ?_, exists_decode_of_matches_formatZ .acqDone rfl rfl, exists_decode_of_matches_formatZ .seqCheck rfl rfl,
    exists_decode_of_matches_formatZ .anIngest rfl rfl, exists_decode_of_matches_formatZ .anCompute rfl rfl,
    exists_decode_of_matches_formatZ .poolAcquire rfl rfl, exists_decode_of_matches_formatZ .synFill rfl rfl,
    exists_decode_of_matches_formatZ .poolRelease rfl rfl, exists_decode_of_matches_formatZ .outTake rfl rfl,
    exists_decode_of_matches_formatZ .outDone rfl rfl, fun h => ?_, fun h => ?_, fun h => ?_,
    exists_decode_of_matches_formatZ .reset rfl rfl, nofun⟩
  · obtain ⟨v, rfl⟩ := (matches_formatS (op := 0x1#4)).mp h
    exact exists_decode_of_encode (.acqSample v) rfl rfl
  · obtain ⟨off, hoff, rfl⟩ := (matches_formatOffset (op := 0xB#4)).mp h
    exact exists_decode_of_encode (.csrRead off) hoff rfl
  · obtain ⟨off, hoff, rfl⟩ := (matches_formatOffset (op := 0xC#4)).mp h
    exact exists_decode_of_encode (.csrWrite off data) hoff rfl
  · obtain ⟨ok, rfl⟩ := (matches_formatI (op := 0xD#4)).mp h
    exact exists_decode_of_encode (.init ok) rfl rfl

/-- Settles O3: to a match there is an operation encoded in the word, and a decoded operation is encoded in its word. -/
theorem decoderFollowsTheOperationMap : Obligations.DecoderFollowsTheOperationMap := by
  intro row hrow w data rest
  constructor
  · exact exists_decode_of_matches hrow
  · rintro ⟨i, rest', h, hname⟩
    obtain ⟨hwf, henc⟩ := decodedWordsEncodeBack _ _ _ h
    exact matches_of_encode hwf henc hrow hname

/-! ## The words that spell no operation (R119) -/

theorem exists_error_iff {ε α : Type} {x : Except ε α} : (∃ e, x = .error e) ↔ ¬∃ a, x = .ok a := by
  cases x <;> simp

theorem decodeZ_error : (∃ e, decodeZ i w rest = .error e) ↔ w.extractLsb' 0 28 ≠ 0#28 := by
  simp [exists_error_iff, decodeZ_eq_ok]

theorem decodeS_error : (∃ e, decodeS w rest = .error e) ↔ w.extractLsb' 16 12 ≠ 0#12 := by
  simp [exists_error_iff, decodeS_eq_ok]

theorem decodeI_error : (∃ e, decodeI w rest = .error e) ↔ w.extractLsb' 1 27 ≠ 0#27 := by
  simp [exists_error_iff, decodeI_eq_ok]

theorem exists_decodeOffset : (∃ off, decodeOffset w = .ok off) ↔ w.extractLsb' 8 20 = 0#20 ∧ w.extractLsb' 0 2 = 0#2 := by
  have halign : (w.extractLsb' 0 8).extractLsb' 0 2 = w.extractLsb' 0 2 := extractLsb'_extractLsb' (by decide)
  simp only [decodeOffset_eq_ok, exists_and_left, exists_eq_right', offsetAligned, beq_iff_eq, halign]

theorem decodeC_error : (∃ e, decodeC w rest = .error e) ↔ w.extractLsb' 8 20 ≠ 0#20 ∨ w.extractLsb' 0 2 ≠ 0#2 := by
  rw [← not_and_or, ← exists_decodeOffset]
  simp [exists_error_iff, decodeC_eq_ok]

/-- A data word follows (R121). -/
theorem decodeW_error :
    (∃ e, decodeW w (data :: rest) = .error e) ↔ w.extractLsb' 8 20 ≠ 0#20 ∨ w.extractLsb' 0 2 ≠ 0#2 := by
  rw [← not_and_or, ← exists_decodeOffset]
  simp [exists_error_iff, decodeW_eq_ok]

/-- Settles O4, a case an `OP`: its format's rule. -/
theorem wordsThatSpellNoOperation : Obligations.WordsThatSpellNoOperation := by
  intro w data rest
  simp only [← BitVec.toNat_inj (n := 4), decode]
  split
  case h_1 hop => simp [hop, decodeS_error]
  case h_11 hop => simp [hop, decodeC_error]
  case h_12 hop => simp [hop, decodeW_error]
  case h_13 hop => simp [hop, decodeI_error]
  case h_15 =>
    have := (opField w).isLt
    refine iff_of_true ⟨_, rfl⟩ (.inl ?_)
    change (opField w).toNat = 0 ∨ (opField w).toNat = 15
    simp only [imp_false] at *
    omega
  all_goals
    rename_i hop
    simp [hop, decodeZ_error]

theorem decode_encode (i : Instr) (hwf : i.wf = true) : decode (encode i) = .ok (i, []) := by
  simpa using decodeOfEncodeGivesTheOperationBack i [] hwf

/-- Settles O7: the words are the encodings of the operations, the last has an offset that is no multiple of 4. -/
theorem writtenOutWordsDecode : Obligations.WrittenOutWordsDecode :=
  ⟨decode_encode (.acqSample 0x4000#16) rfl, decode_encode .acqDone rfl, decode_encode .anCompute rfl,
    decode_encode .synFill rfl, decode_encode (.csrRead 0x0C#8) rfl, decode_encode (.csrWrite 0x04#8 0x103#32) rfl,
    decode_encode (.init true) rfl, rfl⟩

end Sys2Proof
end

section
/-!
PROOFS. What a program line and the host port make of the words they are given (spec/30_encoding.md R119,
spec/44_control.md R257).
-/

namespace Sys2Proof.Machine

variable {s : State} {sched : List Turn} {w : Word} {words rest : List Word} {i : Instr} {e : DecodeError}

theorem step_bad_line (hs : s.sched = .line words :: sched) (h : decode words = .error e) :
    step s = .refused (.badWord e) := by
  rw [step, hs]
  simp only [fetchLine, h]

theorem step_port (hs : s.sched = .port :: sched) : step s = execHostPort { s with sched := sched } := by
  rw [step, hs]

theorem execHostPort_ignores_error (hin : s.hostIn = w :: words) (h : decode (w :: words) = .error e) :
    execHostPort s = .next { s with hostIn := words } := by
  rw [execHostPort, hin]
  simp only [h]

/-- The port's answer to a decoded operation is told from its agent. -/
theorem execHostPort_of_decode (h : decode s.hostIn = .ok (i, rest)) :
    execHostPort s = if i.agent = .host then exec i { s with hostIn := rest } else .next { s with hostIn := rest } := by
  unfold execHostPort
  split
  case h_1 hin => rw [hin] at h; cases h
  case h_2 hin =>
    rw [← hin]
    simp only [h]
    cases i <;> rfl

/-- Settles O5. -/
theorem wordsInAProgramAndAtTheHostPort : Obligations.WordsInAProgramAndAtTheHostPort := by
  intro s sched
  refine ⟨fun words e hs h => step_bad_line hs h, fun w words e hs hin h => ?_, fun words i rest hs hin h => ?_⟩
  · rw [step_port hs]
    exact execHostPort_ignores_error (s := { s with sched := sched }) hin h
  · subst hin
    rw [step_port hs, execHostPort_of_decode (s := { s with sched := sched }) h]
    exact ⟨fun hagent => if_neg hagent, fun hagent => if_pos hagent⟩

end Sys2Proof.Machine
end

section
/-!
PROOFS. Acquisition and hand-off (spec/40_acquisition.md): the four operations ACQ_SAMPLE, ACQ_DONE, SEQ_CHECK and
AN_INGEST (R141 to R145), and the order in which the analysis sees the blocks (R147).
-/

namespace Sys2Proof.Machine

variable {s t : State} {i : Instr} {ops : List Instr} {buf samples : List Sample} {k m d c : Nat}

/-! ## The four operations -/

/-- An operation that is not enabled is refused (R280). -/
theorem exec_refused (h : ¬ enabled i s = true) : exec i s = .refused (.notEnabled i) := by
  cases i <;> exact whenEnabled_false (Bool.not_eq_true _ ▸ h)

/-- Settles O8: the cell exists by `Shape`, and only the active buffer is written. -/
theorem acqSampleStoresAtTheWritePointer : Obligations.AcqSampleStoresAtTheWritePointer := by
  intro s v hshape
  refine ⟨fun hrun hwptr => ?_, fun h => exec_refused (mt enabled_acqSample.mp h)⟩
  have hcell : s.wptr < (s.acqBuf.get s.active).length := by rwa [hshape.acqBuf_get_length]
  refine ⟨_, execAcqSample_next.mpr ⟨⟨hrun, hwptr⟩, hcell, rfl⟩, rfl, fun b j => ?_, rfl, fun _ => rfl⟩
  rw [Two.get_set]
  by_cases hb : b = s.active
  · subst hb
    simp only [if_true, true_and, List.getElem?_set, hcell, eq_comm]
  · simp only [hb, if_false, false_and]

/-- Settles O9: the two records are the disjunctions of R143. -/
theorem acqDoneSwapsSignalsAndRecordsOverruns : Obligations.AcqDoneSwapsSignalsAndRecordsOverruns := by
  intro s
  refine ⟨fun hrun hwptr => ?_, fun h => exec_refused (mt enabled_acqDone.mp h)⟩
  refine ⟨_, execAcqDone_next.mpr ⟨⟨hrun, hwptr⟩, rfl⟩, rfl, rfl, rfl, ?_, ?_, rfl, fun _ => rfl⟩
  · simp [ovrReadAfterDone]
  · simp [ovrDropAfterDone]

/-- Settles O10: the two branches of R144. -/
theorem seqCheckTakesTheLatestBlock : Obligations.SeqCheckTakesTheLatestBlock := by
  intro s
  refine ⟨fun hrun hpc => ⟨fun hready => ?_, fun hready => ?_⟩, fun h => exec_refused (mt enabled_seqCheck.mp h)⟩
  · exact execSeqCheck_next.mpr ⟨⟨hrun, hpc⟩, .inl ⟨hready, rfl⟩⟩
  · exact execSeqCheck_next.mpr ⟨⟨hrun, hpc⟩, .inr ⟨hready, rfl⟩⟩

/-- Settles O11: source and target cell exist by `Shape`. -/
theorem anIngestCopiesOneSample : Obligations.AnIngestCopiesOneSample := by
  intro s hshape
  refine ⟨fun hrun hpc hptr => ?_, fun h => exec_refused (mt enabled_anIngest.mp h)⟩
  have hcell : s.ingestPtr < s.stage.length := by rwa [hshape.stage]
  have hsource : s.ingestPtr < (s.acqBuf.get s.consIdx).length := by rwa [hshape.acqBuf_get_length]
  have hv := List.getElem?_eq_getElem hsource
  refine ⟨_, execAnIngest_next.mpr ⟨⟨hrun, hpc⟩, hcell, _, hv, rfl⟩, fun j => ?_, rfl, ?_, rfl, fun _ => rfl⟩
  · simp only [List.getElem?_set, hcell, if_true, hv, eq_comm]
  · simp only [hpc]

/-! ## Cells that hold delivered samples -/

/-- The first `m` cells of a buffer hold the samples `k`, `k + 1`, … of a list, and the list has them all. -/
def HoldsFrom (buf samples : List Sample) (k m : Nat) : Prop :=
  ∀ j, j < m → ∃ v, buf[j]? = some v ∧ samples[k + j]? = some v

theorem holdsFrom_zero : HoldsFrom buf samples k 0 := fun j hj => absurd hj (Nat.not_lt_zero j)

/-- Samples delivered later change nothing. -/
theorem HoldsFrom.append (h : HoldsFrom buf samples k m) (later : List Sample) :
    HoldsFrom buf (samples ++ later) k m := by
  intro j hj
  obtain ⟨v, hbuf, hsample⟩ := h j hj
  obtain ⟨hlt, _⟩ := List.getElem?_eq_some_iff.mp hsample
  exact ⟨v, hbuf, (List.getElem?_append_left hlt).trans hsample⟩

/-- Storing the next sample at the next cell. -/
theorem HoldsFrom.snoc (h : HoldsFrom buf samples k m) (hcell : m < buf.length) (hlen : samples.length = k + m)
    (v : Sample) : HoldsFrom (buf.set m v) (samples ++ [v]) k (m + 1) := by
  intro j hj
  rcases Nat.lt_succ_iff_lt_or_eq.mp hj with hlt | rfl
  · rw [List.getElem?_set_ne hlt.ne']
    exact h.append [v] j hlt
  · exact ⟨v, List.getElem?_set_self hcell, by rw [← hlen, List.getElem?_concat_length]⟩

/-- A copy holds what its source holds. -/
theorem HoldsFrom.copy {copied : List Sample} (h : HoldsFrom buf samples k m)
    (hcopy : ∀ j, j < m → copied[j]? = buf[j]?) : HoldsFrom copied samples k m := by
  intro j hj
  rw [hcopy j hj]
  exact h j hj

/-- A buffer of `m` cells that hold samples is the list of these samples. -/
theorem HoldsFrom.eq_take_drop (h : HoldsFrom buf samples k m) (hlen : buf.length = m) :
    buf = (samples.drop k).take m := by
  refine List.ext_getElem? fun j => ?_
  rw [List.getElem?_take, List.getElem?_drop]
  split
  next hj =>
    obtain ⟨v, hbuf, hsample⟩ := h j hj
    rw [hbuf, hsample]
  next hj => exact List.getElem?_eq_none (by omega)

/-! ## The hardware's side: what the two buffers hold (R141, R142) -/

/-- `samples` are the samples delivered so far and `d` is the number of blocks completed. It holds along every run
without RESET, with or without overruns. -/
structure Delivered (samples : List Sample) (d : Nat) (s : State) : Prop where
  /-- `d` whole blocks and the part of the next one up to `WPTR`. -/
  length : samples.length = d * s.cfg.params.hopSize + s.wptr
  /-- The active buffer holds that part … -/
  filling : HoldsFrom (s.acqBuf.get s.active) samples (d * s.cfg.params.hopSize) s.wptr
  /-- … and the other one the block completed last. -/
  complete : ∀ k, d = k + 1 →
    HoldsFrom (s.acqBuf.get (other s.active)) samples (k * s.cfg.params.hopSize) s.cfg.params.hopSize

theorem exec_keeps_delivered (hi : i ≠ .reset) (hs : Delivered samples d s) (h : exec i s = .next t) :
    Delivered (samples ++ deliveredSamples [i]) (d + [i].count .acqDone) t := by
  cases effect_of_exec h with
  | acqSample v _ _ hcell =>
    refine ⟨?_, ?_, fun k hk => ?_⟩
    · exact List.length_append.trans (congrArg (· + 1) hs.length)
    · simp only [Two.get_set, if_true]
      exact hs.filling.snoc hcell hs.length v
    · simp only [Two.get_set, if_neg (other_ne s.active)]
      exact (hs.complete k hk).append [v]
  | acqDone _ hwptr =>
    change Delivered (samples ++ []) (d + 1) _
    rw [List.append_nil]
    refine ⟨?_, holdsFrom_zero, fun k hk => ?_⟩
    · simp only [hs.length, hwptr, Nat.succ_mul, Nat.add_zero]
    · obtain rfl : d = k := Nat.succ.inj hk
      simp only [other_other]
      exact hwptr ▸ hs.filling
  | reset => exact absurd rfl hi
  | _ =>
    change Delivered (samples ++ []) d _
    rw [List.append_nil]
    exact { hs with }

/-! ## The consumer's side: which block it has taken (R144 to R147) -/

/-- How many blocks are taken and not yet analysed at a position of the microprogram. -/
def SeqPc.blocksTaken : SeqPc → Nat
  | .ingest | .compute => 1
  | .init | .check | .acquire | .fill | .release => 0

/-- Of `d` completed blocks `c` are analysed, and none is lost or taken twice. It holds while no overrun is recorded. -/
structure InOrder (samples : List Sample) (d c : Nat) (s : State) : Prop where
  /-- Every completed block is analysed, taken, or waiting to be taken. -/
  blocks : d = c + s.seqPc.blocksTaken + s.ready.toNat
  /-- No block waits while one is copied. -/
  copying : s.seqPc = .ingest → s.ready = false
  /-- At COMPUTE the block staged is the next in order. -/
  staged : s.seqPc = .compute → HoldsFrom s.stage samples (c * s.cfg.params.hopSize) s.cfg.params.hopSize

theorem InOrder.append (hs : InOrder samples d c s) (later : List Sample) : InOrder (samples ++ later) d c s :=
  { hs with staged := fun hpc => (hs.staged hpc).append later }

/-- A completion event that records no overrun comes where no block is copied and none waits (R143). -/
theorem noOverrun_acqDone (h : exec .acqDone s = .next t) (ht : NoOverrun t) : s.seqPc ≠ .ingest ∧ s.ready = false := by
  cases effect_of_exec h with
  | acqDone =>
    obtain ⟨hread, hdrop⟩ := ht
    exact ⟨of_decide_eq_false (Bool.or_eq_false_iff.mp hread).2, (Bool.or_eq_false_iff.mp hdrop).2⟩

/-- The records are sticky: only RESET clears them (R143). -/
theorem noOverrun_of_exec (hi : i ≠ .reset) (h : exec i s = .next t) (ht : NoOverrun t) : NoOverrun s := by
  cases effect_of_exec h with
  | acqDone =>
    obtain ⟨hread, hdrop⟩ := ht
    exact ⟨(Bool.or_eq_false_iff.mp hread).1, (Bool.or_eq_false_iff.mp hdrop).1⟩
  | reset => exact absurd rfl hi
  | _ => exact ht

/-- The block an AN_INGEST ends with is the next in order: no swap came since it was taken. -/
theorem staged_of_last_ingest {v : Sample} (hs : InOrder samples d c s) (hhw : Delivered samples d s)
    (hhandoff : HandoffOk s) (hovr : NoOverrun s) (hpc : s.seqPc = .ingest) (hcell : s.ingestPtr < s.stage.length)
    (hv : (s.acqBuf.get s.consIdx)[s.ingestPtr]? = some v) (hlast : s.ingestPtr + 1 = s.cfg.params.hopSize) :
    HoldsFrom (s.stage.set s.ingestPtr v) samples (c * s.cfg.params.hopSize) s.cfg.params.hopSize := by
  obtain ⟨hcons, hcopied⟩ := hhandoff hovr.1 hpc
  have hd : d = c + 1 := by simpa [hpc, hs.copying hpc, SeqPc.blocksTaken] using hs.blocks
  refine (hhw.complete c hd).copy ?_
  rw [← hcons, ← hlast]
  exact copied_prefix_succ hcell hv hcopied

/-- A step moves the counts; samples it delivers are added by `InOrder.append`. -/
theorem exec_keeps_inOrder (hi : i ≠ .reset) (hs : InOrder samples d c s) (hhw : Delivered samples d s)
    (hhandoff : HandoffOk s) (h : exec i s = .next t) (ht : NoOverrun t) :
    InOrder samples (d + [i].count .acqDone) (c + [i].count .anCompute) t := by
  have hblocks := hs.blocks
  cases effect_of_exec h with
  | acqDone =>
    obtain ⟨hpc, hready⟩ := noOverrun_acqDone h ht
    rw [hready] at hblocks
    exact ⟨congrArg (· + 1) hblocks, fun hpc' => absurd hpc' hpc, hs.staged⟩
  | seqCheckTaken _ hpc hready =>
    rw [hpc, hready] at hblocks
    exact ⟨hblocks, fun _ => rfl, nofun⟩
  | anIngest v _ hpc hcell hv =>
    by_cases hlast : s.ingestPtr + 1 = s.cfg.params.hopSize
    · rw [if_pos hlast]
      rw [hpc] at hblocks
      have hovr := noOverrun_of_exec hi h ht
      exact ⟨hblocks, nofun, fun _ => staged_of_last_ingest hs hhw hhandoff hovr hpc hcell hv hlast⟩
    · rw [if_neg hlast]
      exact ⟨hblocks, hs.copying, fun hpc' => absurd (hpc.symm.trans hpc') (by decide)⟩
  | anCompute _ _ hpc | seqCheckSkipped _ hpc | poolAcquireGranted _ _ hpc | poolAcquireSkipped _ hpc
  | synFill _ _ _ hpc | poolRelease _ _ hpc | initRuns _ hpc =>
    rw [hpc] at hblocks
    exact ⟨hblocks, nofun, nofun⟩
  | acqSample | outTake | outDone | csrRead | csrWriteBinds | csrWriteIgnored | initHalts => exact { hs with }
  | reset => exact absurd rfl hi

/-! ## The run -/

/-- What a run of the operations `ops` from power-on has reached. -/
structure RunInOrder (ops : List Instr) (s : State) : Prop where
  handoff : HandoffOk s
  delivered : Delivered (deliveredSamples ops) (ops.count .acqDone) s
  inOrder : NoOverrun s → InOrder (deliveredSamples ops) (ops.count .acqDone) (ops.count .anCompute) s

theorem runInOrder_powerOn (cfg : Config) (wave : Memory) : RunInOrder [] (State.powerOn cfg wave) where
  handoff := fun _ => nofun
  delivered := ⟨by simp [deliveredSamples], holdsFrom_zero, nofun⟩
  inOrder := fun _ => ⟨rfl, nofun, nofun⟩

theorem exec_keeps_runInOrder (hi : i ≠ .reset) (hs : RunInOrder ops s) (h : exec i s = .next t) :
    RunInOrder (ops ++ [i]) t where
  handoff := exec_keeps_handoffOk hs.handoff h
  delivered := by
    rw [deliveredSamples_append, List.count_append]
    exact exec_keeps_delivered hi hs.delivered h
  inOrder := fun ht => by
    rw [deliveredSamples_append, List.count_append, List.count_append]
    have hinOrder := hs.inOrder (noOverrun_of_exec hi h ht)
    exact (exec_keeps_inOrder hi hinOrder hs.delivered hs.handoff h ht).append _

theorem runInOrder_of_runOps {cfg : Config} {wave : Memory} (hreset : Instr.reset ∉ ops)
    (h : runOps ops (State.powerOn cfg wave) = .next s) : RunInOrder ops s := by
  induction ops using List.reverseRecOn generalizing s with
  | nil =>
    cases h
    exact runInOrder_powerOn cfg wave
  | append_singleton ops i ih =>
    obtain ⟨t, hops, hlast⟩ := runOps_snoc.mp h
    simp only [List.mem_append, List.mem_singleton, not_or] at hreset
    obtain ⟨hreset, hi⟩ := hreset
    exact exec_keeps_runInOrder (Ne.symm hi) (ih hreset hops) hlast

/-- Settles O13: at COMPUTE the stage holds the next block in order, and `Shape` gives its length. -/
theorem analysisCyclesTakeTheBlocksInOrder : Obligations.AnalysisCyclesTakeTheBlocksInOrder := by
  intro cfg wave ops s hwave hreset hrun henabled hovr
  obtain ⟨_, hpc⟩ := enabled_anCompute.mp henabled
  have hcfg : s.cfg = cfg :=
    runOps_keeps (P := fun u => u.cfg = cfg) (fun _ _ _ hu h => (exec_cfg h).trans hu) hrun rfl
  have hinv : Inv s := runOps_keeps (fun _ _ _ => exec_keeps_inv) hrun (inv_powerOn cfg hwave)
  have hstaged := ((runInOrder_of_runOps hreset hrun).inOrder hovr).staged hpc
  rw [← hcfg]
  exact hstaged.eq_take_drop hinv.shape.stage

end Sys2Proof.Machine
end

section
/-!
PROOFS. What the analysis needs of binary32 beside one rounding (spec/00_scope.md R14): comparisons as comparisons of
values, a rounding that does not pass a binary32, and the numbers whose sign bit is clear.
-/

namespace Sys2Proof.Machine

variable {a b y : F32} {i : Int} {neg : Bool} {num den : Nat}

/-! ## Comparisons -/

theorem f32Lt_iff : f32Lt a b = true ↔ f32IsNaN a = false ∧ f32IsNaN b = false ∧ f32Val a < f32Val b := by
  simp [f32Lt, and_assoc]

theorem f32Le_iff : f32Le a b = true ↔ f32IsNaN a = false ∧ f32IsNaN b = false ∧ f32Val a ≤ f32Val b := by
  simp [f32Le, and_assoc]

theorem f32Val_lt_of_f32Lt (h : f32Lt a b = true) : f32Val a < f32Val b := by
  obtain ⟨-, -, hlt⟩ := f32Lt_iff.mp h
  exact hlt

theorem not_f32Lt_of_le (h : f32Val b ≤ f32Val a) : f32Lt a b = false :=
  Bool.eq_false_iff.mpr fun hlt => h.not_gt (f32Val_lt_of_f32Lt hlt)

theorem f32Le_of_not_f32Lt (ha : f32IsNaN a = false) (hb : f32IsNaN b = false) (h : ¬ f32Lt b a = true) :
    f32Le a b = true := by
  rw [f32Lt_of_number hb ha, decide_eq_true_eq, not_lt] at h
  exact f32Le_iff.mpr ⟨ha, hb, h⟩

/-- A sign flip negates the value. -/
theorem f32Val_neg (a : F32) : f32Val (f32Neg a) = -f32Val a := by
  have hexp : f32Exp (f32Neg a) = f32Exp a := by simp [f32Exp, f32Neg, BitVec.extractLsb'_xor]
  have hfrac : f32Frac (f32Neg a) = f32Frac a := by simp [f32Frac, f32Neg, BitVec.extractLsb'_xor]
  have hsign : f32Sign (f32Neg a) = !f32Sign a := by simp [f32Sign, f32Neg]
  have hmag : f32Mag (f32Neg a) = f32Mag a := by rw [f32Mag, f32Mag, hexp, hfrac]
  rw [f32Val_eq_signed, f32Val_eq_signed, hmag, hsign, signed_not]

theorem f32Val_zero : f32Val 0#32 = 0 := by decide

theorem f32Val_one : f32Val f32One = unitScale := by decide

theorem f32Mag_ne_zero_of_pos (h : 0 < f32Val a) : f32Mag a ≠ 0 := by
  rw [← natAbs_f32Val]; omega

/-! ## Rounding does not pass a binary32 -/

theorem f32OfUnits_le (hd : 0 < den) (hf : f32IsFinite (f32OfUnits neg num den) = true)
    (h : signed neg num ≤ f32Val y * den) : f32Val (f32OfUnits neg num den) ≤ f32Val y := by
  have hnear := (f32OfUnits_nearest neg num den hd hf y).1
  rw [abs_of_nonneg (sub_nonneg.mpr h)] at hnear
  have habove := (le_abs_self _).trans hnear
  exact le_of_mul_le_mul_right ((sub_le_sub_iff_right _).mp habove) (Int.natCast_pos.mpr hd)

theorem le_f32OfUnits (hd : 0 < den) (hf : f32IsFinite (f32OfUnits neg num den) = true)
    (h : f32Val y * den ≤ signed neg num) : f32Val y ≤ f32Val (f32OfUnits neg num den) := by
  have hnear := (f32OfUnits_nearest neg num den hd hf y).1
  rw [abs_of_nonpos (sub_nonpos.mpr h)] at hnear
  have hbelow := neg_le_neg_iff.mp ((neg_le_abs _).trans hnear)
  exact le_of_mul_le_mul_right ((sub_le_sub_iff_right _).mp hbelow) (Int.natCast_pos.mpr hd)

/-- A positive integer converts to 1.0 or more. -/
theorem f32Val_toF32_pos (hpos : 0 < i) (hle : |i| ≤ 2 ^ 127) : 0 < f32Val (toF32 i) := by
  have hone : f32Val f32One ≤ f32Val (toF32 i) := by
    refine le_f32OfUnits one_pos (toF32_finite hle) ?_
    rw [signed_toF32, f32Val_one, Nat.cast_one, mul_one]
    exact le_mul_of_one_le_left (Int.natCast_nonneg _) hpos
  exact lt_of_lt_of_le (by decide) hone

/-! ## Numbers with a clear sign bit -/

/-- +0.0, a positive number or +∞. -/
structure Unsigned (a : F32) : Prop where
  number : f32IsNaN a = false
  sign : f32Sign a = false

theorem Unsigned.f32Val_eq (ha : Unsigned a) : f32Val a = f32Mag a := by
  rw [f32Val_eq_signed, ha.sign]; rfl

theorem Unsigned.zero_f32Le (ha : Unsigned a) : f32Le 0#32 a = true :=
  f32Le_iff.mpr ⟨by decide, ha.number, by rw [f32Val_zero, ha.f32Val_eq]; exact Int.natCast_nonneg _⟩

theorem unsigned_f32OfUnits (num den : Nat) : Unsigned (f32OfUnits false num den) := by
  obtain ⟨-, hnan, hsign⟩ := f32OfUnits_class false num den
  exact ⟨hnan, hsign⟩

theorem unsigned_f32Zero : Unsigned (f32Zero false) := ⟨by decide, by decide⟩

theorem unsigned_f32Inf : Unsigned (f32Inf false) := ⟨by decide, by decide⟩

theorem unsigned_toF32 (h : 0 ≤ i) : Unsigned (toF32 i) := by
  rw [toF32, decide_eq_false h.not_gt]
  exact unsigned_f32OfUnits _ _

/-- A square is never negative. -/
theorem unsigned_f32Mul_self (ha : f32IsFinite a = true) : Unsigned (f32Mul a a) := by
  rw [f32Mul_of_finite ha ha, bne_self_eq_false]
  exact unsigned_f32OfUnits _ _

theorem Unsigned.f32Add (ha : Unsigned a) (hb : Unsigned b) : Unsigned (f32Add a b) := by
  simp only [Machine.f32Add, ha.number, hb.number, ha.sign, hb.sign, Bool.or_self, Bool.false_eq_true, if_false,
    bne_self_eq_false, Bool.and_false, Bool.and_self]
  split
  · exact ha
  split
  · exact hb
  split
  · exact unsigned_f32Zero
  · rw [ha.f32Val_eq, hb.f32Val_eq, decide_eq_false (by omega)]
    exact unsigned_f32OfUnits _ _

theorem Unsigned.f32Sqrt (ha : Unsigned a) : Unsigned (f32Sqrt a) := by
  simp only [Machine.f32Sqrt, ha.number, ha.sign, Bool.false_eq_true, if_false]
  split
  · exact ha
  split
  · exact ha
  · exact unsigned_f32OfUnits _ _

theorem Unsigned.f32Div (ha : Unsigned a) (hb : Unsigned b) (hfin : f32IsFinite b = true) (hpos : 0 < f32Val b) :
    Unsigned (f32Div a b) := by
  cases hinf : f32IsInf a with
  | false =>
    have hfina := f32IsFinite_of_not_nan_inf ha.number hinf
    rw [f32Div_of_finite hfina hfin (f32Mag_ne_zero_of_pos hpos), ha.sign, hb.sign]
    exact unsigned_f32OfUnits _ _
  | true =>
    obtain ⟨-, hinfb⟩ := f32IsFinite_class b hfin
    simp only [Machine.f32Div, ha.number, hb.number, ha.sign, hb.sign, hinf, hinfb]
    exact unsigned_f32Inf

end Sys2Proof.Machine
end

section
/-!
PROOFS. Steps 1 to 4 of the analysis (spec/41_analysis.md): normalisation (R161), bit reversal and the FFT engine (R165
to R169), the magnitudes (R170).
-/

namespace Sys2Proof.Machine

variable {tw : List Cplx} {S h k : Nat} {y : List F32} {a : F32} {i j : Int} {u v w x e o : Cplx} {A B : List Cplx}

/-! ## Normalisation (R161) -/

/-- The quotient of two converted integers, the second positive, is a number. -/
theorem f32Div_toF32_number (hi : |i| ≤ 2 ^ 127) (hpos : 0 < j) (hj : |j| ≤ 2 ^ 127) :
    f32IsNaN (f32Div (toF32 i) (toF32 j)) = false := by
  rw [f32Div_of_finite (toF32_finite hi) (toF32_finite hj) (f32Mag_ne_zero_of_pos (f32Val_toF32_pos hpos hj))]
  obtain ⟨-, hnan, -⟩ := f32OfUnits_class (f32Sign (toF32 i) != f32Sign (toF32 j)) (f32Mag (toF32 i) * unitScale)
    (f32Mag (toF32 j))
  exact hnan

/-- Settles O15: the quotient is a number, so one that passes neither end lies between them. -/
theorem normalisedSamplesLieInTheUnitRange : Obligations.NormalisedSamplesLieInTheUnitRange := by
  intro cfg raw v hv
  have hnan : f32IsNaN v = false := by
    have hsample := And.intro raw.le_toInt raw.toInt_lt
    have hbias := And.intro cfg.params.adcBias.le_toInt cfg.params.adcBias.toInt_lt
    have hhalf := And.intro cfg.valid.adcHalfRange cfg.params.adcHalfRange.isLt
    rw [hv]
    exact f32Div_toF32_number (abs_le.mpr (by omega)) (by omega) (abs_le.mpr (by omega))
  have hdef : normalise cfg.params raw =
      if f32Gt v f32One then f32One else if f32Lt v f32NegOne then f32NegOne else v := by
    rw [hv]; rfl
  have hends : f32Le f32NegOne f32NegOne = true ∧ f32Le f32NegOne f32One = true ∧ f32Le f32One f32One = true := by
    decide
  obtain ⟨hlolo, hlohi, hhihi⟩ := hends
  rw [hdef]
  by_cases hgt : f32Gt v f32One = true
  · have hlt : f32Lt v f32NegOne = false := by
      have hval : f32Val f32NegOne < f32Val f32One := by decide
      exact not_f32Lt_of_le (hval.trans (f32Val_lt_of_f32Lt hgt)).le
    simp [hgt, hlt, hlohi, hhihi]
  by_cases hlt : f32Lt v f32NegOne = true
  · simp [hgt, hlt, hlolo, hlohi]
  · have hlo : f32Le f32NegOne v = true := f32Le_of_not_f32Lt (by decide) hnan hlt
    have hhi : f32Le v f32One = true := f32Le_of_not_f32Lt hnan (by decide) hgt
    simp [hgt, hlt, hlo, hhi]

/-! ## Bit reversal (R166) -/

/-- Settles O16: the lowest bit goes to the top, the others are reversed under it. -/
theorem bitReversalReversesTheBits : Obligations.BitReversalReversesTheBits := by
  intro S n
  refine ⟨bitrev_lt S n, ?_⟩
  induction S generalizing n with
  | zero => intro i hi; omega
  | succ S ih =>
    intro i hi
    rw [bitrev, Nat.mul_comm, Nat.testBit_two_pow_mul_add _ (bitrev_lt S _)]
    rcases Nat.lt_succ_iff_lt_or_eq.mp hi with hlt | rfl
    · rw [if_pos hlt, ih _ i hlt, Nat.testBit_div_two]
      congr 1; omega
    · simp [Nat.testBit_zero]

/-! ## One stage over the whole array (R165, R167) -/

/-- A group over the whole array combines its two halves cell by cell. -/
theorem fftGroup_whole (hA : A.length = h) (hB : B.length = h) (hk : k < h) (he : A[k]? = some e)
    (ho : B[k]? = some o) :
    (fftGroup tw (2 * h) (2 * h) 0 (A ++ B))[k]? = some (butterfly e o (tw.getD k Cplx.zero)).1 ∧
      (fftGroup tw (2 * h) (2 * h) 0 (A ++ B))[k + h]? = some (butterfly e o (tw.getD k Cplx.zero)).2 := by
  have hlen : (fftGroup tw (2 * h) (2 * h) 0 (A ++ B)).length = 2 * h := by
    rw [fftGroup_length, List.length_append]; omega
  have hcell := fftGroup_getD tw (2 * h) (2 * h) 0 (2 * h / 2) (A ++ B) (by rw [List.length_append]; omega) le_rfl
  rw [← fftGroup, Nat.mul_div_cancel_left h two_pos, Nat.div_self (by omega)] at hcell
  have heven : (A ++ B).getD k Cplx.zero = e := by
    rw [List.getD_eq_getElem?_getD, List.getElem?_append_left (by omega), he, Option.getD_some]
  have hodd : (A ++ B).getD (k + h) Cplx.zero = o := by
    rw [List.getD_eq_getElem?_getD, List.getElem?_append_right (by omega), hA, Nat.add_sub_cancel, ho, Option.getD_some]
  have hsome : ∀ i, i < 2 * h → (fftGroup tw (2 * h) (2 * h) 0 (A ++ B))[i]? =
      some ((fftGroup tw (2 * h) (2 * h) 0 (A ++ B)).getD i Cplx.zero) := fun i hi => by
    rw [List.getElem?_eq_getElem (by omega), List.getD_eq_getElem]
  constructor
  · rw [hsome k (by omega), hcell, if_pos (by omega), heven, hodd, Nat.sub_zero, Nat.mul_one]
  · rw [hsome (k + h) (by omega), hcell, if_neg (by omega), if_pos (by omega), Nat.add_sub_cancel, heven, hodd,
      Nat.sub_zero, Nat.add_sub_cancel, Nat.mul_one]

/-- The two outputs of a pair are the butterfly of that output of the even and of the odd samples' transforms. -/
theorem fftRef_succ_pair (hk : k < 2 ^ S)
    (he : (fftRef (halfTw (2 ^ S) tw) S (everySecond (2 ^ S) 0 y))[k]? = some e)
    (ho : (fftRef (halfTw (2 ^ S) tw) S (everySecond (2 ^ S) 1 y))[k]? = some o) :
    (fftRef tw (S + 1) y)[k]? = some (butterfly e o (tw.getD k Cplx.zero)).1 ∧
      (fftRef tw (S + 1) y)[k + 2 ^ S]? = some (butterfly e o (tw.getD k Cplx.zero)).2 := by
  rw [fftRef_succ, pow_succ']
  exact fftGroup_whole (fftRef_length _ _ _) (fftRef_length _ _ _) hk he ho

/-- Where both half transforms are constant and every butterfly answers one value twice, the transform is that value. -/
theorem fftRef_succ_replicate
    (heven : fftRef (halfTw (2 ^ S) tw) S (everySecond (2 ^ S) 0 y) = List.replicate (2 ^ S) u)
    (hodd : fftRef (halfTw (2 ^ S) tw) S (everySecond (2 ^ S) 1 y) = List.replicate (2 ^ S) v)
    (hx : ∀ k, butterfly u v (tw.getD k Cplx.zero) = (x, x)) :
    fftRef tw (S + 1) y = List.replicate (2 ^ (S + 1)) x := by
  have hpair : ∀ k, k < 2 ^ S → (fftRef tw (S + 1) y)[k]? = some x ∧ (fftRef tw (S + 1) y)[k + 2 ^ S]? = some x :=
    fun k hk => by
      have := fftRef_succ_pair hk (by rw [heven, List.getElem?_replicate_of_lt hk])
        (by rw [hodd, List.getElem?_replicate_of_lt hk])
      rwa [hx k] at this
  refine List.eq_replicate_iff.mpr ⟨fftRef_length _ _ _, fun z hz => ?_⟩
  obtain ⟨i, hi, rfl⟩ := List.mem_iff_getElem.mp hz
  rw [fftRef_length] at hi
  apply Option.some.inj
  rw [← List.getElem?_eq_getElem]
  rcases Nat.lt_or_ge i (2 ^ S) with hlt | hge
  · exact (hpair i hlt).1
  · obtain ⟨k, rfl⟩ := Nat.exists_eq_add_of_le' hge
    exact (hpair k (by omega)).2

/-! ## Silence and the impulse (P1, P2) -/

/-- Every factor the engine reads, the zero past the end of the ROM included, is finite. -/
def FiniteTw (tw : List Cplx) : Prop :=
  ∀ k, f32IsFinite (tw.getD k Cplx.zero).re = true ∧ f32IsFinite (tw.getD k Cplx.zero).im = true

theorem finiteTw_of_forall_mem (h : ∀ t ∈ tw, f32IsFinite t.re = true ∧ f32IsFinite t.im = true) : FiniteTw tw := by
  intro k
  rw [List.getD_eq_getElem?_getD]
  cases hk : tw[k]? with
  | none => exact ⟨by decide, by decide⟩
  | some t => exact h t (List.mem_of_getElem? hk)

theorem FiniteTw.halfTw (h : FiniteTw tw) (K : Nat) : FiniteTw (halfTw K tw) := by
  refine finiteTw_of_forall_mem fun t ht => ?_
  obtain ⟨n, -, rfl⟩ := List.mem_map.mp ht
  exact h (2 * n)

/-- A finite number times +0.0 is a zero with its sign. -/
theorem f32Mul_zero_of_finite (h : f32IsFinite a = true) : f32Mul a 0#32 = f32Zero (f32Sign a) := by
  rw [f32Mul_of_finite h (by decide), show f32Mag 0#32 = 0 by decide, Nat.mul_zero, show f32Sign 0#32 = false by decide,
    Bool.bne_false, f32OfUnits, show roundUnits 0 unitScale = 0 by decide, f32Zero]

/-- +0.0 and 1.0 stand when a sum or a difference of two zeros is added or subtracted. -/
theorem f32Add_sub_zeros (neg neg' : Bool) (ha : a = 0#32 ∨ a = f32One) :
    f32Add a (f32Sub (f32Zero neg) (f32Zero neg')) = a ∧ f32Add a (f32Add (f32Zero neg) (f32Zero neg')) = a ∧
      f32Sub a (f32Sub (f32Zero neg) (f32Zero neg')) = a ∧ f32Sub a (f32Add (f32Zero neg) (f32Zero neg')) = a := by
  rcases ha with rfl | rfl <;> revert neg neg' <;> decide

/-- A butterfly with a silent lower operand passes the upper one to both outputs. -/
theorem butterfly_zero (ha : a = 0#32 ∨ a = f32One) (hre : f32IsFinite w.re = true) (him : f32IsFinite w.im = true) :
    butterfly ⟨a, 0#32⟩ Cplx.zero w = (⟨a, 0#32⟩, ⟨a, 0#32⟩) := by
  obtain ⟨haddre, -, hsubre, -⟩ := f32Add_sub_zeros (f32Sign w.re) (f32Sign w.im) ha
  obtain ⟨-, haddim, -, hsubim⟩ := f32Add_sub_zeros (f32Sign w.re) (f32Sign w.im) (.inl (rfl : 0#32 = 0#32))
  simp [butterfly, f32Mul_zero_of_finite hre, f32Mul_zero_of_finite him, haddre, hsubre, haddim, hsubim]

theorem everySecond_silence (K o n : Nat) : everySecond K o (List.replicate n 0#32) = List.replicate K 0#32 := by
  simp [everySecond]

/-- The odd samples of an impulse are silent. -/
theorem everySecond_impulse_odd (K n : Nat) :
    everySecond K 1 (f32One :: List.replicate n 0#32) = List.replicate K 0#32 := by
  simp [everySecond]

/-- The even samples of an impulse are an impulse. -/
theorem everySecond_impulse_even {K : Nat} (hK : 0 < K) (n : Nat) :
    everySecond K 0 (f32One :: List.replicate n 0#32) = f32One :: List.replicate (K - 1) 0#32 := by
  obtain ⟨K, rfl⟩ := Nat.exists_eq_add_one_of_ne_zero hK.ne'
  simp [everySecond, List.range_succ_eq_map, Function.comp_def, Nat.mul_add]

theorem fftRef_silence (h : FiniteTw tw) :
    fftRef tw S (List.replicate (2 ^ S) 0#32) = List.replicate (2 ^ S) Cplx.zero := by
  induction S generalizing tw with
  | zero => rfl
  | succ S ih =>
    refine fftRef_succ_replicate ?_ ?_ fun k => butterfly_zero (.inl rfl) (h k).1 (h k).2
    · rw [everySecond_silence]; exact ih (h.halfTw _)
    · rw [everySecond_silence]; exact ih (h.halfTw _)

theorem fftRef_impulse (h : FiniteTw tw) :
    fftRef tw S (f32One :: List.replicate (2 ^ S - 1) 0#32) = List.replicate (2 ^ S) ⟨f32One, 0#32⟩ := by
  induction S generalizing tw with
  | zero => rfl
  | succ S ih =>
    refine fftRef_succ_replicate (v := Cplx.zero) ?_ ?_ fun k => butterfly_zero (.inr rfl) (h k).1 (h k).2
    · rw [everySecond_impulse_even (Nat.two_pow_pos S)]; exact ih (h.halfTw _)
    · rw [everySecond_impulse_odd]; exact fftRef_silence (h.halfTw _)

/-- Settles O17: an impulse halves into an impulse and silence, and the recursion is `fftRef_succ_pair`. -/
theorem fftOfSilenceIsSilence : Obligations.FftOfSilenceIsSilence := by
  refine ⟨fun tw S h => ?_, fun tw y => fftRef_zero tw [y], ?_⟩
  · exact ⟨fftRef_silence (finiteTw_of_forall_mem h), fftRef_impulse (finiteTw_of_forall_mem h)⟩
  · rintro tw S y k _ _ _ e o w _ _ - hk rfl rfl rfl he ho hw rfl rfl
    have hfactor : tw.getD k Cplx.zero = w := by rw [List.getD_eq_getElem?_getD, hw, Option.getD_some]
    rw [← hfactor]
    exact fftRef_succ_pair hk he ho

/-! ## Magnitudes (R170) -/

theorem nBins_range (cfg : Config) : 0 < cfg.params.nBins ∧ cfg.params.nBins ≤ 2 ^ 16 := by
  obtain ⟨hlo, hhi⟩ := cfg.valid.fftLog
  have hsize : 2 ^ 2 ≤ cfg.params.fftSize := Nat.pow_le_pow_right two_pos hlo
  exact ⟨Nat.div_pos (by omega) two_pos, (Nat.div_le_self _ _).trans (Nat.pow_le_pow_right two_pos hhi)⟩

/-- A sum of squares, its root and the root over N keep the sign bit clear. -/
theorem unsigned_magnitude (cfg : Config) (hre : f32IsFinite x.re = true) (him : f32IsFinite x.im = true) :
    Unsigned (magnitude cfg.params x) := by
  obtain ⟨hN, hle⟩ := nBins_range cfg
  have hpos : (0 : Int) < cfg.params.nBins := Int.natCast_pos.mpr hN
  have habs : |(cfg.params.nBins : Int)| ≤ 2 ^ 127 := abs_le.mpr ⟨by omega, by omega⟩
  have hsquares := (unsigned_f32Mul_self hre).f32Add (unsigned_f32Mul_self him)
  exact hsquares.f32Sqrt.f32Div (unsigned_toF32 hpos.le) (toF32_finite habs) (f32Val_toF32_pos hpos habs)

/-- Settles O18. -/
theorem magnitudesAreNotNegative : Obligations.MagnitudesAreNotNegative := by
  intro cfg
  refine ⟨fun win k x hk hx => ?_, fun x hre him => ?_⟩
  · rw [magnitudes, List.getElem?_map, List.getElem?_take_of_lt hk, windowed, hx, Option.map_some, magnitude]
  · have hmag := unsigned_magnitude cfg hre him
    exact ⟨hmag.zero_f32Le, hmag.sign⟩

end Sys2Proof.Machine
end

section
/-!
PROOFS. Steps 5 and 6 of the analysis (spec/41_analysis.md): the peak detector (R172 to R174), the envelope (R179), the
quantised target (R181), the bin update (R175 to R178, R185).
-/

namespace Sys2Proof.Machine

variable {p : Params} {mag mags : List F32} {k R : Nat} {a v m : F32} {b : Bin}

/-! ## The peak detector (R172 to R174) -/

theorem eligible_iff : eligible p k R = true ↔ R < k ∧ k + R < p.nBins - 1 := by simp [eligible]

/-- The peak test, its neighbourhood read as the bins from `k - R` to `k + R` (R173). -/
theorem peakTest_iff : peakTest p mag k R = true ↔
    (R < k ∧ k + R < p.nBins - 1) ∧ f32Ge (mag.getD k 0#32) p.peakThreshold = true ∧
      ∀ j, k - R ≤ j → j ≤ k + R → j ≠ k → f32Gt (mag.getD k 0#32) (mag.getD j 0#32) = true := by
  simp only [peakTest, Bool.and_eq_true, eligible_iff, and_assoc, List.all_eq_true, List.mem_range, Bool.or_eq_true,
    decide_eq_true_eq]
  refine and_congr_right fun hlo => and_congr_right fun _ => and_congr_right fun _ => ⟨fun h j hj hj' hne => ?_,
    fun h d hd => or_iff_not_imp_left.mpr fun hne => h _ (by omega) (by omega) hne⟩
  have hoffset := h (j - (k - R)) (by omega)
  rw [Nat.add_sub_cancel' hj] at hoffset
  exact hoffset.resolve_left hne

/-- Settles O19: a peak is eligible, and eligibility keeps the neighbourhood off both ends. -/
theorem edgeBinsAreNeverInAPeaksNeighbourhood : Obligations.EdgeBinsAreNeverInAPeaksNeighbourhood := by
  intro p mag k R
  refine ⟨fun h => ?_, fun hnarrow => Bool.eq_false_iff.mpr fun h => ?_⟩
  · obtain ⟨⟨hlo, hhi⟩, -⟩ := peakTest_iff.mp h
    exact ⟨by omega, by omega, fun j _ _ => ⟨by omega, by omega⟩⟩
  · obtain ⟨⟨hlo, hhi⟩, -⟩ := peakTest_iff.mp h
    omega

/-- Settles O20. -/
theorem peakTestIsAStrictLocalMaximum : Obligations.PeakTestIsAStrictLocalMaximum := by
  intro p mag k R
  rw [peakTest_iff, and_assoc]
  exact and_congr (by omega) (and_congr_left fun _ => by omega)

/-- Settles O21: of two peaks within R of each other, each would be above the other. -/
theorem peaksAreMoreThanTheGuardRadiusApart : Obligations.PeaksAreMoreThanTheGuardRadiusApart := by
  intro p mag j k R hj hk hjk
  obtain ⟨-, -, hjabove⟩ := peakTest_iff.mp hj
  obtain ⟨-, -, hkabove⟩ := peakTest_iff.mp hk
  by_contra hnear
  have hkj := f32Val_lt_of_f32Lt (hjabove k (by omega) (by omega) hjk.ne')
  have hjk' := f32Val_lt_of_f32Lt (hkabove j (by omega) (by omega) hjk.ne)
  exact hkj.asymm hjk'

/-! ## The envelope (R179) -/

theorem f32Val_nonneg_of_nonNeg (h : F32NonNeg a) : 0 ≤ f32Val a := by
  rcases h with h | rfl
  · have hsign : f32Sign a = false := Nat.testBit_lt_two_pow (by omega)
    rw [f32Val_eq_signed, hsign]
    exact Int.natCast_nonneg _
  · decide

/-- Settles O24: the threshold is not negative, so no delta passes both ends. -/
theorem envelopeFollowsTheSignOfTheDelta : Obligations.EnvelopeFollowsTheSignOfTheDelta := by
  intro cfg d
  have hthr := f32Val_nonneg_of_nonNeg cfg.valid.envThreshold
  have hends : d = cfg.params.envThreshold ∨ d = f32Neg cfg.params.envThreshold →
      -f32Val cfg.params.envThreshold ≤ f32Val d ∧ f32Val d ≤ f32Val cfg.params.envThreshold := by
    rintro (rfl | rfl)
    · omega
    · rw [f32Val_neg]; omega
  by_cases hgt : f32Gt d cfg.params.envThreshold = true
  · have hval := f32Val_lt_of_f32Lt hgt
    have hlt : f32Lt d (f32Neg cfg.params.envThreshold) = false := not_f32Lt_of_le (by rw [f32Val_neg]; omega)
    have hne := mt hends (by omega)
    simp [classify, hgt, hlt, hne]
  by_cases hlt : f32Lt d (f32Neg cfg.params.envThreshold) = true
  · have hval := f32Val_lt_of_f32Lt hlt
    rw [f32Val_neg] at hval
    have hne := mt hends (by omega)
    simp [classify, hgt, hlt, hne]
  · simp [classify, hgt, hlt]

/-! ## The quantised target (R181) -/

/-- `f32RoundHalfAway` is the nearest integer, ties away from zero. -/
theorem f32RoundHalfAway_brackets (q : F32) :
    (0 ≤ f32Val q → 2 * f32RoundHalfAway q * unitScale ≤ 2 * f32Val q + unitScale ∧
      2 * f32Val q < 2 * f32RoundHalfAway q * unitScale + unitScale) ∧
    (f32Val q < 0 → 2 * f32Val q - unitScale ≤ 2 * f32RoundHalfAway q * unitScale ∧
      2 * f32RoundHalfAway q * unitScale - unitScale < 2 * f32Val q) := by
  obtain ⟨hle, hlt⟩ := roundHalfAway_brackets (f32Mag q) (den := unitScale) (by positivity)
  rw [f32RoundHalfAway, f32Val_eq_signed]
  generalize roundHalfAway (f32Mag q) unitScale = r at *
  unfold unitScale at *
  cases f32Sign q
  · simp only [signed, Bool.false_eq_true, if_false]; omega
  · simp only [signed, if_true]; omega

theorem clamp_eq_max_min {lo hi : Int} (h : lo ≤ hi) (r : Int) : clamp r lo hi = max lo (min r hi) := by
  unfold clamp; omega

theorem quantise_toInt (h : f32IsFinite (f32Mul v f32FullScale) = true) :
    (quantise v).toInt = max (-32768) (min (f32RoundHalfAway (f32Mul v f32FullScale)) 32767) := by
  rw [quantise, if_pos h, clamp_eq_max_min (by decide)]
  exact BitVec.toInt_ofInt_eq_self (by decide) (by omega) (by omega)

/-- A number between 0 and 1.0 is finite: an infinity is beyond both. -/
theorem f32IsFinite_of_unit (h0 : f32Le 0#32 v = true) (h1 : f32Le v f32One = true) :
    f32IsFinite v = true ∧ 0 ≤ f32Val v ∧ f32Val v ≤ unitScale := by
  obtain ⟨-, hnan, hge⟩ := f32Le_iff.mp h0
  obtain ⟨-, -, hle⟩ := f32Le_iff.mp h1
  rw [f32Val_zero] at hge
  rw [f32Val_one] at hle
  refine ⟨f32IsFinite_of_not_nan_inf hnan (Bool.eq_false_iff.mpr fun hinf => ?_), hge, hle⟩
  have hmag := f32Mag_of_isInf hinf
  rw [← natAbs_f32Val] at hmag
  unfold unitScale at hle
  omega

/-- The product of a number in [0, 1] with full scale is finite, and between 0 and full scale. -/
theorem f32Mul_fullScale_range (h0 : f32Le 0#32 v = true) (h1 : f32Le v f32One = true) :
    f32IsFinite (f32Mul v f32FullScale) = true ∧ 0 ≤ f32Val (f32Mul v f32FullScale) ∧
      f32Val (f32Mul v f32FullScale) ≤ 32767 * unitScale := by
  obtain ⟨hfinv, hge, hle⟩ := f32IsFinite_of_unit h0 h1
  have hscale : f32Val f32FullScale = 32767 * unitScale := by decide
  have hpos : 0 < unitScale := by positivity
  have hlo : 0 ≤ f32Val v * f32Val f32FullScale := mul_nonneg hge (by decide)
  have hhi : f32Val v * f32Val f32FullScale ≤ f32Val f32FullScale * unitScale := by
    rw [mul_comm]; exact mul_le_mul_of_nonneg_left hle (by decide)
  rw [f32Val_mul] at hlo hhi
  rw [f32Mul_of_finite hfinv (by decide)]
  have hfin := f32OfUnits_finite (f32Sign v != f32Sign f32FullScale) (num := f32Mag v * f32Mag f32FullScale) hpos (by
    rw [show f32Mag f32FullScale = 32767 * unitScale by decide]
    have hmag := natAbs_f32Val v
    unfold unitScale at *
    omega)
  refine ⟨hfin, ?_, ?_⟩
  · exact le_f32OfUnits (y := 0#32) hpos hfin (by rwa [f32Val_zero, zero_mul])
  · rw [← hscale]; exact f32OfUnits_le hpos hfin hhi

/-- Settles O25: on [0, 1] the rounded product is between 0 and 32767, where the clamp is idle. -/
theorem quantisedTargetsOfTheUnitRange : Obligations.QuantisedTargetsOfTheUnitRange := by
  intro v q hq
  subst hq
  obtain ⟨hpos, hneg⟩ := f32RoundHalfAway_brackets (f32Mul v f32FullScale)
  refine ⟨fun hfin => ⟨_, hpos, hneg, quantise_toInt hfin⟩, fun h0 h1 => ?_⟩
  obtain ⟨hfin, hge, hle⟩ := f32Mul_fullScale_range h0 h1
  have hbrackets := hpos hge
  have hrange : 0 ≤ f32RoundHalfAway (f32Mul v f32FullScale) ∧ f32RoundHalfAway (f32Mul v f32FullScale) ≤ 32767 := by
    unfold unitScale at *; omega
  have hidle : (quantise v).toInt = f32RoundHalfAway (f32Mul v f32FullScale) := by
    rw [quantise_toInt hfin]; omega
  rw [hidle]
  exact ⟨hfin, hrange.1, hrange.2, hbrackets⟩

/-! ## The bin update (R175 to R178, R185) -/

/-- A peak that leaves the count at STABILITY_COUNT or below (R176). -/
theorem binUpdate_debouncing (h : (b.stabilityCount + 1#32).toNat ≤ p.stabilityCount.toNat) :
    binUpdate p b m true =
      { b with
        isPeak := true
        envelopePhase := classify p (f32Sub m b.lastMagnitude)
        stabilityCount := b.stabilityCount + 1#32 } :=
  if_neg (Nat.not_lt.mpr h)

/-- A peak that takes the count past STABILITY_COUNT (R177). -/
theorem binUpdate_stable (h : p.stabilityCount.toNat < (b.stabilityCount + 1#32).toNat) :
    binUpdate p b m true =
      { b with
        isPeak := true
        envelopePhase := classify p (f32Sub m b.lastMagnitude)
        stabilityCount := b.stabilityCount + 1#32
        gate := true
        targetAmplitude := quantise (f32Min1 (f32Mul (blend p m b.lastMagnitude) p.outputGain))
        lastMagnitude := blend p m b.lastMagnitude } :=
  if_pos h

/-- What a peak writes whether stable or not (R176). -/
theorem binUpdate_peak : (binUpdate p b m true).isPeak = true ∧
    (binUpdate p b m true).envelopePhase = classify p (f32Sub m b.lastMagnitude) ∧
    (binUpdate p b m true).stabilityCount = b.stabilityCount + 1#32 := by
  rcases Nat.lt_or_ge p.stabilityCount.toNat (b.stabilityCount + 1#32).toNat with h | h
  · rw [binUpdate_stable h]
    exact ⟨rfl, rfl, rfl⟩
  · rw [binUpdate_debouncing h]
    exact ⟨rfl, rfl, rfl⟩

/-- Settles O22: the count after the peak tells the branch. -/
theorem binUpdateFollowsTheDebounceBranches : Obligations.BinUpdateFollowsTheDebounceBranches := by
  intro p b m sm v hsm hv
  subst hsm hv
  obtain ⟨hpeak, hphase, hcount⟩ := binUpdate_peak (p := p) (b := b) (m := m)
  have hadd : (b.stabilityCount + 1#32).toNat = (b.stabilityCount.toNat + 1) % 2 ^ 32 := BitVec.toNat_add _ _
  rw [hcount, ← hadd]
  refine ⟨rfl, hpeak, hphase, rfl, fun h => ?_, fun h => ?_, binUpdate_frame p b m⟩
  · rw [binUpdate_debouncing h]
    exact ⟨rfl, rfl, rfl⟩
  · rw [binUpdate_stable h]
    exact ⟨rfl, rfl, rfl⟩

/-- The count and the gate of a closed bin after one peak for each magnitude (R185). -/
theorem foldl_peaks_count_gate (hcount : b.stabilityCount = 0#32) (hgate : b.gate = false)
    (hlen : mags.length < 2 ^ 32) :
    (mags.foldl (fun b m => binUpdate p b m true) b).stabilityCount.toNat = mags.length ∧
      ((mags.foldl (fun b m => binUpdate p b m true) b).gate = true ↔ p.stabilityCount.toNat < mags.length) := by
  induction mags using List.reverseRecOn with
  | nil => simp [hcount, hgate]
  | append_singleton mags m ih =>
    rw [List.length_append, List.length_singleton] at *
    obtain ⟨ihcount, ihgate⟩ := ih (by omega)
    rw [List.foldl_concat]
    generalize mags.foldl (fun b m => binUpdate p b m true) b = c at *
    have hadd : (c.stabilityCount + 1#32).toNat = mags.length + 1 := by
      rw [BitVec.toNat_add, ihcount]
      exact Nat.mod_eq_of_lt hlen
    obtain ⟨-, -, hnext⟩ := binUpdate_peak (p := p) (b := c) (m := m)
    refine ⟨by rw [hnext, hadd], ?_⟩
    rcases Nat.lt_or_ge p.stabilityCount.toNat (c.stabilityCount + 1#32).toNat with h | h
    · rw [binUpdate_stable h]
      simp only [true_iff]
      omega
    · rw [binUpdate_debouncing h]
      simp only [ihgate]
      omega

/-- Settles O23. -/
theorem gateOpensAfterStabilityCountCycles : Obligations.GateOpensAfterStabilityCountCycles := by
  intro p b mags hcount hgate hlen
  obtain ⟨hcount', hgate'⟩ := foldl_peaks_count_gate (p := p) hcount hgate hlen
  exact ⟨hcount', hgate', fun m => ⟨rfl, rfl⟩⟩

end Sys2Proof.Machine
end

section
/-!
PROOFS. The two operations that write every bin at once: AN_COMPUTE (spec/41_analysis.md R160) and INIT
(spec/44_control.md R251).
-/

namespace Sys2Proof.Machine

variable {s : State}

/-- As many samples enter the window as leave it. -/
theorem slideAppend_length (hs : Shape s) :
    (slideAppend s.cfg.params s.win s.stage).length = s.cfg.params.fftSize := by
  obtain ⟨-, hhop⟩ := s.cfg.valid.hopSize
  rw [slideAppend, List.length_append, List.length_drop, List.length_map, hs.win, hs.stage]
  omega

/-- Settles O14: the window is the old one past HOP_SIZE, then the normalised block. -/
theorem anComputeRunsOneAnalysisCycle : Obligations.AnComputeRunsOneAnalysisCycle := by
  intro s hs
  refine ⟨fun hrun hpc => ?_, fun h => exec_refused (mt enabled_anCompute.mp h)⟩
  have hdrop : (s.win.drop s.cfg.params.hopSize).length = s.cfg.params.fftSize - s.cfg.params.hopSize := by
    rw [List.length_drop, hs.win]
  refine ⟨_, execAnCompute_next.mpr ⟨⟨hrun, hpc⟩, rfl⟩, rfl, slideAppend_length hs, fun n hn => ?_, fun j hj => ?_,
    magnitudes_length _ _, fun k => ?_, rfl, fun _ => rfl⟩
  · rw [slideAppend, List.getElem?_append_left (by rwa [hdrop]), List.getElem?_drop, Nat.add_comm]
  · rw [slideAppend, List.getElem?_append_right (by omega), hdrop, Nat.add_sub_cancel_left, List.getElem?_map]
  · rw [updateBins, List.getElem?_mapIdx]

/-- Settles O38. -/
theorem initFixesTheIncrementsAndTheGuardRadius : Obligations.InitFixesTheIncrementsAndTheGuardRadius := by
  intro s
  refine ⟨fun hmode hpc => ⟨?_, execInit_next.mpr ⟨⟨hmode, hpc⟩, .inr ⟨rfl, rfl⟩⟩⟩,
    fun h ok => exec_refused (mt enabled_init.mp h)⟩
  refine ⟨_, execInit_next.mpr ⟨⟨hmode, hpc⟩, .inl ⟨rfl, rfl⟩⟩, rfl, rfl, fun k => ?_, fun hfits => ?_, rfl,
    fun _ => rfl⟩
  · exact List.getElem?_mapIdx
  · have hguard : guardRadius s.cfg.params = BitVec.ofNat 32 (exactGuardRadius s.cfg.params) := if_pos hfits
    rw [hguard]
    exact Nat.mod_eq_of_lt hfits

end Sys2Proof.Machine
end

section
/-!
PROOFS. The synthesis engine (spec/42_synthesis.md): the table index (R204, R214), the limiter (R210), what the bin loop
leaves in the mix and in each bin (R201 to R209, R213), and SYN_FILL (R211, R215).
-/

namespace Sys2Proof.Machine

/-! ## The table index (R204, R214) -/

/-- The top bits of a phase as one division, for no bits too: a phase is below 2^32. -/
theorem tableIndex_eq_div (ph : Word) {tb : Nat} (htb : tb ≤ 32) :
    tableIndex ph tb = ph.toNat / 2 ^ (32 - tb) := by
  unfold tableIndex
  split
  next h => rw [h, Nat.div_eq_of_lt ph.isLt]
  next => exact Nat.mod_eq_of_lt (Nat.div_lt_of_lt_mul (by rw [← pow_add, Nat.sub_add_cancel htb]; exact ph.isLt))

theorem tableIndex_lt (ph : Word) (tb : Nat) : tableIndex ph tb < 2 ^ tb := by
  unfold tableIndex
  split
  next => positivity
  next => exact Nat.mod_lt _ (by positivity)

/-- Settles O28: the division keeps the bits from 32 − TBITS up. -/
theorem tableIndexStaysInsideTheTable : Obligations.TableIndexStaysInsideTheTable := by
  intro ph tb htb
  refine ⟨tableIndex_lt ph tb, fun i _ => ?_⟩
  rw [tableIndex_eq_div ph (by omega), Nat.testBit_div_two_pow, Nat.add_comm]
  rfl

theorem tbits_le (waveCfg : Word) : tbits waveCfg ≤ 32 := by
  have h := (waveCfg.extractLsb' 0 5).isLt
  unfold tbits
  omega

/-! ## The limiter (R210) -/

theorem limit_toInt (v : Word) : (limit v).toInt = max (-32768) (min v.toInt 32767) := by
  rw [limit, clamp_eq_max_min (by decide)]
  exact BitVec.toInt_ofInt_eq_self (by decide) (by omega) (by omega)

/-- Settles O29: `max` and `min` are monotonic. -/
theorem limiterClampsAndIsMonotonic : Obligations.LimiterClampsAndIsMonotonic := by
  refine ⟨limit_toInt, fun u v huv => ?_⟩
  rw [limit_toInt, limit_toInt]
  exact max_le_max_left _ (min_le_min_right _ huv)

theorem limit_zero : limit 0#32 = 0#16 := by decide

/-! ## One bin's part in a block

A bin's lane reads the bin as it was at the start of the block, and no mix cell: the state after `n` samples and the
contribution to each sample are functions of that bin alone. -/

section
variable (p : Params) (wave : Memory) (bs : BitVec 27) (tb : Nat)

/-- The follower of a bin after `n` samples (R203). -/
def followerAfter (x : Bin) (n : Nat) : F32 := (fun a => follow p a x.targetAmplitude)^[n] x.smoothedAmplitude

/-- The phase of a bin after `n` samples (R208). -/
def phaseAfter (x : Bin) (n : Nat) : Word := x.phaseAccumulator + BitVec.ofNat 32 n * x.phaseIncrement

/-- What an active bin adds to sample `i` (R204 to R206). -/
def sampleContribution (i : Nat) (x : Bin) : Int :=
  contribution p (waveRead wave (waveAddress bs (tableIndex (phaseAfter x i) tb))) (followerAfter p x (i + 1))

/-- A bin after `n` samples: advanced if active, else untouched (R209, R213). -/
def binAfter (n : Nat) (x : Bin) : Bin :=
  if binActive p x then { x with phaseAccumulator := phaseAfter x n, smoothedAmplitude := followerAfter p x n } else x

/-- The sum of what the active bins add to sample `i` (R207). -/
def mixSum (bins : List Bin) (i : Nat) : Int :=
  ((bins.filter (binActive p)).map (sampleContribution p wave bs tb i)).sum

variable {p} {b : Bin}

theorem synBins_cons_active (h : binActive p b = true) (bins : List Bin) (mix : List Word) :
    synBins p wave bs tb (b :: bins) mix =
      let lane := synLane p wave bs tb b.targetAmplitude b.phaseIncrement mix b.smoothedAmplitude b.phaseAccumulator
      ({ b with smoothedAmplitude := lane.2.1, phaseAccumulator := lane.2.2 } ::
        (synBins p wave bs tb bins lane.1).1, (synBins p wave bs tb bins lane.1).2) := by
  rw [synBins, if_pos h]

theorem synBins_cons_inactive (h : binActive p b = false) (bins : List Bin) (mix : List Word) :
    synBins p wave bs tb (b :: bins) mix =
      (b :: (synBins p wave bs tb bins mix).1, (synBins p wave bs tb bins mix).2) := by
  rw [synBins, if_neg (Bool.eq_false_iff.mp h)]

theorem mixSum_cons_active (h : binActive p b = true) (bins : List Bin) (i : Nat) :
    mixSum p wave bs tb (b :: bins) i = sampleContribution p wave bs tb i b + mixSum p wave bs tb bins i := by
  rw [mixSum, List.filter_cons_of_pos h, List.map_cons, List.sum_cons, mixSum]

theorem mixSum_cons_inactive (h : binActive p b = false) (bins : List Bin) (i : Nat) :
    mixSum p wave bs tb (b :: bins) i = mixSum p wave bs tb bins i := by
  rw [mixSum, List.filter_cons_of_neg (Bool.eq_false_iff.mp h), mixSum]

variable (p)

/-! ## The bin loop (R201) -/

/-- The bins after the loop, each by itself (R209). -/
theorem synBins_fst (bins : List Bin) (mix : List Word) :
    (synBins p wave bs tb bins mix).1 = bins.map (binAfter p mix.length) := by
  induction bins generalizing mix with
  | nil => rfl
  | cons b bins ih =>
    cases h : binActive p b with
    | true =>
      rw [synBins_cons_active wave bs tb h, List.map_cons, binAfter, if_pos h]
      simp only [ih, synLane_length, synLane_snd]
      rfl
    | false =>
      rw [synBins_cons_inactive wave bs tb h, List.map_cons, binAfter, if_neg (Bool.eq_false_iff.mp h)]
      simp only [ih]

/-- The mix after the loop: every cell has gained the wrapped sum over the active bins (R207). -/
theorem synBins_snd_getElem? (bins : List Bin) (mix : List Word) (i : Nat) :
    (synBins p wave bs tb bins mix).2[i]? = (mix[i]?).map fun m =>
      wrapI32 (m.toInt + mixSum p wave bs tb bins i) := by
  induction bins generalizing mix with
  | nil => simp [synBins, mixSum, wrapI32]
  | cons b bins ih =>
    cases h : binActive p b with
    | true =>
      rw [synBins_cons_active wave bs tb h, mixSum_cons_active wave bs tb h]
      dsimp only
      rw [ih, synLane_fst p wave bs tb _ _ _ (fun _ => rfl), Option.map_map]
      congr 1
      funext m
      exact wrapI32_add _ _ _
    | false => rw [synBins_cons_inactive wave bs tb h, ih, mixSum_cons_inactive wave bs tb h]

variable {p}

theorem mixSum_perm {bins bins' : List Bin} (h : bins.Perm bins') (i : Nat) :
    mixSum p wave bs tb bins i = mixSum p wave bs tb bins' i :=
  ((h.filter _).map _).sum_eq

/-- Bins none of which is active change neither the mix nor themselves (R213, R215). -/
theorem synBins_of_inactive {bins : List Bin} (h : ∀ x ∈ bins, binActive p x = false) (mix : List Word) :
    synBins p wave bs tb bins mix = (bins, mix) := by
  induction bins with
  | nil => rfl
  | cons b bins ih =>
    rw [synBins_cons_inactive wave bs tb (h b List.mem_cons_self), ih fun x hx => h x (List.mem_cons_of_mem b hx)]

end

/-- Settles O27: each cell is a wrapped sum, and a sum does not depend on the order of its terms. -/
theorem binOrderDoesNotChangeTheMix : Obligations.BinOrderDoesNotChangeTheMix := by
  intro p wave bs tb bins bins' mix h
  refine List.ext_getElem? fun i => ?_
  rw [synBins_snd_getElem?, synBins_snd_getElem?, mixSum_perm wave bs tb h]

/-! ## SYN_FILL (R201, R211, R215) -/

/-- A closed gate and a follower below the audible floor make a bin inactive (R202). -/
theorem binActive_eq_false {p : Params} {x : Bin} (hgate : x.gate = false)
    (hbelow : f32Lt x.smoothedAmplitude p.audibleFloor = true) : binActive p x = false := by
  refine Bool.or_eq_false_iff.mpr ⟨hgate, Bool.eq_false_iff.mpr fun hge => ?_⟩
  obtain ⟨-, -, hle⟩ := f32Le_iff.mp hge
  exact hle.not_gt (f32Val_lt_of_f32Lt hbelow)

theorem stereoBlock_replicate_zero (n : Nat) :
    stereoBlock (List.replicate n 0#32) = List.replicate (2 * n) 0#16 := by
  rw [List.eq_replicate_iff, stereoBlock_length, List.length_replicate]
  refine ⟨rfl, fun w hw => ?_⟩
  obtain ⟨v, hv, hw⟩ := List.mem_flatMap.mp hw
  rw [List.eq_of_mem_replicate hv, limit_zero] at hw
  simpa using hw

/-- Settles O30: no bin is active, so the loop leaves the mix of zeros and every bin as they were. -/
theorem silenceGivesAnAllZeroBlock : Obligations.SilenceGivesAnAllZeroBlock := by
  intro s b hrun hpc hcur hsilent
  have hinactive : ∀ x ∈ s.bins, binActive s.cfg.params x = false := fun x hx => by
    obtain ⟨hgate, hbelow⟩ := hsilent x hx
    exact binActive_eq_false hgate hbelow
  refine ⟨_, execSynFill_next.mpr ⟨⟨hrun, hpc⟩, b, hcur, rfl⟩, ?_⟩
  simp [synBins_of_inactive s.wave (base s.waveCfg) (tbits s.waveCfg) hinactive, stereoBlock_replicate_zero]

/-- The table entry a phase reads, its two bytes low byte first (R204, R82; log entry 6). -/
theorem waveRead_tableIndex (wave : Memory) (waveCfg ph : Word) :
    waveRead wave (waveAddress (base waveCfg) (tableIndex ph (tbits waveCfg))) =
      let a := ((base waveCfg).toNat + ph.toNat / 2 ^ (32 - tbits waveCfg)) % 2 ^ 27
      wave.read (2 * a + 1) ++ wave.read (2 * a) := by
  rw [waveRead, waveAddress, BitVec.toNat_ofNat, tableIndex_eq_div ph (tbits_le waveCfg)]

/-- Settles O26: the loop's cells and bins by `synBins_snd_getElem?` and `synBins_fst`, from a mix of zeros. -/
theorem synFillMixesTheActiveBins : Obligations.SynFillMixesTheActiveBins := by
  intro s active follower phase address entry contributed
  refine ⟨fun b hcur hrun hpc => ?_, fun h => exec_refused (mt enabled_synFill.mp h)⟩
  obtain ⟨-, hmix⟩ := synBins_length s.cfg.params s.wave (base s.waveCfg) (tbits s.waveCfg) s.bins
    (List.replicate s.cfg.params.blockLen 0#32)
  rw [List.length_replicate] at hmix
  have hcontributed : ∀ i, contributed i =
      sampleContribution s.cfg.params s.wave (base s.waveCfg) (tbits s.waveCfg) i := by
    intro i
    funext x
    rw [sampleContribution, waveRead_tableIndex]
    rfl
  refine ⟨_, execSynFill_next.mpr ⟨⟨hrun, hpc⟩, b, hcur, rfl⟩, rfl, hmix, fun i hi => ?_, fun k => ?_, ?_,
    fun i _ => ?_, fun c hc => ?_, rfl, fun _ => rfl⟩
  · rw [synBins_snd_getElem?, List.getElem?_replicate_of_lt hi, Option.map_some, hcontributed, BitVec.toInt_zero,
      zero_add]
    rfl
  · rw [synBins_fst, List.getElem?_map, List.length_replicate]
    rfl
  · rw [Three.get_set, if_pos rfl, stereoBlock_length, hmix]
  · rw [Three.get_set, if_pos rfl]
    exact stereoBlock_getElem? _ i
  · rw [Three.get_set, if_neg hc]

end Sys2Proof.Machine
end

section
/-!
PROOFS. The output buffer pool (spec/43_pool_output.md): the four operations POOL_ACQUIRE, POOL_RELEASE, OUT_TAKE and
OUT_DONE (R231 to R234), and the pool bound (R236) by the set of buffers that are not FREE.
-/

namespace Sys2Proof.Machine

variable {s t u : State} {i : Instr} {ops : List Instr} {p : Three BufState} {b : BufId} {v : BufState} {k : Nat}

/-! ## The four operations -/

/-- Settles O31: `firstFree` is the FREE buffer of least index, or none. -/
theorem poolAcquireTakesTheLeastFreeBuffer : Obligations.PoolAcquireTakesTheLeastFreeBuffer := by
  intro s
  refine ⟨fun hrun hpc => ⟨fun b hb hleast => ?_, fun hnone => ?_⟩, fun h => exec_refused (mt enabled_poolAcquire.mp h)⟩
  · have hfree : firstFree s.pstate = some b := firstFree_eq_some.mpr ⟨hb, hleast⟩
    exact ⟨_, execPoolAcquire_next.mpr ⟨⟨hrun, hpc⟩, .inl ⟨b, hfree, rfl⟩⟩, rfl, rfl, fun c => Three.get_set _ b c _,
      rfl, fun _ => rfl⟩
  · exact execPoolAcquire_next.mpr ⟨⟨hrun, hpc⟩, .inr ⟨firstFree_eq_none.mpr hnone, rfl⟩⟩

/-- Settles O32: the one branch of R232. -/
theorem poolReleaseQueuesTheFilledBuffer : Obligations.PoolReleaseQueuesTheFilledBuffer := by
  intro s b hcur
  refine ⟨fun hrun hpc => ?_, fun h => exec_refused (mt enabled_poolRelease.mp h)⟩
  exact ⟨_, execPoolRelease_next.mpr ⟨⟨hrun, hpc⟩, b, hcur, rfl⟩, rfl, rfl, rfl, fun c => Three.get_set _ b c _,
    rfl, fun _ => rfl⟩

/-- Settles O33: the one branch of R233. -/
theorem outTakePlaysTheOldestQueuedBuffer : Obligations.OutTakePlaysTheOldestQueuedBuffer := by
  intro s
  refine ⟨fun b rest hrun hplaying hqueue => ?_, fun h => exec_refused (mt enabled_outTake.mp h)⟩
  exact ⟨_, execOutTake_next.mpr ⟨⟨hrun, hplaying⟩, b, rest, hqueue, rfl⟩, rfl, rfl, fun c => Three.get_set _ b c _,
    rfl, fun _ => rfl⟩

/-- Settles O34: the one branch of R234. -/
theorem outDoneLogsAndFreesThePlayingBuffer : Obligations.OutDoneLogsAndFreesThePlayingBuffer := by
  intro s
  refine ⟨fun b hrun hplaying => ?_, fun h => exec_refused (mt enabled_outDone.mp h)⟩
  exact ⟨_, execOutDone_next.mpr ⟨hrun, b, hplaying, rfl⟩, rfl, rfl, fun c => Three.get_set _ b c _, rfl, fun _ => rfl⟩

/-! ## The buffers that are not FREE -/

/-- The buffers out of the free pool (R50). -/
def takenBufs (p : Three BufState) : Finset BufId := {b | p.get b ≠ .free}

theorem mem_takenBufs : b ∈ takenBufs p ↔ p.get b ≠ .free := by simp [takenBufs]

theorem takenBufs_eq_empty (h : ∀ b, p.get b = .free) : takenBufs p = ∅ := by
  ext b
  simp [mem_takenBufs, h b]

theorem takenBufs_set_free (p : Three BufState) (b : BufId) : takenBufs (p.set b .free) = (takenBufs p).erase b := by
  ext c
  by_cases hc : c = b <;> simp [mem_takenBufs, hc]

theorem takenBufs_set_taken (p : Three BufState) (b : BufId) (hv : v ≠ .free) :
    takenBufs (p.set b v) = insert b (takenBufs p) := by
  ext c
  by_cases hc : c = b <;> simp [mem_takenBufs, hc, hv]

/-- A buffer that moves between two states other than FREE stays out of the pool. -/
theorem takenBufs_set_of_taken (hb : p.get b ≠ .free) (hv : v ≠ .free) : takenBufs (p.set b v) = takenBufs p := by
  rw [takenBufs_set_taken p b hv, Finset.insert_eq_of_mem (mem_takenBufs.mpr hb)]

theorem notMem_takenBufs_of_firstFree (h : firstFree p = some b) : b ∉ takenBufs p := by
  obtain ⟨hb, _⟩ := firstFree_eq_some.mp h
  exact fun hmem => mem_takenBufs.mp hmem hb

/-- The buffer obtained, or none, is `CUR_BUF`, and it leaves the pool (R231). -/
theorem takenBufs_of_poolAcquire (h : exec .poolAcquire s = .next t) :
    t.curBuf = firstFree s.pstate ∧ takenBufs t.pstate = t.curBuf.toFinset ∪ takenBufs s.pstate := by
  cases effect_of_exec h with
  | poolAcquireGranted b _ _ hfree => exact ⟨hfree.symm, takenBufs_set_taken _ b (by decide)⟩
  | poolAcquireSkipped _ _ hfree => exact ⟨hfree.symm, (Finset.empty_union _).symm⟩

/-- OUT_DONE returns one buffer to the pool (R234). -/
theorem takenBufs_of_outDone (hs : PoolOk s) (h : exec .outDone s = .next t) :
    ∃ b ∈ takenBufs s.pstate, takenBufs t.pstate = (takenBufs s.pstate).erase b := by
  cases effect_of_exec h with
  | outDone b _ hplaying =>
    have hb := (hs.playing b).mp hplaying
    exact ⟨b, mem_takenBufs.mpr (by simp [hb]), takenBufs_set_free _ b⟩

/-- Between its acquire and its OUT_DONE a buffer stays out of the pool (R232, R233), and no other operation but RESET
moves one. -/
theorem takenBufs_of_other (hacquire : i ≠ .poolAcquire) (hdone : i ≠ .outDone) (hreset : i ≠ .reset) (hs : PoolOk s)
    (h : exec i s = .next t) : takenBufs t.pstate = takenBufs s.pstate := by
  cases effect_of_exec h with
  | poolAcquireGranted | poolAcquireSkipped => exact absurd rfl hacquire
  | outDone => exact absurd rfl hdone
  | reset => exact absurd rfl hreset
  | poolRelease b _ _ hcur =>
    have hb := (hs.filling b).mp hcur
    exact takenBufs_set_of_taken (by simp [hb]) (by decide)
  | outTake b _ _ _ hqueue =>
    have hb := (hs.queued b).mp (by simp [hqueue])
    exact takenBufs_set_of_taken (by simp [hb]) (by decide)
  | _ => rfl

/-! ## Runs of the pool -/

/-- A run that begins with an operation. -/
theorem runOps_cons : runOps (i :: ops) s = .next u ↔ ∃ t, exec i s = .next t ∧ runOps ops t = .next u := by
  rw [runOps]
  cases exec i s <;> simp

theorem grantedAcquires_cons (h : exec i s = .next t) :
    grantedAcquires (i :: ops) s =
      (if i = .poolAcquire ∧ t.curBuf ≠ none then 1 else 0) + grantedAcquires ops t := by
  rw [grantedAcquires, h]

/-- One operation: what is freed and what is out is what was out and what is granted. -/
theorem freed_add_taken_of_exec (hreset : i ≠ .reset) (hs : PoolOk s) (h : exec i s = .next t) :
    (if i = .outDone then 1 else 0) + (takenBufs t.pstate).card =
      (takenBufs s.pstate).card + if i = .poolAcquire ∧ t.curBuf ≠ none then 1 else 0 := by
  by_cases hacquire : i = .poolAcquire
  · subst hacquire
    obtain ⟨hcur, htaken⟩ := takenBufs_of_poolAcquire h
    cases hfree : firstFree s.pstate with
    | none => simp [htaken, hcur, hfree]
    | some b =>
      have hb := notMem_takenBufs_of_firstFree hfree
      simp [htaken, hcur, hfree, Finset.card_insert_of_notMem hb]
  by_cases hdone : i = .outDone
  · subst hdone
    obtain ⟨b, hb, htaken⟩ := takenBufs_of_outDone hs h
    simp [htaken, add_comm 1, Finset.card_erase_add_one hb]
  · simp [takenBufs_of_other hacquire hdone hreset hs h, hacquire, hdone]

/-- A run without RESET: blocks played and buffers out add up to the buffers out before and the acquires granted. -/
theorem played_add_taken_of_runOps (hreset : Instr.reset ∉ ops) (hs : PoolOk s) (h : runOps ops s = .next t) :
    ops.count .outDone + (takenBufs t.pstate).card = (takenBufs s.pstate).card + grantedAcquires ops s := by
  induction ops generalizing s with
  | nil =>
    cases h
    simp [grantedAcquires]
  | cons i ops ih =>
    obtain ⟨u, hi, hops⟩ := runOps_cons.mp h
    rw [List.mem_cons, not_or] at hreset
    obtain ⟨hne, hreset⟩ := hreset
    have hstep := freed_add_taken_of_exec (Ne.symm hne) hs hi
    have hrest := ih hreset (exec_keeps_poolOk hs hi) hops
    simp only [List.count_cons, beq_iff_eq, grantedAcquires_cons hi]
    omega

/-- Settles O37: all buffers are FREE at power-on, so the acquires granted are the blocks played and the buffers out, of
which there are at most three. -/
theorem productionRunsAtMostThreeBlocksAhead : Obligations.ProductionRunsAtMostThreeBlocksAhead := by
  intro cfg wave ops t hwave hreset h
  have hbalance := played_add_taken_of_runOps hreset (inv_powerOn cfg hwave).pool h
  have hfree : ∀ b, (State.powerOn cfg wave).pstate.get b = .free := by
    rw [State.powerOn_pstate]
    decide
  rw [takenBufs_eq_empty hfree, Finset.card_empty] at hbalance
  have hbound : (takenBufs t.pstate).card ≤ 3 := Finset.card_le_univ _
  omega

/-! ## Acquires with no OUT_DONE -/

/-- The first `k` buffers (all three from `k = 3` on). -/
def firstBufs (k : Nat) : Finset BufId := {b | b.val < k}

theorem mem_firstBufs : b ∈ firstBufs k ↔ b.val < k := by simp [firstBufs]

/-- Buffer `k`, if there is one, as the `k`-th entry of the list of buffers. -/
theorem buf_eq_getD (k : Nat) :
    (if hk : k < 3 then some ⟨k, hk⟩ else none : Option BufId) = [some 0, some 1, some 2].getD k none := by
  match k with
  | 0 | 1 | 2 | _ + 3 => rfl

/-- With the first `k` buffers out of the pool, the least FREE one is buffer `k`, if there is one. -/
theorem firstFree_of_takenBufs (h : takenBufs p = firstBufs k) :
    firstFree p = if hk : k < 3 then some ⟨k, hk⟩ else none := by
  have htaken : ∀ c, p.get c ≠ .free ↔ c.val < k := fun c => by rw [← mem_takenBufs, h, mem_firstBufs]
  split
  next hk => exact firstFree_eq_some.mpr ⟨not_not.mp (mt (htaken ⟨k, hk⟩).mp (lt_irrefl k)), fun c => (htaken c).mpr⟩
  next hk => exact firstFree_eq_none.mpr fun c => (htaken c).mpr (c.isLt.trans_le (not_lt.mp hk))

/-- One operation other than OUT_DONE and RESET takes the next buffer if it is an acquire, and else none. -/
theorem takenBufs_firstBufs_of_exec (hdone : i ≠ .outDone) (hreset : i ≠ .reset) (hs : PoolOk s)
    (htaken : takenBufs s.pstate = firstBufs k) (h : exec i s = .next t) :
    takenBufs t.pstate = firstBufs (k + if i = .poolAcquire then 1 else 0) := by
  by_cases hacquire : i = .poolAcquire
  · subst hacquire
    obtain ⟨hcur, htaken'⟩ := takenBufs_of_poolAcquire h
    rw [htaken', hcur, firstFree_of_takenBufs htaken, htaken, if_pos rfl]
    ext c
    rw [Finset.mem_union, mem_firstBufs, mem_firstBufs]
    split
    next hk =>
      simp only [Option.toFinset_some, Finset.mem_singleton, Fin.ext_iff]
      omega
    next hk =>
      rw [Option.toFinset_none, or_iff_right (Finset.notMem_empty c)]
      omega
  · rw [takenBufs_of_other hacquire hdone hreset hs h, htaken, if_neg hacquire, add_zero]

/-- A run with no OUT_DONE and no RESET takes the buffers in order, one an acquire. -/
theorem takenBufs_firstBufs_of_runOps (hdone : Instr.outDone ∉ ops) (hreset : Instr.reset ∉ ops) (hs : PoolOk s)
    (htaken : takenBufs s.pstate = firstBufs k) (h : runOps ops s = .next t) :
    takenBufs t.pstate = firstBufs (k + ops.count .poolAcquire) := by
  induction ops generalizing s k with
  | nil =>
    cases h
    exact htaken
  | cons i ops ih =>
    obtain ⟨u, hi, hops⟩ := runOps_cons.mp h
    rw [List.mem_cons, not_or] at hdone hreset
    obtain ⟨hneDone, hdone⟩ := hdone
    obtain ⟨hneReset, hreset⟩ := hreset
    have hstep := takenBufs_firstBufs_of_exec (Ne.symm hneDone) (Ne.symm hneReset) hs htaken hi
    simp only [List.count_cons, beq_iff_eq]
    rw [ih hdone hreset (exec_keeps_poolOk hs hi) hstep hops, add_right_comm, add_assoc]

/-- Settles O36: after `k` acquires the first `k` buffers are out, so the next obtains buffer `k`, or none. -/
theorem threeAcquiresSucceedAndTheFourthFails : Obligations.ThreeAcquiresSucceedAndTheFourthFails := by
  intro s ops t u hreach hfree hdone hreset hrun hacquire
  have hstart : takenBufs s.pstate = firstBufs 0 := takenBufs_eq_empty hfree
  have htaken := takenBufs_firstBufs_of_runOps hdone hreset (inv_of_reachable hreach).pool hstart hrun
  rw [(takenBufs_of_poolAcquire hacquire).1, firstFree_of_takenBufs htaken, zero_add, buf_eq_getD]

end Sys2Proof.Machine
end

section
/-!
PROOFS. Control (spec/44_control.md): which operations a mode enables and which leave it (R250, R253), RESET (R254, R310),
CSR_WRITE (R256), and the return of the microprogram to SEQ_CHECK (R260, R261 d).
-/

namespace Sys2Proof.Machine

variable {s t : State} {i : Instr} {ops : List Instr} {off : BitVec 8} {data : Word}

/-! ## What a mode enables and what leaves it -/

/-- Every operation but the HOST's waits for RUN, or is INIT and waits for INIT. -/
theorem host_or_run_or_init_of_enabled (h : enabled i s = true) :
    i.agent = .host ∨ s.mode = .run ∨ s.mode = .init ∧ ∃ ok, i = .init ok := by
  cases i with
  | acqSample => exact .inr (.inl (enabled_acqSample.mp h).1)
  | acqDone => exact .inr (.inl (enabled_acqDone.mp h).1)
  | seqCheck => exact .inr (.inl (enabled_seqCheck.mp h).1)
  | anIngest => exact .inr (.inl (enabled_anIngest.mp h).1)
  | anCompute => exact .inr (.inl (enabled_anCompute.mp h).1)
  | poolAcquire => exact .inr (.inl (enabled_poolAcquire.mp h).1)
  | synFill => exact .inr (.inl (enabled_synFill.mp h).1)
  | poolRelease => exact .inr (.inl (enabled_poolRelease.mp h).1)
  | outTake => exact .inr (.inl (enabled_outTake.mp h).1)
  | outDone => exact .inr (.inl (enabled_outDone.mp h).1)
  | csrRead | csrWrite | reset => exact .inl rfl
  | init ok => exact .inr (.inr ⟨(enabled_init.mp h).1, ok, rfl⟩)

theorem enabled_of_host (hagent : i.agent = .host) : enabled i s = true := by
  cases i with
  | csrRead | csrWrite | reset => rfl
  | acqSample | acqDone | seqCheck | anIngest | anCompute | poolAcquire | synFill | poolRelease | outTake | outDone
  | init => cases hagent

/-- A HOST operation that has an encoding answers a next state, in every state. -/
theorem exec_host_next (hagent : i.agent = .host) (hwf : i.wf = true) : ∃ t, exec i s = .next t := by
  cases i with
  | csrRead off => exact ⟨_, execCsrRead_next.mpr ⟨hwf, rfl⟩⟩
  | csrWrite off data => exact ⟨_, execCsrWrite_next.mpr ⟨hwf, rfl⟩⟩
  | reset => exact ⟨_, execReset_next.mpr rfl⟩
  | acqSample | acqDone | seqCheck | anIngest | anCompute | poolAcquire | synFill | poolRelease | outTake | outDone
  | init => cases hagent

/-- Once the block has left INIT, only RESET changes the mode. -/
theorem exec_keeps_mode (hreset : i ≠ .reset) (hmode : s.mode ≠ .init) (h : exec i s = .next t) : t.mode = s.mode := by
  cases effect_of_exec h with
  | reset => exact absurd rfl hreset
  | initRuns hinit | initHalts hinit => exact absurd hinit hmode
  | _ => rfl

/-- Settles O45: an enabled operation that is not the HOST's needs RUN or INIT. -/
theorem haltedIsLeftOnlyByReset : Obligations.HaltedIsLeftOnlyByReset := by
  intro s i hhalted
  refine ⟨fun hagent => exec_refused fun henabled => ?_, fun hagent hwf => ?_⟩
  · rcases host_or_run_or_init_of_enabled henabled with hhost | hrun | ⟨hinit, -⟩
    · exact hagent hhost
    · cases hhalted.symm.trans hrun
    · cases hhalted.symm.trans hinit
  · obtain ⟨t, ht⟩ := exec_host_next (s := s) hagent hwf
    exact ⟨t, ht, fun hreset => (exec_keeps_mode hreset (by simp [hhalted]) ht).trans hhalted⟩

theorem statusWord_powerOn (cfg : Config) (wave : Memory) : statusWord (State.powerOn cfg wave) = 0x00000000#32 := by
  simp only [statusWord, State.powerOn_seqPc, State.powerOn_mode, State.powerOn_ovrDrop, State.powerOn_ovrRead,
    State.powerOn_active, State.powerOn_ready]
  decide

theorem poolStateWord_powerOn (cfg : Config) (wave : Memory) :
    poolStateWord (State.powerOn cfg wave) = 0x00000CC0#32 := by
  simp only [poolStateWord, State.powerOn_curBuf, State.powerOn_queue, State.powerOn_playing, State.powerOn_pstate]
  decide

/-- Settles O44: power-on stands at INIT, which enables INIT and what needs no mode. -/
theorem powerOnEnablesOnlyInitAndTheHost : Obligations.PowerOnEnablesOnlyInitAndTheHost := by
  intro cfg wave
  refine ⟨statusWord_powerOn cfg wave, poolStateWord_powerOn cfg wave, rfl, rfl, rfl, fun i =>
    ⟨fun henabled => ?_, ?_⟩⟩
  · rcases host_or_run_or_init_of_enabled henabled with hhost | hrun | ⟨-, hinit⟩
    · exact .inl hhost
    · cases hrun
    · exact .inr hinit
  · rintro (hhost | ⟨ok, rfl⟩)
    · exact enabled_of_host hhost
    · exact enabled_init.mpr ⟨rfl, rfl⟩

/-! ## RESET (R254, R310) -/

/-- Settles O39: RESET's one next state is `resetState`, and the two views read only elements it has from power-on. -/
theorem resetRestoresTheResetValues : Obligations.ResetRestoresTheResetValues := by
  intro s
  refine ⟨resetState s, execReset_next.mpr rfl, rfl, rfl, rfl, rfl, rfl, rfl, rfl, rfl, rfl, rfl, rfl, rfl,
    List.length_replicate, fun b hb => List.eq_of_mem_replicate hb, ?_, rfl, rfl, rfl, rfl, rfl, fun _ => rfl,
    statusWord_powerOn s.cfg s.wave, poolStateWord_powerOn s.cfg s.wave⟩
  rw [resetState_pstate]
  decide

/-! ## CSR_WRITE (R256) -/

theorem offsetAligned_iff_mod : offsetAligned off = true ↔ off.toNat % 4 = 0 := by
  rw [offsetAligned, beq_iff_eq, ← BitVec.toNat_inj, BitVec.extractLsb'_toNat]
  rfl

/-- When a write takes effect, in the terms of R58 and R256. -/
theorem bindsWaveform_iff : csrOffset off = 0x04 ∧ waveCfgLegal data = true ↔
    off = 0x04#8 ∧ (data.extractLsb' 0 5).toNat ≤ 27 :=
  and_congr (BitVec.toNat_inj (y := 0x04#8)) decide_eq_true_iff

theorem exec_csr_misaligned (hoff : offsetAligned off = false) :
    exec (.csrRead off) s = .refused (.misalignedOffset off) ∧
      exec (.csrWrite off data) s = .refused (.misalignedOffset off) := by
  simp [exec, execCsrRead, execCsrWrite, hoff, whenEnabled]

/-- Settles O42: the three clauses are the three branches of R256 and R84. -/
theorem csrWriteBindsOnlyALegalWaveform : Obligations.CsrWriteBindsOnlyALegalWaveform := by
  intro s off data
  refine ⟨fun hoff htbits => ?_, fun hoff hnot => ?_, fun hoff => ?_⟩
  · have hbinds := bindsWaveform_iff.mpr ⟨hoff, htbits⟩
    exact execCsrWrite_next.mpr ⟨by rw [hoff]; rfl, by rw [if_pos hbinds]⟩
  · have hignored := mt bindsWaveform_iff.mp hnot
    exact execCsrWrite_next.mpr ⟨offsetAligned_iff_mod.mpr hoff, by rw [if_neg hignored]⟩
  · exact exec_csr_misaligned (Bool.eq_false_iff.mpr (mt offsetAligned_iff_mod.mp hoff))

/-! ## The loop of the microprogram (R260, R261 d) -/

/-- The most operations SEQ can take in RUN before its next SEQ_CHECK. -/
def opsBeforeCheck (s : State) : Nat :=
  match s.seqPc with
  | .init | .check => 0
  | .release => 1
  | .fill => 2
  | .acquire => 3
  | .compute => 4
  | .ingest => s.cfg.params.hopSize - s.ingestPtr + 4

theorem opsBeforeCheck_le (s : State) : opsBeforeCheck s ≤ s.cfg.params.hopSize + 4 := by
  unfold opsBeforeCheck
  split <;> omega

/-- What the other agents do in between does not move SEQ. -/
theorem opsBeforeCheck_of_not_seq (hreset : i ≠ .reset) (hagent : i.agent ≠ .seq) (h : exec i s = .next t) :
    opsBeforeCheck t = opsBeforeCheck s := by
  cases effect_of_exec h with
  | reset => exact absurd rfl hreset
  | acqSample | acqDone | outTake | outDone | csrRead | csrWriteBinds | csrWriteIgnored => rfl
  | _ => exact absurd rfl hagent

/-- Each operation of SEQ but SEQ_CHECK brings the next SEQ_CHECK nearer. -/
theorem opsBeforeCheck_lt_of_seq (hs : PointersOk s) (hrun : s.mode = .run) (hcheck : i ≠ .seqCheck)
    (hagent : i.agent = .seq) (h : exec i s = .next t) : opsBeforeCheck t < opsBeforeCheck s := by
  cases effect_of_exec h with
  | seqCheckTaken | seqCheckSkipped => exact absurd rfl hcheck
  | anIngest _ _ hpc =>
    have hptr := hs.ingest hpc
    by_cases hlast : s.ingestPtr + 1 = s.cfg.params.hopSize
    · simp only [opsBeforeCheck, hpc, if_pos hlast]
      omega
    · simp only [opsBeforeCheck, hpc, if_neg hlast]
      omega
  | anCompute _ _ hpc | poolAcquireGranted _ _ hpc | poolAcquireSkipped _ hpc | synFill _ _ _ hpc
  | poolRelease _ _ hpc => simp [opsBeforeCheck, hpc]
  | initRuns hinit | initHalts hinit => cases hrun.symm.trans hinit
  | acqSample | acqDone | outTake | outDone | csrRead | csrWriteBinds | csrWriteIgnored | reset => cases hagent

/-- A run in RUN with neither RESET nor SEQ_CHECK takes no more operations of SEQ than stand before the next SEQ_CHECK. -/
theorem countP_seq_le_opsBeforeCheck (hs : PointersOk s) (hrun : s.mode = .run) (hreset : Instr.reset ∉ ops)
    (hcheck : Instr.seqCheck ∉ ops) (h : runOps ops s = .next t) :
    ops.countP (fun i => decide (i.agent = .seq)) ≤ opsBeforeCheck s := by
  induction ops generalizing s with
  | nil => exact Nat.zero_le _
  | cons i ops ih =>
    obtain ⟨u, hi, hops⟩ := runOps_cons.mp h
    obtain ⟨hneReset, hreset⟩ := not_or.mp (List.mem_cons.not.mp hreset)
    obtain ⟨hneCheck, hcheck⟩ := not_or.mp (List.mem_cons.not.mp hcheck)
    have hmode : u.mode = .run := (exec_keeps_mode (Ne.symm hneReset) (by simp [hrun]) hi).trans hrun
    have hrest := ih (exec_keeps_pointersOk hs hi) hmode hreset hcheck hops
    by_cases hagent : i.agent = .seq
    · rw [List.countP_cons_of_pos (by simpa using hagent)]
      exact hrest.trans_lt (opsBeforeCheck_lt_of_seq hs hrun (Ne.symm hneCheck) hagent hi)
    · rw [List.countP_cons_of_neg (by simpa using hagent)]
      exact hrest.trans_eq (opsBeforeCheck_of_not_seq (Ne.symm hneReset) hagent hi)

/-- Settles O54: without SEQ_CHECK at most HOP_SIZE + 4 operations of SEQ follow one another. -/
theorem seqCheckIsTakenInEveryLoop : Obligations.SeqCheckIsTakenInEveryLoop := by
  intro s t ops hs hrun hreset h hcount
  by_contra hcheck
  have hle := countP_seq_le_opsBeforeCheck hs.pointers hrun hreset hcheck h
  have hbound := opsBeforeCheck_le s
  omega

end Sys2Proof.Machine
end

section
/-!
PROOFS. Exceptions (spec/60_exceptions.md): in a reachable state an enabled operation produces a next state, any other
is refused, and no step faults (R280).
-/

namespace Sys2Proof.Machine

variable {s : State} {i : Instr} {f : Fault} {words : List Word}

/-! ## An enabled operation produces a next state -/

/-- SEQ has a current buffer at the two positions that use it (R53 d). -/
theorem PoolOk.exists_curBuf (hs : PoolOk s) (hpc : s.seqPc = .fill ∨ s.seqPc = .release) : ∃ b, s.curBuf = some b :=
  Option.ne_none_iff_exists'.mp (hs.current.mpr hpc)

/-- The invariant gives what the guards do not name: the array cells of ACQ_SAMPLE and AN_INGEST, and the current buffer
of SYN_FILL and POOL_RELEASE. -/
theorem exec_next_of_enabled (hs : Inv s) (hwf : i.wf = true) (h : enabled i s = true) : ∃ t, exec i s = .next t := by
  cases i with
  | acqSample v =>
    obtain ⟨hrun, hwptr⟩ := enabled_acqSample.mp h
    obtain ⟨hnext, -⟩ := acqSampleStoresAtTheWritePointer s v hs.shape
    exact (hnext hrun hwptr).imp fun _ => And.left
  | acqDone => exact ⟨_, execAcqDone_next.mpr ⟨enabled_acqDone.mp h, rfl⟩⟩
  | seqCheck =>
    have hguard := enabled_seqCheck.mp h
    cases hready : s.ready with
    | true => exact ⟨_, execSeqCheck_next.mpr ⟨hguard, .inl ⟨hready, rfl⟩⟩⟩
    | false => exact ⟨_, execSeqCheck_next.mpr ⟨hguard, .inr ⟨hready, rfl⟩⟩⟩
  | anIngest =>
    obtain ⟨hrun, hpc⟩ := enabled_anIngest.mp h
    obtain ⟨hnext, -⟩ := anIngestCopiesOneSample s hs.shape
    exact (hnext hrun hpc (hs.pointers.ingest hpc)).imp fun _ => And.left
  | anCompute => exact ⟨_, execAnCompute_next.mpr ⟨enabled_anCompute.mp h, rfl⟩⟩
  | poolAcquire =>
    have hguard := enabled_poolAcquire.mp h
    cases hfree : firstFree s.pstate with
    | some b => exact ⟨_, execPoolAcquire_next.mpr ⟨hguard, .inl ⟨b, hfree, rfl⟩⟩⟩
    | none => exact ⟨_, execPoolAcquire_next.mpr ⟨hguard, .inr ⟨hfree, rfl⟩⟩⟩
  | synFill =>
    have hguard := enabled_synFill.mp h
    obtain ⟨b, hcur⟩ := hs.pool.exists_curBuf (.inl hguard.2)
    exact ⟨_, execSynFill_next.mpr ⟨hguard, b, hcur, rfl⟩⟩
  | poolRelease =>
    have hguard := enabled_poolRelease.mp h
    obtain ⟨b, hcur⟩ := hs.pool.exists_curBuf (.inr hguard.2)
    exact ⟨_, execPoolRelease_next.mpr ⟨hguard, b, hcur, rfl⟩⟩
  | outTake =>
    obtain ⟨hrun, hplaying, hqueue⟩ := enabled_outTake.mp h
    obtain ⟨b, rest, hqueue⟩ := List.exists_cons_of_ne_nil hqueue
    exact ⟨_, execOutTake_next.mpr ⟨⟨hrun, hplaying⟩, b, rest, hqueue, rfl⟩⟩
  | outDone =>
    obtain ⟨hrun, hplaying⟩ := enabled_outDone.mp h
    obtain ⟨b, hplaying⟩ := Option.ne_none_iff_exists'.mp hplaying
    exact ⟨_, execOutDone_next.mpr ⟨hrun, b, hplaying, rfl⟩⟩
  | init ok =>
    have hguard := enabled_init.mp h
    cases ok with
    | true => exact ⟨_, execInit_next.mpr ⟨hguard, .inl ⟨rfl, rfl⟩⟩⟩
    | false => exact ⟨_, execInit_next.mpr ⟨hguard, .inr ⟨rfl, rfl⟩⟩⟩
  | csrRead | csrWrite | reset => exact exec_host_next rfl hwf

/-! ## No step faults -/

theorem exec_ne_fault (hs : Inv s) (hwf : i.wf = true) : exec i s ≠ .fault f := by
  by_cases h : enabled i s = true
  · obtain ⟨t, ht⟩ := exec_next_of_enabled hs hwf h
    rw [ht]
    exact nofun
  · rw [exec_refused h]
    exact nofun

theorem fetchLine_wf (h : fetchLine words = .ok i) : i.wf = true := by
  unfold fetchLine at h
  split at h
  case h_2 hdecode =>
    cases h
    exact (decodedWordsEncodeBack _ _ _ hdecode).1
  all_goals cases h

theorem execHostPort_ne_fault (hs : Inv s) : execHostPort s ≠ .fault f := by
  cases hin : s.hostIn with
  | nil => simp [execHostPort, hin]
  | cons w rest =>
    cases hdecode : decode (w :: rest) with
    | error e => simp [execHostPort_ignores_error hin hdecode]
    | ok r =>
      obtain ⟨i, rest'⟩ := r
      obtain ⟨hwf, -⟩ := decodedWordsEncodeBack _ _ _ hdecode
      rw [execHostPort_of_decode (hin ▸ hdecode)]
      split
      · exact exec_ne_fault (inv_environment hs s.sched rest') hwf
      · exact nofun

/-- A turn runs a decoded operation, which has an encoding, on a state that meets the invariant. -/
theorem step_ne_fault (hs : Inv s) : step s ≠ .fault f := by
  unfold step
  split
  case h_1 => exact nofun
  case h_2 sched _ =>
    split
    · exact exec_ne_fault (inv_environment hs sched s.hostIn) (fetchLine_wf ‹_›)
    · exact nofun
  case h_3 sched _ => exact execHostPort_ne_fault (inv_environment hs sched s.hostIn)

/-- Settles O46: every reachable state meets the invariant. -/
theorem enabledOperationsProduceANextState : Obligations.EnabledOperationsProduceANextState := by
  intro s hreach
  have hs := inv_of_reachable hreach
  exact ⟨fun i hwf => ⟨exec_next_of_enabled hs hwf, fun h => exec_refused (Bool.eq_false_iff.mp h)⟩,
    fun f => step_ne_fault hs⟩

end Sys2Proof.Machine
end

section
/-!
PROOFS. The reset state (spec/70_reset_and_hazards.md R310, R311): power-on meets the invariant under every
configuration, the model's reset state among them.
-/

namespace Sys2Proof.Machine

theorem tc1Wave_wf : tc1Wave.wf := by decide

/-- Settles O51: the reset state is power-on under TC1, whose waveform memory is in canonical form. -/
theorem powerOnMeetsTheInvariant : Obligations.PowerOnMeetsTheInvariant :=
  ⟨fun cfg _ hwave => inv_powerOn cfg hwave, inv_powerOn tc1 tc1Wave_wf⟩

end Sys2Proof.Machine
end
